-- ==== Sys2Proof/Word.lean ====
section
/-!
DEFINITION. The words of the trace codec: the nybble, the 40-bit data value, the 64-bit container, the sequence of nybbles.
-/

namespace Sys2Proof

/-- One symbol of the stream: 4 bits, bit 3 the most significant (R6, R32). -/
abbrev Nybble := BitVec 4

/-- The value of a data group: 40 bits, right-justified (R14, R52). -/
abbrev DataValue := BitVec 40

/-- The 64 bits of a CompressedRecord's `nybble_data`: 16 nybbles, nybble 0 least significant (R17, R30). -/
abbrev Container := BitVec 64

/-- A stream: a finite sequence of nybbles, index 0 first (R6, R31). -/
abbrev NybbleStream := List Nybble

end Sys2Proof
end

