-- ==== Sys2Proof/Config.lean ====
section
/-!
DEFINITION. The parameters of the codec: the fixed ones of R4 that the definitions use, and the open ones of R5.

An open parameter is an opaque constant: it has no body, so nothing proved here can rest on its value. The spec's own
default of each policy is a constructor beside the opaque choice. `Params` is what the packer takes as an argument.
-/

namespace Sys2Proof

/-- The nybbles of one container (R4 `CONTAINER_NYBBLES`). -/
abbrev Config.containerNybbles : Nat := 16

/-- The largest legal `NNN`: five pairs, ten nybbles, 40 bits (R4 `MAX_PAYLOAD_PAIRS`). -/
abbrev Config.maxPayloadPairs : Nat := 5

/-- The largest sequential count (R4 `SEQ_MAX`). -/
abbrev Config.seqMax : BitVec 3 := 7

/-- The longest group: a data group with ten payload nybbles (R45). -/
abbrev Config.longestGroupNybbles : Nat := 12

/-- The field-groups of one record: sequential, nonsequential, breakpoint, data (R54). -/
abbrev Config.groupsPerRecord : Nat := 4

/-- `PRIV_BITS`, the width of `privilege_mode`, which the spec leaves unspecified (R5, R12). -/
opaque Config.privBits : Nat

/-- `INSTR_BITS`, the width of `instruction_word`, which the spec leaves unspecified (R5, R12). -/
opaque Config.instrBits : Nat

/-- The packer's input, one per step (R12). It stands here because the open parameters of R5 are functions of it. -/
structure RawTraceRecord where
  instructionValid : Bool
  privilegeMode : BitVec Config.privBits
  programCounter : BitVec 32
  instructionWord : BitVec Config.instrBits
  branchTaken : Bool
  branchTarget : BitVec 32
  trap : Bool
  isReturn : Bool
  isIndirectJump : Bool
  retireValid : Bool
  writebackValid : Bool
  writebackRegister : BitVec 5
  writebackValue : BitVec 32
  breakpointValid : Bool
  breakpointReason : BitVec 4
deriving DecidableEq, Repr

/-- The writebacks a platform logs, beyond the constraint of R5 (which `paramsOf` adds). `paramsOf` gives the three constants of
a platform only the inputs that R83 lets the packer read. -/
opaque Config.wbPlatform : Nat → RawTraceRecord → Bool

/-- The nonsequential events whose destination a platform logs (R5 `PC_LOGGED`). -/
opaque Config.pcPlatform : Nat → RawTraceRecord → Bool

/-- The address a platform logs (R5 `PC_PAYLOAD`). -/
opaque Config.payloadPlatform : Nat → RawTraceRecord → BitVec 32

/-- The three open parameters of R5 as the packer takes them. -/
structure Params where
  wbLogged : RawTraceRecord → Bool
  pcLogged : RawTraceRecord → Bool
  pcPayload : RawTraceRecord → BitVec 32

/-- The constraint of R5: a logged writeback is one that retires and is valid. -/
def Params.constrained (P : Params) : Prop :=
  ∀ raw, P.wbLogged raw = true → raw.retireValid = true ∧ raw.writebackValid = true

/-- Which `WB_LOGGED` the environment fixed: every valid writeback (the default), none, or a platform's own. -/
inductive WbPolicy where
  | all
  | none
  | platform (n : Nat)
deriving DecidableEq, Repr

/-- Which `PC_LOGGED` the environment fixed: every destination (the default), none, or a platform's own. -/
inductive PcPolicy where
  | always
  | never
  | platform (n : Nat)
deriving DecidableEq, Repr

/-- Which `PC_PAYLOAD` the environment fixed: the branch target (the default), the raw record's own program counter, or a
platform's own. -/
inductive PayloadPolicy where
  | branchTarget
  | programCounter
  | platform (n : Nat)
deriving DecidableEq, Repr

/-- The environment's choice of the three open parameters, as plain data, fixed for the life of a stream (R147 item 1). -/
structure PolicyChoice where
  wb : WbPolicy
  pc : PcPolicy
  payload : PayloadPolicy
deriving DecidableEq, Repr

/-- The defaults of R5. -/
def PolicyChoice.default : PolicyChoice := { wb := .all, pc := .always, payload := .branchTarget }

end Sys2Proof
end

