-- ==== Sys2Proof/Syntax.lean ====
section
/-!
DEFINITION. The groups of the nybble stream (one constructor per row of spec/opcode_table.json), their classes, and the
record types that pass between packer, encoder and decoder. The raw record stands in Config.lean.
-/

namespace Sys2Proof

/-- One group of the stream: the instruction of this hardware (00_scope.md section 1, R45). -/
inductive Instr where
  /-- `0000`, the filler (R46). -/
  | skip
  /-- `0SSS`: `n` consecutive plain retirements, 1 to 7 (R47). -/
  | seq (n : BitVec 3)
  /-- `1000` (R48, R49). -/
  | nseqTrap
  /-- `1001` (R48, R49). -/
  | nseqRet
  /-- `1010` (R48, R49). -/
  | nseqJump
  /-- `1011` (R48, R49). -/
  | nseqBranch
  /-- `1101 NNNN`: a breakpoint with its reason (R50). -/
  | bkpt (reason : BitVec 4)
  /-- `1100 0NNN` and `2*NNN` payload nybbles: `pairs` is `NNN`, `data` the assembled value (R51, R52). -/
  | dataPc (pairs : BitVec 3) (data : DataValue)
  /-- `1100 1NNN` and `2*NNN` payload nybbles (R51, R52). -/
  | dataWb (pairs : BitVec 3) (data : DataValue)
  /-- `1100 R11N`: a data header with a reserved length, 6 or 7 (R56). -/
  | dataBadlen (r : BitVec 1) (n : BitVec 1)
  /-- `111x`: the reserved tag (R57). -/
  | rsvd (x : BitVec 1)
deriving DecidableEq, Repr

/-- The rows of spec/opcode_table.json, by name. -/
inductive Opcode where
  | skip | seq | nseqTrap | nseqRet | nseqJump | nseqBranch | bkpt | dataPc | dataWb | dataBadlen | rsvd
deriving DecidableEq, Repr

/-- The row of an instruction. -/
def Instr.opcode : Instr → Opcode
  | .skip => .skip
  | .seq _ => .seq
  | .nseqTrap => .nseqTrap
  | .nseqRet => .nseqRet
  | .nseqJump => .nseqJump
  | .nseqBranch => .nseqBranch
  | .bkpt _ => .bkpt
  | .dataPc _ _ => .dataPc
  | .dataWb _ _ => .dataWb
  | .dataBadlen _ _ => .dataBadlen
  | .rsvd _ => .rsvd

/-- The six classes of a tag nybble (R45). -/
inductive TagClass where
  | skip | seq | nseq | data | bkpt | rsvd
deriving DecidableEq, Repr

/-- The packer's output and the encoder's input (R14). -/
structure PackedRecord where
  seqValid : Bool
  seq : BitVec 3
  nonseqValid : Bool
  nonseq : BitVec 2
  bkptValid : Bool
  bkpt : BitVec 4
  dataValid : Bool
  dataReason : BitVec 1
  data : DataValue
  compressedDataNybble : BitVec 3
  compressedDataNumBytes : BitVec 3
deriving DecidableEq, Repr

/-- The skip record: every field 0 (R16). -/
def PackedRecord.skip : PackedRecord :=
  { seqValid := false, seq := 0, nonseqValid := false, nonseq := 0, bkptValid := false, bkpt := 0, dataValid := false,
    dataReason := 0, data := 0, compressedDataNybble := 0, compressedDataNumBytes := 0 }

/-- The encoder's output (R17). -/
structure CompressedRecord where
  validNybbleCount : BitVec 5
  nybbleData : Container
deriving DecidableEq, Repr

/-- The record part of a decoder `Ok` outcome (R19). -/
structure DecompressedRecord where
  seqValid : Bool
  seq : BitVec 3
  branchTaken : Bool
  trap : Bool
  isReturn : Bool
  isIndirectJump : Bool
  pcValid : Bool
  programCounter : BitVec 32
  writebackValid : Bool
  writebackRegister : BitVec 5
  writebackValue : BitVec 32
  breakpointValid : Bool
  breakpointReason : BitVec 4
deriving DecidableEq, Repr

/-- The empty (all-invalid) DecompressedRecord: every field 0 (R19). -/
def DecompressedRecord.empty : DecompressedRecord :=
  { seqValid := false, seq := 0, branchTaken := false, trap := false, isReturn := false, isIndirectJump := false,
    pcValid := false, programCounter := 0, writebackValid := false, writebackRegister := 0, writebackValue := 0,
    breakpointValid := false, breakpointReason := 0 }

/-- A group with its fields, as the round-trip law compares them (R118 `G(p)`, `G(r)`): the length hint is not part of it. -/
inductive Group where
  | seq (n : BitVec 3)
  | nseq (reason : BitVec 2)
  | bkpt (reason : BitVec 4)
  | data (reason : BitVec 1) (value : DataValue)
deriving DecidableEq, Repr

end Sys2Proof
end

