-- ==== Sys2Proof/Machine/State.lean ====
section
/-!
DEFINITION. The state of one trace channel, the reasons an operation stops, what the outside world can do, and reset.
-/

namespace Sys2Proof.Machine

/-- The decoder's faults (R125). The decoder reports one to its caller as the outcome of a call (R130, R132: a returned value,
after which the next call is an ordinary call), so a step that meets one answers a next state whose `outcomes` ends with it.
No step stops the machine with one. -/
inductive Fault where
  /-- Reported by a decode call whose first nybble is `1110` or `1111` (R126). Safe: the spec states the whole effect. -/
  | reservedTagEncountered
  /-- Reported by a decode call when the stream ends inside a BKPT or DATA group (R127). Safe: the spec states the whole effect. -/
  | truncatedStream
  /-- Reported by a decode call on a DATA header whose `NNN` is 6 or 7 (R128). Safe: the spec states the whole effect. -/
  | badDataLength
deriving DecidableEq, Repr

/-- Why the model gives an input no meaning (R8 `refuse`). No instruction's meaning answers one. -/
inductive Refusal where
  /-- Answered by an arm of `exec` whose instruction has no meaning yet. Safe. No arm answers it now. -/
  | notModelled (mnemonic : String)
  /-- Answered by a raw record that fails RawWF (R13, R80): a contract violation of the environment. Safe. -/
  | rawNotWellFormed
  /-- Answered by an encode call on a record that fails PackedWF (R15, R95): a contract violation. Safe. -/
  | packedNotWellFormed
  /-- Answered by an append of a record that fails CompressedWF (R18, R33; 93 U20): a contract violation. Safe. -/
  | compressedNotWellFormed
  /-- Answered by a decode call, or a cursor move, to an index beyond the stream (R100; 93 U17): a contract violation. Safe. -/
  | cursorPastEnd
  /-- Answered by a write of a producer to a stream that another one writes (R138, R147, R148; 93 U24): a contract violation.
  Safe. -/
  | secondProducer
  /-- Answered by a filler put behind the cursor or beyond the end, where the stream no longer changes (R39, R44). Safe. -/
  | fillerOutsideUnread
deriving DecidableEq, Repr

/-- The outcome of one decode call (R100): a record with `nybbles_consumed`, a fault, or nothing left to read. -/
inductive DecodeOutcome where
  | ok (record : DecompressedRecord) (consumed : Nat)
  | fault (kind : Fault)
  | exhausted
deriving DecidableEq, Repr

/-- The two spaces of R24: the container of one CompressedRecord, and the stream. -/
structure Memory where
  /-- The CompressedRecord the encoder wrote last (R17, R30). -/
  container : CompressedRecord
  /-- The stream, index 0 first (R31). An index at or above its length holds no value. -/
  stream : NybbleStream
deriving DecidableEq, Repr

/-- Who writes a stream: a stream has one producer (R138, R148; 93 U24). -/
inductive Producer where
  /-- The packer with the encoder, fed with raw records (R138). -/
  | packer
  /-- A caller of `encode` with records that are not this channel's packer's (R85). -/
  | encodeCaller
  /-- A caller of `StreamAppend` with records that are not this channel's encoder's (R33). -/
  | appendCaller
  /-- A producer outside the model, whose stream was handed over (R31, R142). -/
  | elsewhere
deriving DecidableEq, Repr

/-- What an agent of R138 does in one step. The queue of these is the model's own way to say who moves next. -/
inductive Input where
  /-- The source presents a raw record: pack, encode and append, in one atomic step (R65, R85, R33; 92 D2). -/
  | raw (record : RawTraceRecord)
  /-- `encode` is called on a PackedRecord and its result appended (R85, R33). -/
  | packed (record : PackedRecord)
  /-- A CompressedRecord is appended to the stream (R33). -/
  | compressed (record : CompressedRecord)
  /-- The transport inserts one filler nybble `0000` at an index (R39). -/
  | filler (pos : Nat)
  /-- The consumer calls `decode` at the cursor (R100, R116). -/
  | decode
  /-- The consumer calls the window form on the 16 nybbles at the cursor (R113). -/
  | decodeWindow
  /-- The consumer moves the cursor by means of its own (R132, R142). -/
  | moveCursor (pos : Nat)
  /-- The environment resets the packer and the stream is carried on (R140, R143). -/
  | resetPacker
  /-- The environment fixes the open parameters, resets the packer and starts an empty stream (R147). -/
  | startStream (choice : PolicyChoice)
  /-- The consumer is handed a stream kept elsewhere, as nybbles (R31, R41, R142). -/
  | load (nybbles : List Nybble)
  /-- The consumer is handed a stream kept elsewhere, as bytes (R36, R142). -/
  | loadBytes (bytes : List (BitVec 8))
deriving DecidableEq, Repr

/-- The state of one trace channel (R27) with its environment. -/
structure State where
  /-- The packer's register, 3 bits: the block's one piece of persistent state (R10, R11). -/
  pendingSeq : BitVec 3
  /-- The container and the stream (R24). -/
  mem : Memory
  /-- The consumer's cursor, in nybbles (R21). -/
  cursor : Nat
  /-- The model's own: the PackedRecord last given to the encoder. -/
  packed : PackedRecord
  /-- The model's own: what the decode calls returned so far, oldest first. -/
  outcomes : List DecodeOutcome
  /-- The model's own: what the agents do next; when it is empty the consumer calls `decode`. -/
  inputs : List Input
  /-- The model's own: who writes the stream (R138, R148), or nobody yet. -/
  producer : Option Producer
  /-- The environment's choice of the open parameters (R5, R147). -/
  policy : PolicyChoice
deriving DecidableEq, Repr

/-- Reset: `pending_seq` is 0 (R140), the stream is empty (R143), the cursor is 0 (R142), the open parameters have their
defaults (R5). The spec gives the transient records no reset value (R144): skip and the empty container are a DESIGN CHOICE,
unsafe, log entry 7; no call made, no input waiting and no producer yet are the model's own, log entries 2, 8 and 23. -/
def State.reset : State :=
  { pendingSeq := 0
    mem := { container := { validNybbleCount := 0, nybbleData := 0 }, stream := [] }
    cursor := 0
    packed := PackedRecord.skip
    outcomes := []
    inputs := []
    producer := none
    policy := PolicyChoice.default }

/-- What a decode call holds while it parses (R104 `rec`, `i`, `stage`). It lives inside one call and is no part of `State`. -/
structure Parse where
  record : DecompressedRecord
  idx : Nat
  stage : Nat
deriving DecidableEq, Repr

end Sys2Proof.Machine
end

