-- ==== Sys2Proof/Machine/Flags.lean ====
section
/-!
DEFINITION. The flags. The block stores none (R22): these are the predicates the packer computes from a raw record (R66, R67),
and the one-hot flags the decoder sets from a reason code (R106).
-/

namespace Sys2Proof.Machine

/-- `nsq`: a nonsequential event of a valid instruction (R66). -/
def isNonsequential (raw : RawTraceRecord) : Bool :=
  raw.instructionValid && (raw.trap || raw.isReturn || raw.isIndirectJump || raw.branchTaken)

/-- `rr`: the reason code, trap first, then return, then indirect jump, else other taken branch (R66, R49). -/
def reasonCode (raw : RawTraceRecord) : BitVec 2 :=
  if raw.trap then 0 else if raw.isReturn then 1 else if raw.isIndirectJump then 2 else 3

/-- `pcl`: a nonsequential event whose destination is logged (R66). -/
def isPcLogged (P : Params) (raw : RawTraceRecord) : Bool := isNonsequential raw && P.pcLogged raw

/-- `interesting` (R67). -/
def isInteresting (P : Params) (raw : RawTraceRecord) : Bool :=
  isNonsequential raw || raw.breakpointValid || P.wbLogged raw

/-- `plain` (R67). -/
def isPlain (P : Params) (raw : RawTraceRecord) : Bool := raw.instructionValid && !isInteresting P raw

/-- `idle` (R67). -/
def isIdle (P : Params) (raw : RawTraceRecord) : Bool := !raw.instructionValid && !isInteresting P raw

/-- The one flag of a reason code is set; the other three are left as they are, 0 in a fresh record (R106). -/
def setReasonFlag (rr : BitVec 2) (r : DecompressedRecord) : DecompressedRecord :=
  if rr = 0 then { r with trap := true }
  else if rr = 1 then { r with isReturn := true }
  else if rr = 2 then { r with isIndirectJump := true }
  else { r with branchTaken := true }

/-- The reason code of the one flag set in a decoded record, where one is (R118). -/
def reasonOfFlags (r : DecompressedRecord) : Option (BitVec 2) :=
  if r.trap then some 0
  else if r.isReturn then some 1
  else if r.isIndirectJump then some 2
  else if r.branchTaken then some 3
  else none

end Sys2Proof.Machine
end

