-- ==== Sys2Proof/WellFormed.lean ====
section
/-!
DEFINITION. Which terms of `Instr` are groups of the format: the ones some sequence of nybbles encodes. The well-formedness
of the four record types is in Machine/Formed.lean.
-/

namespace Sys2Proof

/-- A count of 0 is not a SEQ but a SKIP (R47). -/
def seqCountLegal (n : BitVec 3) : Bool := n != 0

/-- A payload length is 0 to 5 pairs (R51, R56). -/
def pairsLegal (pairs : BitVec 3) : Bool := decide (pairs.toNat ≤ Config.maxPayloadPairs)

/-- The value of a group with `k` pairs is what `2*k` nybbles hold: below `2^(8*k)` (R52, R60). -/
def dataFits (pairs : BitVec 3) (data : DataValue) : Bool := decide (data.toNat < 2 ^ (8 * pairs.toNat))

/-- The instruction is a group of the format. -/
def Instr.wf : Instr → Bool
  | .skip => true
  | .seq n => seqCountLegal n
  | .nseqTrap => true
  | .nseqRet => true
  | .nseqJump => true
  | .nseqBranch => true
  | .bkpt _ => true
  | .dataPc pairs data => pairsLegal pairs && dataFits pairs data
  | .dataWb pairs data => pairsLegal pairs && dataFits pairs data
  | .dataBadlen _ _ => true
  | .rsvd _ => true

end Sys2Proof
end

