-- ==== Sys2Proof/Decode.lean ====
section
/-!
DEFINITION. Decoding one group from a sequence of nybbles, encoding one group into nybbles, the opcode table's rows, and the
notation of R60. Decoding is total; it refuses by name.
-/

namespace Sys2Proof

/-- Why no group can be read from a sequence of nybbles. -/
inductive DecodeReject where
  /-- There is no nybble: the sequence is at its end (R101). -/
  | exhausted
  /-- The sequence ends inside the group that its first nybble begins (R127). -/
  | truncated
deriving DecidableEq, Repr

/-- The class of a tag nybble, by its leading bits (R45). -/
def tagClass (t : Nybble) : TagClass :=
  if t.extractLsb' 3 1 = 0 then (if t = 0 then .skip else .seq)
  else if t.extractLsb' 2 2 = 0b10#2 then .nseq
  else if t = 0b1100#4 then .data
  else if t = 0b1101#4 then .bkpt
  else .rsvd

/-- The order index of a class: SEQ 0, NSEQ 1, BKPT 2, DATA 3; skip and the reserved tag have none (R54). -/
def orderIndex : TagClass → Option Nat
  | .skip => none
  | .seq => some 0
  | .nseq => some 1
  | .bkpt => some 2
  | .data => some 3
  | .rsvd => none

/-- The number that nybbles make, least significant first: the sum of `s[j] * 16^j` (R35, R52). -/
def nybblesToNat : List Nybble → Nat
  | [] => 0
  | x :: xs => x.toNat + 16 * nybblesToNat xs

/-- The 40-bit data value of a payload, zero-extended (R52). -/
def assemblePayload (payload : List Nybble) : DataValue := BitVec.ofNat 40 (nybblesToNat payload)

/-- The first `n` nybbles of a data value, least significant first (R35, R90). -/
def payloadNybbles (data : DataValue) (n : Nat) : List Nybble := (List.range n).map fun j => data.extractLsb' (4 * j) 4

/-- The NSEQ group of a reason code: 0 trap, 1 return, 2 indirect jump, 3 other taken branch (R49). -/
def nseqOfReason (rr : BitVec 2) : Instr :=
  if rr = 0 then .nseqTrap
  else if rr = 1 then .nseqRet
  else if rr = 2 then .nseqJump
  else .nseqBranch

/-- The group at the head of a sequence of nybbles, and the nybbles after it (R45 to R57). A reserved tag and a reserved
length have no group length: what follows the nybbles that decided them is given back as it is. -/
def decodeGroup : List Nybble → Except DecodeReject (Instr × List Nybble)
  | [] => .error .exhausted
  | t :: rest =>
    match tagClass t with
    | .skip => .ok (.skip, rest)
    | .seq => .ok (.seq (t.extractLsb' 0 3), rest)
    | .nseq => .ok (nseqOfReason (t.extractLsb' 0 2), rest)
    | .bkpt =>
      match rest with
      | [] => .error .truncated
      | reason :: rest => .ok (.bkpt reason, rest)
    | .data =>
      match rest with
      | [] => .error .truncated
      | header :: rest =>
        let r : BitVec 1 := header.extractLsb' 3 1
        let pairs : BitVec 3 := header.extractLsb' 0 3
        if Config.maxPayloadPairs < pairs.toNat then .ok (.dataBadlen r (header.extractLsb' 0 1), rest)
        else if rest.length < 2 * pairs.toNat then .error .truncated
        else
          let data := assemblePayload (rest.take (2 * pairs.toNat))
          .ok (if r = 0 then .dataPc pairs data else .dataWb pairs data, rest.drop (2 * pairs.toNat))
    | .rsvd => .ok (.rsvd (t.extractLsb' 0 1), rest)

/-- The nybble `RNNN` of a data header (R51). -/
def dataHeader (r : BitVec 1) (pairs : BitVec 3) : Nybble := r ++ pairs

/-- The nybbles of a group, in stream order (R46 to R51, R60). -/
def encode : Instr → List Nybble
  | .skip => [0b0000#4]
  | .seq n => [0b0#1 ++ n]
  | .nseqTrap => [0b1000#4]
  | .nseqRet => [0b1001#4]
  | .nseqJump => [0b1010#4]
  | .nseqBranch => [0b1011#4]
  | .bkpt reason => [0b1101#4, reason]
  | .dataPc pairs data => 0b1100#4 :: dataHeader 0 pairs :: payloadNybbles data (2 * pairs.toNat)
  | .dataWb pairs data => 0b1100#4 :: dataHeader 1 pairs :: payloadNybbles data (2 * pairs.toNat)
  | .dataBadlen r n => [0b1100#4, dataHeader r (0b11#2 ++ n)]
  | .rsvd x => [0b111#3 ++ x]

/-- The length of a group in nybbles (R45, R55). For a reserved length or a reserved tag, which have none, the nybbles that
decide it. -/
def groupLength : Instr → Nat
  | .skip => 1
  | .seq _ => 1
  | .nseqTrap => 1
  | .nseqRet => 1
  | .nseqJump => 1
  | .nseqBranch => 1
  | .bkpt _ => 2
  | .dataPc pairs _ => 2 + 2 * pairs.toNat
  | .dataWb pairs _ => 2 + 2 * pairs.toNat
  | .dataBadlen _ _ => 2
  | .rsvd _ => 1

/-- The class of an instruction's tag (R45). -/
def Instr.tagClass : Instr → TagClass
  | .skip => .skip
  | .seq _ => .seq
  | .nseqTrap => .nseq
  | .nseqRet => .nseq
  | .nseqJump => .nseq
  | .nseqBranch => .nseq
  | .bkpt _ => .bkpt
  | .dataPc _ _ => .data
  | .dataWb _ _ => .data
  | .dataBadlen _ _ => .data
  | .rsvd _ => .rsvd

/-! ## The opcode table (R61) -/

/-- One row: its name, the mask and the match over the first two nybbles (the first in bits 3 to 0), and whether the row asks
for a count other than 0 or for a length of at most 5. -/
structure OpcodeRow where
  opcode : Opcode
  mask : BitVec 8
  matchBits : BitVec 8
  countNonzero : Bool
  lengthLegal : Bool
deriving DecidableEq, Repr

/-- The rows of spec/opcode_table.json, in its order. -/
def opcodeRows : List OpcodeRow :=
  [ { opcode := .skip, matchBits := 0x00, mask := 0x0F, countNonzero := false, lengthLegal := false },
    { opcode := .seq, matchBits := 0x00, mask := 0x08, countNonzero := true, lengthLegal := false },
    { opcode := .nseqTrap, matchBits := 0x08, mask := 0x0F, countNonzero := false, lengthLegal := false },
    { opcode := .nseqRet, matchBits := 0x09, mask := 0x0F, countNonzero := false, lengthLegal := false },
    { opcode := .nseqJump, matchBits := 0x0A, mask := 0x0F, countNonzero := false, lengthLegal := false },
    { opcode := .nseqBranch, matchBits := 0x0B, mask := 0x0F, countNonzero := false, lengthLegal := false },
    { opcode := .bkpt, matchBits := 0x0D, mask := 0x0F, countNonzero := false, lengthLegal := false },
    { opcode := .dataPc, matchBits := 0x0C, mask := 0x8F, countNonzero := false, lengthLegal := true },
    { opcode := .dataWb, matchBits := 0x8C, mask := 0x8F, countNonzero := false, lengthLegal := true },
    { opcode := .dataBadlen, matchBits := 0x6C, mask := 0x6F, countNonzero := false, lengthLegal := false },
    { opcode := .rsvd, matchBits := 0x0E, mask := 0x0E, countNonzero := false, lengthLegal := false } ]

/-- A word of the first two nybbles matches a row (R61). -/
def rowMatches (row : OpcodeRow) (w : BitVec 8) : Bool :=
  (w &&& row.mask == row.matchBits)
    && (!row.countNonzero || w.extractLsb' 0 3 != 0)
    && (!row.lengthLegal || decide ((w.extractLsb' 4 3).toNat ≤ Config.maxPayloadPairs))

/-- The rows a word matches, by name. -/
def matchingRows (w : BitVec 8) : List Opcode := (opcodeRows.filter fun row => rowMatches row w).map (·.opcode)

/-- The nybbles of an opcode-table word: bits 3 to 0 are the first nybble, and every bit at or above `nbits` is 0, up to the
longest group (R61). -/
def tableNybbles (nbits w : Nat) : List Nybble :=
  (List.range Config.longestGroupNybbles).map fun j => BitVec.ofNat 4 (w % 2 ^ nbits / 16 ^ j)

/-- The instruction the decoder reads from an opcode-table word of `nbits` bits. -/
def decodeTableWord (nbits w : Nat) : Option Instr :=
  match decodeGroup (tableNybbles nbits w) with
  | .ok (i, _) => some i
  | .error _ => none

/-! ## The notation of R60 -/

/-- The least number of nybble pairs that hold a value: the least `k` in 0 to 5 with the value below `2^(8*k)` (R60, R75). -/
def minPairs (data : DataValue) : BitVec 3 :=
  BitVec.ofNat 3 (((List.range (Config.maxPayloadPairs + 1)).find? fun k => decide (data.toNat < 2 ^ (8 * k))).getD
    Config.maxPayloadPairs)

/-- The data value of a writeback: `v * 32 + rd` (R53, R60, R73). -/
def writebackData (value : BitVec 32) (register : BitVec 5) : DataValue := (value ++ register).setWidth 40

/-- `DATA.PC/k v` (R60). -/
def asmDataPcK (pairs : BitVec 3) (v : BitVec 32) : Instr := .dataPc pairs (v.setWidth 40)

/-- `DATA.WB/k rd, v` (R60). -/
def asmDataWbK (pairs : BitVec 3) (rd : BitVec 5) (v : BitVec 32) : Instr := .dataWb pairs (writebackData v rd)

/-- `DATA.PC v`: the `/k` form with the least `k` (R60). -/
def asmDataPc (v : BitVec 32) : Instr := asmDataPcK (minPairs (v.setWidth 40)) v

/-- `DATA.WB rd, v`: the `/k` form with the least `k` (R60). -/
def asmDataWb (rd : BitVec 5) (v : BitVec 32) : Instr := asmDataWbK (minPairs (writebackData v rd)) rd v

/-- The groups have strictly increasing order indices, from `stage` on (R54, R60). -/
def inEmissionOrder : Nat → List Instr → Bool
  | _, [] => true
  | stage, i :: rest =>
    match orderIndex i.tagClass with
    | none => false
    | some o => decide (stage ≤ o) && inEmissionOrder (o + 1) rest

/-- `g1; g2; ...` in braces: the nybbles of one record, where the groups are legal and in emission order (R60). -/
def assembleRecord (groups : List Instr) : Option (List Nybble) :=
  if inEmissionOrder 0 groups && groups.all (fun i => i.wf && i.opcode != .dataBadlen) then some (groups.flatMap encode)
  else none

end Sys2Proof
end

