-- ==== Sys2Proof/Machine/Operands.lean ====
section
/-!
DEFINITION. The operand forms: the nybbles of a container, the fields of a data value, the layout hints of a data group.
-/

namespace Sys2Proof.Machine

/-- `nyb(d, i)`: nybble `i` of a container, `d[4*i+3 : 4*i]` (R6, R30). -/
def nyb (d : Container) (i : Nat) : Nybble := d.extractLsb' (4 * i) 4

/-- `put(i, v)`: the container with nybble `i` replaced (41_encoder.md section 3). -/
def putNybble (d : Container) (i : Nat) (v : Nybble) : Container :=
  (d &&& ~~~(0xF#64 <<< (4 * i))) ||| (v.setWidth 64 <<< (4 * i))

/-- The first `n` nybbles of a container, nybble 0 first (R33). -/
def firstNybbles (d : Container) (n : Nat) : List Nybble := (List.range n).map fun i => nyb d i

/-- The valid nybbles of a CompressedRecord, in the order they enter the stream (R33). -/
def validNybbles (c : CompressedRecord) : List Nybble := firstNybbles c.nybbleData c.validNybbleCount.toNat

/-- `program_counter = data[31:0]`; bits 39 to 32 carry nothing (R53, R109). -/
def pcOfData (data : DataValue) : BitVec 32 := data.extractLsb' 0 32

/-- `writeback_register = data[4:0]` (R53, R110). -/
def registerOfData (data : DataValue) : BitVec 5 := data.extractLsb' 0 5

/-- `writeback_value = data[36:5]`; bits 39 to 37 carry nothing (R53, R110). -/
def valueOfData (data : DataValue) : BitVec 32 := data.extractLsb' 5 32

/-- The data value of a program-counter payload: the address, zero-extended (R72). -/
def pcData (address : BitVec 32) : DataValue := address.setWidth 40

/-- The offset hint: the container index of the first payload nybble (R76). -/
def offsetHint (seqValid nonseqValid bkptValid : Bool) : BitVec 3 :=
  BitVec.ofNat 3 (seqValid.toNat + nonseqValid.toNat + 2 * bkptValid.toNat + 2)

/-- `StreamRead(s, j, n)`: defined only when `j + n <= len(s)` (R7). -/
def streamRead (s : NybbleStream) (j n : Nat) : Option (List Nybble) :=
  if j + n ≤ s.length then some ((s.drop j).take n) else none

end Sys2Proof.Machine
end

