-- ==== Sys2Proof/Machine/Formed.lean ====
section
/-!
DEFINITION. The well-formedness of the four record types (R13, R15, R18, R20) and of the memory.
-/

namespace Sys2Proof.Machine

/-- `RawWF(raw)`, the packer's precondition (R13). -/
def rawWF (P : Params) (raw : RawTraceRecord) : Bool :=
  (raw.instructionValid || (!raw.trap && !raw.isReturn && !raw.isIndirectJump && !raw.branchTaken))
    && !(isNonsequential raw && P.pcLogged raw && P.wbLogged raw)

/-- Clause 1 of PackedWF: a valid count is 1 to 7, an invalid one 0 (R15). -/
def packedSeqWF (p : PackedRecord) : Bool := if p.seqValid then p.seq != 0 else p.seq == 0

/-- Clauses 2 to 4 of PackedWF: the fields of an invalid group are 0 (R15). -/
def packedInvalidZeroWF (p : PackedRecord) : Bool :=
  (p.nonseqValid || p.nonseq == 0) && (p.bkptValid || p.bkpt == 0)
    && (p.dataValid || (p.dataReason == 0 && p.data == 0 && p.compressedDataNybble == 0 && p.compressedDataNumBytes == 0))

/-- Clause 5 of PackedWF: the hints agree with the fields they describe (R15). -/
def packedHintsWF (p : PackedRecord) : Bool :=
  !p.dataValid
    || (decide (p.compressedDataNumBytes.toNat ≤ Config.maxPayloadPairs)
      && decide (p.data.toNat < 2 ^ (8 * p.compressedDataNumBytes.toNat))
      && decide (p.compressedDataNybble.toNat = p.seqValid.toNat + p.nonseqValid.toNat + 2 * p.bkptValid.toNat + 2))

/-- Clause 6 of PackedWF: the value is as wide as its reason allows (R15). -/
def packedWidthWF (p : PackedRecord) : Bool :=
  !p.dataValid || (if p.dataReason = 0 then decide (p.data.toNat < 2 ^ 32) else decide (p.data.toNat < 2 ^ 37))

/-- `PackedWF(p)`, the encoder's precondition (R15). -/
def packedWF (p : PackedRecord) : Bool :=
  packedSeqWF p && packedInvalidZeroWF p && packedHintsWF p && packedWidthWF p

/-- `CompressedWF(c)`: at most 16 valid nybbles, and every nybble at or above the count is 0 (R18). -/
def compressedWF (c : CompressedRecord) : Bool :=
  decide (c.validNybbleCount.toNat ≤ Config.containerNybbles)
    && (List.range Config.containerNybbles).all fun i => decide (i < c.validNybbleCount.toNat) || nyb c.nybbleData i == 0

/-- At most one of four flags is set. -/
def atMostOne (a b c d : Bool) : Bool := decide (a.toNat + b.toNat + c.toNat + d.toNat ≤ 1)

/-- `DecompressedWF(r)`: at most one nonsequential flag, at most one data payload, invalid fields 0, a valid count 1 to 7
(R20). -/
def decompressedWF (r : DecompressedRecord) : Bool :=
  atMostOne r.branchTaken r.trap r.isReturn r.isIndirectJump
    && !(r.pcValid && r.writebackValid)
    && (if r.seqValid then r.seq != 0 else r.seq == 0)
    && (r.pcValid || r.programCounter == 0)
    && (r.writebackValid || (r.writebackRegister == 0 && r.writebackValue == 0))
    && (r.breakpointValid || r.breakpointReason == 0)

/-- The canonical form of the memory: the container's nybbles beyond its count are 0, the value an unwritten one has (R18).
The stream is a plain sequence: every list of nybbles is one stream, and no two lists are the same one. -/
def Memory.wf (m : Memory) : Bool := compressedWF m.container

/-- What is promised of one outcome: a record is well-formed and took 1 to 16 nybbles (R20, R112). -/
def outcomeWF : DecodeOutcome → Bool
  | .ok r n => decompressedWF r && decide (1 ≤ n) && decide (n ≤ Config.containerNybbles)
  | .fault _ => true
  | .exhausted => true

end Sys2Proof.Machine
end

