-- ==== Sys2Proof/Machine/Ops.lean ====
section
/-!
DEFINITION. The named operations: the updates of the state, the memory's reads and writes, what one group does to a record
being parsed (R105 to R110), the greedy parse (R104), and a decode call's end: a record delivered, or a fault taken (R130).
-/

namespace Sys2Proof.Machine

/-! ## Updates of the state -/

/-- The packer's register is written (R69). Every 3-bit value is legal (R11). -/
def State.setPending (s : State) (v : BitVec 3) : State := { s with pendingSeq := v }

/-- The caller's cursor is written (R21). -/
def State.setCursor (s : State) (c : Nat) : State := { s with cursor := c }

/-- The stream is replaced: an append, a filler, a load. -/
def State.setStream (s : State) (n : NybbleStream) : State := { s with mem := { s.mem with stream := n } }

/-- The encoder writes the whole container (R30). -/
def State.setContainer (s : State) (c : CompressedRecord) : State := { s with mem := { s.mem with container := c } }

/-- The PackedRecord the encoder is given. -/
def State.setPacked (s : State) (p : PackedRecord) : State := { s with packed := p }

/-- The outcome of a decode call goes to its caller (R100). -/
def State.pushOutcome (s : State) (o : DecodeOutcome) : State := { s with outcomes := s.outcomes ++ [o] }

/-- The stream's producer is written. -/
def State.setProducer (s : State) (who : Option Producer) : State := { s with producer := who }

/-- The queue of inputs is written. -/
def State.setInputs (s : State) (q : List Input) : State := { s with inputs := q }

/-! ## The memory -/

/-- One nybble of the stream; an index at or above the length has none (R7, R127). -/
def readStream (s : State) (j : Nat) : Option Nybble := s.mem.stream[j]?

/-- One nybble of the container (R30). -/
def readContainer (s : State) (i : Nat) : Nybble := nyb s.mem.container.nybbleData i

/-- `StreamAppend(s, c)`, defined under CompressedWF (R33). -/
def streamAppend (stream : NybbleStream) (c : CompressedRecord) : Option NybbleStream :=
  if compressedWF c then some (stream ++ validNybbles c) else none

/-- The stream with one filler nybble `0000` at an index (R39). -/
def insertFiller (stream : NybbleStream) (pos : Nat) : NybbleStream := stream.take pos ++ 0b0000#4 :: stream.drop pos

/-- The byte view of a stream: nybble `2k` in bits 3 to 0 of byte `k`, nybble `2k+1` in bits 7 to 4; an odd tail is padded with
one filler (R36). -/
def toBytes : NybbleStream → List (BitVec 8)
  | [] => []
  | [lo] => [(0b0000#4 ++ lo : BitVec 8)]
  | lo :: hi :: rest => (hi ++ lo : BitVec 8) :: toBytes rest

/-- The nybbles of a byte view (R36). -/
def fromBytes : List (BitVec 8) → NybbleStream
  | [] => []
  | b :: rest => b.extractLsb' 0 4 :: b.extractLsb' 4 4 :: fromBytes rest

/-- The byte view as cells of a memory that starts at address 0 (R36, R41: where the bytes stand is the platform's). -/
def streamCells (stream : NybbleStream) : List Host.Cell := (toBytes stream).mapIdx fun k b => (k, b)

/-! ## What one group does to the record being parsed -/

/-- The start of a parse: an empty record, index and stage 0 (R104). -/
def Parse.start (cursor : Nat) : Parse := { record := DecompressedRecord.empty, idx := cursor, stage := 0 }

/-- Parse `SEQ` (R105). -/
def parseSeq (n : BitVec 3) (p : Parse) : Parse :=
  { record := { p.record with seqValid := true, seq := n }, idx := p.idx + 1, stage := 1 }

/-- Parse `NSEQ` with its reason code (R106). -/
def parseNseq (rr : BitVec 2) (p : Parse) : Parse :=
  { record := setReasonFlag rr p.record, idx := p.idx + 1, stage := 2 }

/-- Parse `BKPT` in a stream of `len` nybbles (R107). -/
def parseBkpt (len : Nat) (reason : BitVec 4) (p : Parse) : Except Fault Parse :=
  if len ≤ p.idx + 1 then .error .truncatedStream
  else .ok { record := { p.record with breakpointValid := true, breakpointReason := reason }, idx := p.idx + 2, stage := 3 }

/-- The checks on a DATA group with `NNN = pairs`, in their order: the header is there, the length is legal, the payload is
there (R108, R129). -/
def checkData (len : Nat) (pairs : BitVec 3) (p : Parse) : Except Fault Unit :=
  if len ≤ p.idx + 1 then .error .truncatedStream
  else if Config.maxPayloadPairs < pairs.toNat then .error .badDataLength
  else if len < p.idx + 2 + 2 * pairs.toNat then .error .truncatedStream
  else .ok ()

/-- Parse `DATA.PC` (R108, R109). -/
def parsePc (len : Nat) (pairs : BitVec 3) (data : DataValue) (p : Parse) : Except Fault Parse :=
  match checkData len pairs p with
  | .error k => .error k
  | .ok () =>
    .ok { record := { p.record with pcValid := true, programCounter := pcOfData data }
          idx := p.idx + 2 + 2 * pairs.toNat
          stage := 4 }

/-- Parse `DATA.WB` (R108, R110). -/
def parseWb (len : Nat) (pairs : BitVec 3) (data : DataValue) (p : Parse) : Except Fault Parse :=
  match checkData len pairs p with
  | .error k => .error k
  | .ok () =>
    .ok { record := { p.record with writebackValid := true, writebackRegister := registerOfData data,
                                    writebackValue := valueOfData data }
          idx := p.idx + 2 + 2 * pairs.toNat
          stage := 4 }

/-- Parse a DATA header with the reserved length `11n` (R56, R108, R128). -/
def parseBadlen (len : Nat) (n : BitVec 1) (p : Parse) : Except Fault Parse :=
  match checkData len (0b11#2 ++ n) p with
  | .error k => .error k
  | .ok () => .ok p

/-- What a group found at the parse's index does to the parse (R105 to R110, R128). A skip and a reserved tag are no groups of
a record: the parse stands still on them (R111 cases 3 and 5). -/
def applyGroup (len : Nat) (i : Instr) (p : Parse) : Except Fault Parse :=
  match i with
  | .skip => .ok p
  | .seq n => .ok (parseSeq n p)
  | .nseqTrap => .ok (parseNseq 0 p)
  | .nseqRet => .ok (parseNseq 1 p)
  | .nseqJump => .ok (parseNseq 2 p)
  | .nseqBranch => .ok (parseNseq 3 p)
  | .bkpt reason => parseBkpt len reason p
  | .dataPc pairs data => parsePc len pairs data p
  | .dataWb pairs data => parseWb len pairs data p
  | .dataBadlen _ n => parseBadlen len n p
  | .rsvd _ => .ok p

/-- The group at the parse's index: truncated, or applied (R104). -/
def parseGroup (stream : NybbleStream) (p : Parse) : Except Fault Parse :=
  match decodeGroup (stream.drop p.idx) with
  | .ok (i, _) => applyGroup stream.length i p
  | .error _ => .error .truncatedStream

/-- The greedy parse (R104, R111): the record ends at the end of the stream, at a skip or a reserved tag, and at a tag whose
order index is below the stage. The stage rises with every group, so `Config.groupsPerRecord` rounds are enough. -/
def parseLoop (stream : NybbleStream) : Nat → Parse → Except Fault Parse
  | 0, p => .ok p
  | fuel + 1, p =>
    match stream[p.idx]? with
    | none => .ok p
    | some t =>
      match orderIndex (tagClass t) with
      | none => .ok p
      | some o =>
        if o < p.stage then .ok p
        else
          match parseGroup stream p with
          | .error k => .error k
          | .ok p' => parseLoop stream fuel p'

/-! ## The end of a decode call -/

/-- Taking a fault: the kind goes to the caller and nothing else changes: no record, nothing consumed, no vector, no mode
(R130). -/
def takeFault (kind : Fault) (s : State) : State := s.pushOutcome (.fault kind)

/-- There is no return from a fault (R132). What the caller may do after one, and at a start (R142), is to move the cursor
itself; an index beyond the stream is outside the contract of the call (R100). -/
def resynchronise (pos : Nat) (s : State) : Host.Outcome State Fault Refusal :=
  if pos ≤ s.mem.stream.length then .next (s.setCursor pos) else .refused .cursorPastEnd

/-- A record is delivered and the cursor advances by what was consumed (R112, R116). -/
def deliver (record : DecompressedRecord) (consumed : Nat) (s : State) : State :=
  (s.setCursor (s.cursor + consumed)).pushOutcome (.ok record consumed)

/-- `nybbles_consumed`: what an outcome says the caller's cursor is to advance by; 0 on a fault and at the end (R112, R116). -/
def DecodeOutcome.consumed : DecodeOutcome → Nat
  | .ok _ n => n
  | .fault _ => 0
  | .exhausted => 0

/-- What the caller of `decode` does with an outcome (R116). -/
def report (o : DecodeOutcome) (s : State) : State :=
  match o with
  | .ok record consumed => deliver record consumed s
  | .fault kind => takeFault kind s
  | .exhausted => s.pushOutcome .exhausted

/-- The outcome of a call from the parse it ended with (R104, R112). -/
def outcomeOfParse (cursor : Nat) : Except Fault Parse → DecodeOutcome
  | .ok p => .ok p.record (p.idx - cursor)
  | .error k => .fault k

/-- The rest of a call whose first group left `first` (R104). -/
def continueParse (stream : NybbleStream) (first : Except Fault Parse) : Except Fault Parse :=
  match first with
  | .error k => .error k
  | .ok p => parseLoop stream Config.groupsPerRecord p

/-- A decode call at the cursor whose first group left `first`: the call goes on greedily and its outcome is reported. -/
def runCall (first : Except Fault Parse) (s : State) : Host.Outcome State Fault Refusal :=
  .next (report (outcomeOfParse s.cursor (continueParse s.mem.stream first)) s)

end Sys2Proof.Machine
end

