-- ==== Sys2Proof/Machine/Decoder.lean ====
section
/-!
DEFINITION. The decoder as one function (R100 to R113): the stream form, the window form, the caller's loop (R116), and the
groups a decoded record carries (R118). The instructions' meanings run the same parse (Ops.lean).
-/

namespace Sys2Proof.Machine

/-- The outcome of a call at an index of the stream or at its end (R101 to R104, R111, R112). -/
def decodeOutcome (stream : NybbleStream) (cursor : Nat) : DecodeOutcome :=
  match stream[cursor]? with
  | none => .exhausted
  | some t =>
    match tagClass t with
    | .skip => .ok DecompressedRecord.empty 1
    | .rsvd => .fault .reservedTagEncountered
    | .seq | .nseq | .bkpt | .data =>
      outcomeOfParse cursor (parseLoop stream Config.groupsPerRecord (Parse.start cursor))

/-- `decode(stream, cursor)` on its domain, `cursor <= len(s)` (R100; 93 U17). -/
def decodeCall (stream : NybbleStream) (cursor : Nat) : Option DecodeOutcome :=
  if cursor ≤ stream.length then some (decodeOutcome stream cursor) else none

/-- The code of a fault (R125). -/
def faultCode : Fault → Nat
  | .reservedTagEncountered => 1
  | .truncatedStream => 2
  | .badDataLength => 3

/-- The code of an outcome: 0 where it is no fault (R125). -/
def outcomeCode : DecodeOutcome → Nat
  | .ok _ _ => 0
  | .exhausted => 0
  | .fault kind => faultCode kind

/-- `decode_window(window, avail)`, `avail` 0 to 16 (R113). -/
def decodeWindow (window : Container) (avail : Fin 17) : DecodeOutcome := decodeOutcome (firstNybbles window avail.val) 0

/-- `avail`: the nybbles from the cursor on, at most 16 (R113). -/
def windowAvail (stream : NybbleStream) (cursor : Nat) : Fin 17 := Fin.ofNat 17 (min 16 (stream.length - cursor))

/-- The window at the cursor, nybble 0 least significant; above `avail` it is 0, which no call reads (R113, R127). -/
def windowAt (stream : NybbleStream) (cursor : Nat) : Container :=
  BitVec.ofNat 64 (nybblesToNat ((stream.drop cursor).take 16))

/-- The consumer's loop (R116), with at most `fuel` calls: the outcomes and the cursor it ends with. It stops at the end of the
stream and at a fault. -/
def consumerLoop (stream : NybbleStream) : Nat → Nat → List DecodeOutcome × Nat
  | 0, cursor => ([], cursor)
  | fuel + 1, cursor =>
    if cursor < stream.length then
      match decodeOutcome stream cursor with
      | .ok record n =>
        let (os, last) := consumerLoop stream fuel (cursor + n)
        (.ok record n :: os, last)
      | .fault kind => ([.fault kind], cursor)
      | .exhausted => ([.exhausted], cursor)
    else ([], cursor)

/-- The whole stream decoded from index 0: at most `len(s)` calls (R116, R142). -/
def decodeStream (stream : NybbleStream) : List DecodeOutcome × Nat := consumerLoop stream stream.length 0

/-- `G(r)`: the groups of a decoded record in emission order, the data value rebuilt from its fields (R118). -/
def groupsOfRecord (r : DecompressedRecord) : List Group :=
  (if r.seqValid then [.seq r.seq] else [])
    ++ (match reasonOfFlags r with
        | none => []
        | some rr => [.nseq rr])
    ++ (if r.breakpointValid then [.bkpt r.breakpointReason] else [])
    ++ (if r.pcValid then [.data 0 (pcData r.programCounter)]
        else if r.writebackValid then [.data 1 (writebackData r.writebackValue r.writebackRegister)] else [])

/-- The group of an instruction as a decoded record carries it: the payload bits above the field widths are dropped (R59, R109,
R110, R118). A skip, a reserved length and a reserved tag carry none. -/
def groupOfInstr : Instr → List Group
  | .skip => []
  | .seq n => [.seq n]
  | .nseqTrap => [.nseq 0]
  | .nseqRet => [.nseq 1]
  | .nseqJump => [.nseq 2]
  | .nseqBranch => [.nseq 3]
  | .bkpt reason => [.bkpt reason]
  | .dataPc _ data => [.data 0 (pcData (pcOfData data))]
  | .dataWb _ data => [.data 1 (writebackData (valueOfData data) (registerOfData data))]
  | .dataBadlen _ _ => []
  | .rsvd _ => []

/-- The groups of the records that a list of outcomes delivers, flattened (R118). -/
def groupsOfOutcomes (os : List DecodeOutcome) : List Group :=
  os.flatMap fun o =>
    match o with
    | .ok record _ => groupsOfRecord record
    | .fault _ => []
    | .exhausted => []

end Sys2Proof.Machine
end

