-- ==== Sys2Proof/Machine/Breakpoint.lean ====
section
/-!
DEFINITION. The meaning of BKPT: a decode call that starts on a breakpoint group.
-/

namespace Sys2Proof.Machine

/-- BKPT (R104, R107); a stream that ends after the tag takes `TruncatedStream` (R127). -/
def execBkpt (reason : BitVec 4) (s : State) : Host.Outcome State Fault Refusal :=
  runCall (parseBkpt s.mem.stream.length reason (Parse.start s.cursor)) s

end Sys2Proof.Machine
end

