-- ==== Sys2Proof/Machine/Data.lean ====
section
/-!
DEFINITION. The meanings of the data groups: a decode call that starts on one.
-/

namespace Sys2Proof.Machine

/-- DATA.PC (R104, R108, R109); a stream that ends inside the group takes `TruncatedStream` (R127). -/
def execDataPc (pairs : BitVec 3) (data : DataValue) (s : State) : Host.Outcome State Fault Refusal :=
  runCall (parsePc s.mem.stream.length pairs data (Parse.start s.cursor)) s

/-- DATA.WB (R104, R108, R110); a stream that ends inside the group takes `TruncatedStream` (R127). -/
def execDataWb (pairs : BitVec 3) (data : DataValue) (s : State) : Host.Outcome State Fault Refusal :=
  runCall (parseWb s.mem.stream.length pairs data (Parse.start s.cursor)) s

/-- A data header with a reserved length takes `BadDataLength`, whatever `R` is and however many nybbles remain (R108, R128). -/
def execDataBadlen (_r : BitVec 1) (n : BitVec 1) (s : State) : Host.Outcome State Fault Refusal :=
  runCall (parseBadlen s.mem.stream.length n (Parse.start s.cursor)) s

end Sys2Proof.Machine
end

