-- ==== Sys2Proof/Machine/Filler.lean ====
section
/-!
DEFINITION. The meaning of SKIP: a decode call that starts on the filler nybble.
-/

namespace Sys2Proof.Machine

/-- SKIP (R102): the empty record, one nybble consumed; the nybbles after it are not looked at. -/
def execSkip (s : State) : Host.Outcome State Fault Refusal := .next (report (.ok DecompressedRecord.empty 1) s)

end Sys2Proof.Machine
end

