-- ==== Sys2Proof/Machine/Nonsequential.lean ====
section
/-!
DEFINITION. The meanings of the four NSEQ groups: a decode call that starts on one.
-/

namespace Sys2Proof.Machine

/-- NSEQ.TRAP, reason 0 (R104, R106). -/
def execNseqTrap (s : State) : Host.Outcome State Fault Refusal := runCall (.ok (parseNseq 0 (Parse.start s.cursor))) s

/-- NSEQ.RET, reason 1 (R104, R106). -/
def execNseqRet (s : State) : Host.Outcome State Fault Refusal := runCall (.ok (parseNseq 1 (Parse.start s.cursor))) s

/-- NSEQ.JUMP, reason 2 (R104, R106). -/
def execNseqJump (s : State) : Host.Outcome State Fault Refusal := runCall (.ok (parseNseq 2 (Parse.start s.cursor))) s

/-- NSEQ.BRANCH, reason 3 (R104, R106). -/
def execNseqBranch (s : State) : Host.Outcome State Fault Refusal := runCall (.ok (parseNseq 3 (Parse.start s.cursor))) s

end Sys2Proof.Machine
end

