-- ==== Sys2Proof/Machine/Reserved.lean ====
section
/-!
DEFINITION. The meaning of the reserved tag at the first nybble of a decode call.
-/

namespace Sys2Proof.Machine

/-- RSVD (R103, R126, R130): the call takes `ReservedTagEncountered`; both tags alike. -/
def execRsvd (_x : BitVec 1) (s : State) : Host.Outcome State Fault Refusal :=
  .next (report (.fault .reservedTagEncountered) s)

end Sys2Proof.Machine
end

