-- ==== Sys2Proof/Machine/Sequential.lean ====
section
/-!
DEFINITION. The meaning of SEQ: a decode call that starts on a sequential group.
-/

namespace Sys2Proof.Machine

/-- SEQ (R104, R105). -/
def execSeq (n : BitVec 3) (s : State) : Host.Outcome State Fault Refusal :=
  runCall (.ok (parseSeq n (Parse.start s.cursor))) s

end Sys2Proof.Machine
end

