-- ==== Sys2Proof/Machine/Dispatch.lean ====
section
/-!
DEFINITION. One arm per group: the decode call that starts on it.
-/

namespace Sys2Proof.Machine

def exec (i : Instr) (s : State) : Host.Outcome State Fault Refusal :=
  match i with
  | .skip => Sys2Proof.Machine.execSkip s
  | .seq n => Sys2Proof.Machine.execSeq n s
  | .nseqTrap => Sys2Proof.Machine.execNseqTrap s
  | .nseqRet => Sys2Proof.Machine.execNseqRet s
  | .nseqJump => Sys2Proof.Machine.execNseqJump s
  | .nseqBranch => Sys2Proof.Machine.execNseqBranch s
  | .bkpt reason => Sys2Proof.Machine.execBkpt reason s
  | .dataPc pairs data => Sys2Proof.Machine.execDataPc pairs data s
  | .dataWb pairs data => Sys2Proof.Machine.execDataWb pairs data s
  | .dataBadlen r n => Sys2Proof.Machine.execDataBadlen r n s
  | .rsvd x => Sys2Proof.Machine.execRsvd x s

end Sys2Proof.Machine
end

