-- ==== Sys2Proof/Machine/Encoder.lean ====
section
/-!
DEFINITION. The encoder: a PackedRecord to a CompressedRecord (41_encoder.md). A pure function; it has no state (R85).
-/

namespace Sys2Proof.Machine

/-- `n_seq` (R86). -/
def sizeSeq (p : PackedRecord) : Nat := p.seqValid.toNat

/-- `n_nsq` (R86). -/
def sizeNonseq (p : PackedRecord) : Nat := p.nonseqValid.toNat

/-- `n_bk` (R86). -/
def sizeBkpt (p : PackedRecord) : Nat := 2 * p.bkptValid.toNat

/-- `n_dat` (R86). -/
def sizeData (p : PackedRecord) : Nat := p.dataValid.toNat * (2 + 2 * p.compressedDataNumBytes.toNat)

/-- `o_nsq` (R86). -/
def offsetNonseq (p : PackedRecord) : Nat := sizeSeq p

/-- `o_bk` (R86). -/
def offsetBkpt (p : PackedRecord) : Nat := sizeSeq p + sizeNonseq p

/-- `o_dat` (R86). -/
def offsetData (p : PackedRecord) : Nat := sizeSeq p + sizeNonseq p + sizeBkpt p

/-- `total` (R86). -/
def totalNybbles (p : PackedRecord) : Nat := sizeSeq p + sizeNonseq p + sizeBkpt p + sizeData p

/-- Emit `SEQ` at offset 0: the nybble `0SSS` (R87). -/
def emitSeq (p : PackedRecord) : List (Nat × Nybble) := if p.seqValid then [(0, 0b0#1 ++ p.seq)] else []

/-- Emit `NSEQ`: the nybble `10RR` (R88). -/
def emitNonseq (p : PackedRecord) : List (Nat × Nybble) :=
  if p.nonseqValid then [(offsetNonseq p, 0b10#2 ++ p.nonseq)] else []

/-- Emit `BKPT`: the tag `1101`, then the reason (R89). -/
def emitBkpt (p : PackedRecord) : List (Nat × Nybble) :=
  if p.bkptValid then [(offsetBkpt p, 0b1101#4), (offsetBkpt p + 1, p.bkpt)] else []

/-- Emit `DATA`: the tag `1100`, the nybble `RNNN`, then the payload, least significant nybble first (R90). -/
def emitData (p : PackedRecord) : List (Nat × Nybble) :=
  if p.dataValid then
    (offsetData p, 0b1100#4) :: (offsetData p + 1, dataHeader p.dataReason p.compressedDataNumBytes) ::
      (List.range (2 * p.compressedDataNumBytes.toNat)).map fun j => (offsetData p + 2 + j, p.data.extractLsb' (4 * j) 4)
  else []

/-- Every `put(i, v)` of a record, in the fixed emission order (R54, R86). -/
def emissions (p : PackedRecord) : List (Nat × Nybble) := emitSeq p ++ emitNonseq p ++ emitBkpt p ++ emitData p

/-- The container after some puts, every other nybble 0 (R91). -/
def putAll (puts : List (Nat × Nybble)) : Container := puts.foldl (fun d e => putNybble d e.1 e.2) 0

/-- `encode(p)` (R85 to R91). Its meaning is promised under PackedWF only. -/
def encodeRecord (p : PackedRecord) : CompressedRecord :=
  { validNybbleCount := BitVec.ofNat 5 (totalNybbles p), nybbleData := putAll (emissions p) }

/-- `encode` on its domain: a record that fails PackedWF has no result (R95). -/
def encodeCall (p : PackedRecord) : Option CompressedRecord := if packedWF p then some (encodeRecord p) else none

/-- The groups a PackedRecord carries, as instructions in emission order, with the length the hint says (R54, R87 to R90). -/
def instrsOfPacked (p : PackedRecord) : List Instr :=
  (if p.seqValid then [.seq p.seq] else []) ++ (if p.nonseqValid then [nseqOfReason p.nonseq] else [])
    ++ (if p.bkptValid then [.bkpt p.bkpt] else [])
    ++ (if p.dataValid then
          [if p.dataReason = 0 then .dataPc p.compressedDataNumBytes p.data else .dataWb p.compressedDataNumBytes p.data]
        else [])

/-- `G(p)`: the valid groups of a PackedRecord in emission order, with their fields (R118). -/
def groupsOfPacked (p : PackedRecord) : List Group :=
  (if p.seqValid then [.seq p.seq] else []) ++ (if p.nonseqValid then [.nseq p.nonseq] else [])
    ++ (if p.bkptValid then [.bkpt p.bkpt] else []) ++ (if p.dataValid then [.data p.dataReason p.data] else [])

end Sys2Proof.Machine
end

