-- ==== Sys2Proof/Machine/Packer.lean ====
section
/-!
DEFINITION. The packer: one step from a raw record and the pending count to a PackedRecord and the next count (40_packer.md).
-/

namespace Sys2Proof.Machine

/-- A raw record with the inputs that no rule reads taken out: `privilege_mode`, `instruction_word`, and `program_counter`, which
a `PC_PAYLOAD` other than the default alone may read (R12, R83; 92 D32; 93 U11, U12). -/
def loggable (raw : RawTraceRecord) : RawTraceRecord :=
  { raw with privilegeMode := 0, instructionWord := 0, programCounter := 0 }

/-- The parameters of R5 that the environment chose. A logged writeback always retires and is valid; a platform's choice sees
what is loggable, and its address also the program counter (R83). -/
def paramsOf (choice : PolicyChoice) : Params :=
  { wbLogged := fun raw => raw.retireValid && raw.writebackValid &&
      (match choice.wb with
        | .all => true
        | .none => false
        | .platform n => Config.wbPlatform n (loggable raw))
    pcLogged := fun raw =>
      match choice.pc with
      | .always => true
      | .never => false
      | .platform n => Config.pcPlatform n (loggable raw)
    pcPayload := fun raw =>
      match choice.payload with
      | .branchTarget => raw.branchTarget
      | .programCounter => raw.programCounter
      | .platform n => Config.payloadPlatform n { loggable raw with programCounter := raw.programCounter } }

/-- `flush`: the count held before the step is emitted (R68). -/
def packFlush (P : Params) (raw : RawTraceRecord) (pending : BitVec 3) : Bool :=
  pending != 0 && (isInteresting P raw || (isPlain P raw && pending == Config.seqMax))

/-- The next value of `pending_seq` (R69). -/
def packNextPending (P : Params) (raw : RawTraceRecord) (pending : BitVec 3) : BitVec 3 :=
  if isInteresting P raw then 0
  else if isPlain P raw then (if pending = Config.seqMax then 1 else pending + 1)
  else pending

/-- The data group's three values, where there is one: its reason and its value; the program counter first (R72 to R74). -/
def packData (P : Params) (raw : RawTraceRecord) : Option (BitVec 1 × DataValue) :=
  if isPcLogged P raw then some (0, pcData (P.pcPayload raw))
  else if P.wbLogged raw then some (1, writebackData raw.writebackValue raw.writebackRegister)
  else none

/-- The PackedRecord of a step (R68, R70 to R76). -/
def packRecord (P : Params) (raw : RawTraceRecord) (pending : BitVec 3) : PackedRecord :=
  let flush := packFlush P raw pending
  let nsq := isNonsequential raw
  let groups : PackedRecord :=
    { PackedRecord.skip with
      seqValid := flush
      seq := if flush then pending else 0
      nonseqValid := nsq
      nonseq := if nsq then reasonCode raw else 0
      bkptValid := raw.breakpointValid
      bkpt := if raw.breakpointValid then raw.breakpointReason else 0 }
  match packData P raw with
  | none => groups
  | some (reason, data) =>
    { groups with
      dataValid := true
      dataReason := reason
      data := data
      compressedDataNybble := offsetHint flush nsq raw.breakpointValid
      compressedDataNumBytes := minPairs data }

/-- `pack_step` (R65): the PackedRecord and the next count. Its meaning is promised under RawWF only. -/
def packStep (P : Params) (raw : RawTraceRecord) (pending : BitVec 3) : PackedRecord × BitVec 3 :=
  (packRecord P raw pending, packNextPending P raw pending)

/-- `pack_step` on its domain: a record that fails RawWF has no result (R80). -/
def packCall (P : Params) (raw : RawTraceRecord) (pending : BitVec 3) : Option (PackedRecord × BitVec 3) :=
  if rawWF P raw then some (packStep P raw pending) else none

/-- A run of steps in the order the raw records occur: the records packed and the count left pending (R42, R82). A run with a
record that fails RawWF has no result (R80). -/
def packRun (P : Params) : BitVec 3 → List RawTraceRecord → Option (List PackedRecord × BitVec 3)
  | pending, [] => some ([], pending)
  | pending, raw :: rest =>
    match packCall P raw pending with
    | none => none
    | some (p, next) => (packRun P next rest).map fun run => (p :: run.1, run.2)

end Sys2Proof.Machine
end

