-- ==== Sys2Proof/Machine/Agents.lean ====
section
/-!
DEFINITION. The agents of one channel (R138): the producer (packer with encoder), the transport, the consumer, and the
environment that resets; what each does in one step, and which one moves.
-/

namespace Sys2Proof.Machine

/-! ## The consumer -/

/-- One decode call at the cursor (R100, R116). The group at the cursor is fetched and its instruction run; at the end of the
stream the call is `Exhausted` (R101); a group cut short is `TruncatedStream` (R127). A cursor beyond the stream is outside the
contract (93 U17). -/
def consumerCall (s : State) : Host.Outcome State Fault Refusal :=
  if s.mem.stream.length < s.cursor then .refused .cursorPastEnd
  else
    match decodeGroup (s.mem.stream.drop s.cursor) with
    | .ok (i, _) => exec i s
    | .error .exhausted => .next (report .exhausted s)
    | .error .truncated => .next (report (.fault .truncatedStream) s)

/-- One call of the window form on the nybbles at the cursor (R113). -/
def windowCall (s : State) : Host.Outcome State Fault Refusal :=
  if s.mem.stream.length < s.cursor then .refused .cursorPastEnd
  else .next (report (decodeWindow (windowAt s.mem.stream s.cursor) (windowAvail s.mem.stream s.cursor)) s)

/-! ## The producer -/

/-- A write to the stream by its one producer: the first to write a stream is its producer, and another's write is outside the
contract (R138, R147 item 3, R148; 93 U24 `refuse`). That a write which adds no nybble (a skip record, a CompressedRecord of
count 0, an empty stream handed over) makes its caller the producer too, and is refused to another, is a DESIGN CHOICE, log
entry 23: the spec is silent on it. -/
def asProducer (who : Producer) (write : State → Host.Outcome State Fault Refusal) (s : State) :
    Host.Outcome State Fault Refusal :=
  if s.producer = none ∨ s.producer = some who then write (s.setProducer (some who)) else .refused .secondProducer

/-- A CompressedRecord is appended to the stream (R33). -/
def appendRecord (c : CompressedRecord) (s : State) : Host.Outcome State Fault Refusal :=
  match streamAppend s.mem.stream c with
  | none => .refused .compressedNotWellFormed
  | some stream => .next (s.setStream stream)

/-- A PackedRecord is encoded into the container and the container appended (R85, R33). -/
def encodeAndAppend (p : PackedRecord) (s : State) : Host.Outcome State Fault Refusal :=
  match encodeCall p with
  | none => .refused .packedNotWellFormed
  | some c => appendRecord c ((s.setPacked p).setContainer c)

/-- A raw record is packed, encoded and appended, in one atomic step (R65, R85; 92 D2). -/
def presentRaw (raw : RawTraceRecord) (s : State) : Host.Outcome State Fault Refusal :=
  match packCall (paramsOf s.policy) raw s.pendingSeq with
  | none => .refused .rawNotWellFormed
  | some (p, pending) => encodeAndAppend p (s.setPending pending)

/-! ## The transport and the environment -/

/-- The transport inserts one filler between the cursor and the end (R39). What the consumer has passed does not change
(R44). Inside a group the nybble is data of that group (93 U25). -/
def addFiller (pos : Nat) (s : State) : Host.Outcome State Fault Refusal :=
  if s.cursor ≤ pos ∧ pos ≤ s.mem.stream.length then .next (s.setStream (insertFiller s.mem.stream pos))
  else .refused .fillerOutsideUnread

/-- The packer is reset and the stream carried on: the pending count is lost (R140, R143, R145). -/
def resetPacker (s : State) : State := s.setPending 0

/-- The parameters are fixed, the packer reset, an empty stream started that nobody has written, the cursor put at 0 (R147 items
1, 2 and 4, R142, R143). -/
def startStream (choice : PolicyChoice) (s : State) : State :=
  { ((((s.setPending 0).setStream []).setCursor 0).setProducer none) with policy := choice }

/-- The consumer is handed a stream kept elsewhere and starts at its index 0 (R31, R142); its producer is elsewhere too, so a
stream that an agent of this channel writes is not replaced (93 U24). -/
def loadStream (stream : NybbleStream) (s : State) : State := (s.setStream stream).setCursor 0

/-! ## Who moves -/

/-- What one input does; the queue has already lost it. -/
def handleInput (e : Input) (s : State) : Host.Outcome State Fault Refusal :=
  match e with
  | .raw record => asProducer .packer (presentRaw record) s
  | .packed record => asProducer .encodeCaller (encodeAndAppend record) s
  | .compressed record => asProducer .appendCaller (appendRecord record) s
  | .filler pos => addFiller pos s
  | .decode => consumerCall s
  | .decodeWindow => windowCall s
  | .moveCursor pos => resynchronise pos s
  | .resetPacker => .next (resetPacker s)
  | .startStream choice => .next (startStream choice s)
  | .load nybbles => asProducer .elsewhere (fun t => .next (loadStream nybbles t)) s
  | .loadBytes bytes => asProducer .elsewhere (fun t => .next (loadStream (fromBytes bytes) t)) s

/-- One action of one agent: the next input's, or a decode call where no input waits. -/
def agentStep (s : State) : Host.Outcome State Fault Refusal :=
  match s.inputs with
  | [] => consumerCall s
  | e :: rest => handleInput e (s.setInputs rest)

/-- The stream up to the cursor, then the nybbles of an opcode-table word; no input waits, so that the next action is the
decode call that starts on them. -/
def placeWord (nbits w : Nat) (s : State) : State :=
  ((s.setStream (s.mem.stream.take s.cursor ++ tableNybbles nbits w)).setCursor (min s.cursor s.mem.stream.length)).setInputs []

end Sys2Proof.Machine
end

