-- ==== Sys2Proof/Machine/Step.lean ====
section
/-!
DEFINITION. One step of the machine, and the placing of an instruction where the next step fetches it.
-/

namespace Sys2Proof.Machine

/-- One step: one action of one agent of the channel (Machine/Agents.lean). -/
def step (s : State) : Host.Outcome State Fault Refusal := agentStep s

/-- The instruction of an opcode-table word stands where the next step fetches: at the cursor, with no input waiting. -/
def State.withFetchWord (s : State) (nbits w : Nat) : State := placeWord nbits w s

end Sys2Proof.Machine
end

