-- ==== Sys2Proof/Machine/Channels.lean ====
section
/-!
DEFINITION. Several trace channels side by side: each is a `State` of its own, and a step is a step of one of them (R27).
-/

namespace Sys2Proof.Machine

/-- A step of channel `k`: that channel takes its step and no other changes; a channel that is not there takes none (R27). -/
def stepChannel (k : Nat) (channels : List State) : Host.Outcome (List State) Fault Refusal :=
  match channels[k]? with
  | none => .next channels
  | some s =>
    match step s with
    | .next t => .next (channels.set k t)
    | .fault r => .fault r
    | .refused r => .refused r

end Sys2Proof.Machine
end

