-- ==== Sys2Proof/Safety.lean ====
section
/-!
DEFINITION. The terms claims are stated in: what holds of every state a run reaches, where a group or a record begins, what
stands at the cursor, and the streams a producer and a transport can make.
-/

namespace Sys2Proof.Machine

/-- A stream that nobody has written holds fillers alone (R39, R143), and a count is pending only where the packer writes the
stream (R138, R147). -/
def State.producerInv (s : State) : Bool :=
  (s.producer.isSome || s.mem.stream.all fun t => t == 0b0000#4) && (s.pendingSeq == 0 || s.producer == some .packer)

/-- What every step keeps: the cursor is within the stream (R21, R100), the container is in its canonical form (R18, R91), the
record last given to the encoder was well-formed (R81, R95), every outcome returned keeps its promises (R20, R112), and the
stream has one producer (R138, R148). -/
def State.inv (s : State) : Bool :=
  decide (s.cursor ≤ s.mem.stream.length) && s.mem.wf && packedWF s.packed && s.outcomes.all outcomeWF && s.producerInv

/-- A well-formed group stands at an index of the stream. -/
def groupStandsAt (i : Instr) (stream : NybbleStream) (idx : Nat) : Bool := i.wf && (encode i).isPrefixOf (stream.drop idx)

/-- A well-formed group stands at the cursor. -/
def standsAtCursor (i : Instr) (s : State) : Bool := groupStandsAt i s.mem.stream s.cursor

/-- A record whose groups so far have order indices below `stage` ends before this index (R111 cases 1 and 3 to 5): the stream
ends, or a skip or a reserved tag stands there, or a tag whose order index is too low. -/
def recordEndsAt (stream : NybbleStream) (idx stage : Nat) : Bool :=
  match stream[idx]? with
  | none => true
  | some t =>
    match orderIndex (tagClass t) with
    | none => true
    | some o => decide (o < stage)

/-- The stage a parse is at after some groups: one above the last order index (R104). -/
def stageAfter (groups : List Instr) : Nat :=
  groups.foldl (fun stage i => match orderIndex i.tagClass with
    | some o => o + 1
    | none => stage) 0

/-- The indices at which groups begin, walking from one by group lengths; the walk's end is the last of them (glossary
"tag-start position", R37). -/
def groupStartsFrom (stream : NybbleStream) : Nat → Nat → List Nat
  | 0, idx => [idx]
  | fuel + 1, idx =>
    match decodeGroup (stream.drop idx) with
    | .ok (i, _) => idx :: groupStartsFrom stream fuel (idx + groupLength i)
    | .error _ => [idx]

/-- The tag-start positions of a stream, its end among them where the last group is whole. -/
def groupStarts (stream : NybbleStream) : List Nat := groupStartsFrom stream stream.length 0

/-- No outcome is a fault, and every one is a record. -/
def allDelivered (os : List DecodeOutcome) : Bool :=
  os.all fun o =>
    match o with
    | .ok _ _ => true
    | .fault _ => false
    | .exhausted => false

/-- The whole stream decodes to its end without a fault. -/
def decodesWhole (stream : NybbleStream) : Bool :=
  allDelivered (decodeStream stream).1 && (decodeStream stream).2 == stream.length

/-- The stream of some records in order, each after a number of fillers, with fillers at the end (R118). -/
def streamOfRecords (records : List (Nat × PackedRecord)) (trailing : Nat) : NybbleStream :=
  records.flatMap (fun r => List.replicate r.1 (0b0000#4) ++ validNybbles (encodeRecord r.2)) ++
    List.replicate trailing (0b0000#4)

/-- The last order index of a record's groups is below the first of the next one's: nothing keeps them apart (R117). -/
def mergesWith (p q : PackedRecord) : Bool := inEmissionOrder 0 (instrsOfPacked p ++ instrsOfPacked q)

/-- The sum of the counts that packed records carry (R82). -/
def emittedCounts (ps : List PackedRecord) : Nat := (ps.map fun p => if p.seqValid then p.seq.toNat else 0).sum

/-- Two raw records differ at most in the inputs that no rule reads under any parameters (R12, R83). -/
def sameButUnread (a b : RawTraceRecord) : Prop :=
  a = { b with privilegeMode := a.privilegeMode, instructionWord := a.instructionWord }

/-- Two raw records differ at most in the inputs the packer ignores under the default parameters (R83). -/
def sameButIgnored (a b : RawTraceRecord) : Prop :=
  a = { b with privilegeMode := a.privilegeMode, instructionWord := a.instructionWord, programCounter := a.programCounter }

end Sys2Proof.Machine
end

