-- ==== Sys2Proof/Certificates/Slice0/Obligations.lean ====
section
/-!
DEFINITION. The statements for the provers: the format, the decode call and its instructions, the packer, the encoder, the
stream and its environment, the invariant. Each docstring names the rule it formalises.
-/

open Sys2Proof Sys2Proof.Machine

/-! ## The format -/

/-- R45 to R53: decoding the nybbles of any well-formed group, whatever follows them, gives the group and what follows. -/
def Obligations.DecodeInvertsEncode : Prop :=
  ∀ (i : Instr) (rest : List Nybble), i.wf = true → decodeGroup (encode i ++ rest) = .ok (i, rest)

/-- R45 to R53: whatever nybbles decode to a group are that group's encoding and what was left; a decoded group is well-formed. -/
def Obligations.EncodeInvertsDecode : Prop :=
  ∀ (nybbles rest : List Nybble) (i : Instr),
    decodeGroup nybbles = .ok (i, rest) → i.wf = true ∧ encode i ++ rest = nybbles

/-- Some words of 30_encoding.md and 95_test_vectors.md, written out, decode to the groups they stand for. -/
def Obligations.WrittenWordsDecode : Prop :=
  decodeGroup [0b0000#4] = .ok (.skip, []) ∧
    decodeGroup [0b0011#4] = .ok (.seq 3, []) ∧
    decodeGroup [0b1001#4] = .ok (.nseqRet, []) ∧
    decodeGroup [0b1101#4, 0b1110#4] = .ok (.bkpt 14, []) ∧
    decodeGroup [0b1100#4, 0b0010#4, 0b0000#4, 0b0000#4, 0b0000#4, 0b0001#4] = .ok (.dataPc 2 0x1000, []) ∧
    decodeGroup [0b1100#4, 0b1010#4, 0b1010#4, 0b0100#4, 0b0101#4, 0b0000#4] = .ok (.dataWb 2 0x54A, []) ∧
    decodeGroup [0b1100#4, 0b1110#4] = .ok (.dataBadlen 1 0, []) ∧
    decodeGroup [0b1111#4] = .ok (.rsvd 1, [])

/-- R45: the class of each of the sixteen tag nybbles, and the length in nybbles of a group of each class that has one. That the
bit `R` of a data header is 0 for a program counter and 1 for a writeback (R51) is the spec's own decision 92 D8, log entry 14. -/
def Obligations.TagNybbleDecidesClassAndLength : Prop :=
  (∀ t : Nybble, tagClass t =
      if t = 0 then .skip
      else if t.toNat ≤ 7 then .seq
      else if t.toNat ≤ 11 then .nseq
      else if t = 12 then .data
      else if t = 13 then .bkpt
      else .rsvd) ∧
    ∀ (t : Nybble) (rest after : List Nybble) (i : Instr), decodeGroup (t :: rest) = .ok (i, after) →
      i.tagClass = tagClass t ∧
        (tagClass t = .skip ∨ tagClass t = .seq ∨ tagClass t = .nseq → rest.length = after.length) ∧
        (tagClass t = .bkpt → rest.length = 1 + after.length) ∧
        (∀ header tail, tagClass t = .data → rest = header :: tail → (header.extractLsb' 0 3 : BitVec 3).toNat ≤ 5 →
          rest.length = 1 + 2 * (header.extractLsb' 0 3 : BitVec 3).toNat + after.length ∧
            i.opcode = if header.extractLsb' 3 1 = 0#1 then .dataPc else .dataWb)

/-- R61: every word of two nybbles matches exactly one row of the opcode table, and the decoder reads that row's instruction
from it. -/
def Obligations.OpcodeRowsPartitionWords : Prop :=
  ∀ w : BitVec 8, ∃ o, matchingRows w = [o] ∧ (decodeTableWord 8 w.toNat).map Instr.opcode = some o

/-- R52: the payload of a data group with a legal length, of either reason, is its data value, nybble by nybble, least
significant first, and every bit above the payload is 0. -/
def Obligations.PayloadIsLeastSignificantFirst : Prop :=
  ∀ (header : Nybble) (payload rest : List Nybble),
    (header.extractLsb' 0 3 : BitVec 3).toNat ≤ 5 → payload.length = 2 * (header.extractLsb' 0 3 : BitVec 3).toNat →
    ∃ data : DataValue,
      (decodeGroup (0b1100#4 :: header :: (payload ++ rest)) = .ok (.dataPc (header.extractLsb' 0 3) data, rest) ∨
          decodeGroup (0b1100#4 :: header :: (payload ++ rest)) = .ok (.dataWb (header.extractLsb' 0 3) data, rest)) ∧
      (∀ j, j < payload.length → payload[j]? = some (data.extractLsb' (4 * j) 4)) ∧
      (∀ b, 4 * payload.length ≤ b → data.getLsbD b = false)

/-- R60: the forms without a length stand for the forms with the least legal length, and these are well-formed groups. -/
def Obligations.PseudoFormsTakeLeastLength : Prop :=
  (∀ v : BitVec 32, (asmDataPc v).wf = true ∧
      ∃ k, asmDataPc v = asmDataPcK k v ∧ ∀ j, (asmDataPcK j v).wf = true → k.toNat ≤ j.toNat) ∧
    ∀ (rd : BitVec 5) (v : BitVec 32), (asmDataWb rd v).wf = true ∧
      ∃ k, asmDataWb rd v = asmDataWbK k rd v ∧ ∀ j, (asmDataWbK j rd v).wf = true → k.toNat ≤ j.toNat

/-! ## The instructions: where each completes and what it leaves -/

/-- R102: SKIP delivers the empty record and takes one nybble, whatever follows, in the instruction and in the decoder. -/
def Obligations.SkipDeliversEmptyRecord : Prop :=
  (∀ s : State, exec .skip s =
      .next { s with cursor := s.cursor + 1, outcomes := s.outcomes ++ [.ok DecompressedRecord.empty 1] }) ∧
    ∀ (stream : NybbleStream) (c : Nat), stream[c]? = some 0b0000#4 →
      decodeCall stream c = some (.ok DecompressedRecord.empty 1)

/-- R105: a nybble 1 to 7 is parsed as SEQ: bits 2 to 0 are the count, 1 to 7; the instruction sets the count of the record
being parsed and takes one nybble, without a fault; where the record ends after it, the call delivers the count alone. -/
def Obligations.SeqDeliversItsCount : Prop :=
  (∀ (len : Nat) (n : BitVec 3) (p : Parse),
      applyGroup len (.seq n) p =
        .ok { record := { p.record with seqValid := true, seq := n }, idx := p.idx + 1, stage := 1 }) ∧
    (∀ (stream : NybbleStream) (p : Parse) (t : Nybble), stream[p.idx]? = some t → 1 ≤ t.toNat → t.toNat ≤ 7 →
      parseGroup stream p =
          .ok { record := { p.record with seqValid := true, seq := t.extractLsb' 0 3 }, idx := p.idx + 1, stage := 1 } ∧
        1 ≤ (t.extractLsb' 0 3 : BitVec 3).toNat) ∧
    ∀ (s : State) (n : BitVec 3), recordEndsAt s.mem.stream (s.cursor + 1) 1 = true →
      exec (.seq n) s =
        .next { s with
          cursor := s.cursor + 1
          outcomes := s.outcomes ++ [.ok { DecompressedRecord.empty with seqValid := true, seq := n } 1] }

/-- R106: a nybble `10RR` is parsed as NSEQ; each NSEQ group sets exactly its own flag of the record being parsed and takes one
nybble, without a fault; where the record ends after it, the call delivers that one flag. That one flag only is set, and the
numbers of the reasons (R49), are the spec's own decisions 92 D22 and D7, log entry 14. -/
def Obligations.NseqDeliversOneFlag : Prop :=
  (∀ (len : Nat) (p : Parse),
      applyGroup len .nseqTrap p = .ok { record := { p.record with trap := true }, idx := p.idx + 1, stage := 2 } ∧
        applyGroup len .nseqRet p = .ok { record := { p.record with isReturn := true }, idx := p.idx + 1, stage := 2 } ∧
        applyGroup len .nseqJump p =
          .ok { record := { p.record with isIndirectJump := true }, idx := p.idx + 1, stage := 2 } ∧
        applyGroup len .nseqBranch p =
          .ok { record := { p.record with branchTaken := true }, idx := p.idx + 1, stage := 2 }) ∧
    (∀ (stream : NybbleStream) (p : Parse) (rr : BitVec 2), stream[p.idx]? = some (0b10#2 ++ rr) →
      parseGroup stream p =
        .ok { record :=
                if rr = 0 then { p.record with trap := true }
                else if rr = 1 then { p.record with isReturn := true }
                else if rr = 2 then { p.record with isIndirectJump := true }
                else { p.record with branchTaken := true }
              idx := p.idx + 1
              stage := 2 }) ∧
    ∀ s : State, recordEndsAt s.mem.stream (s.cursor + 1) 2 = true →
      exec .nseqTrap s =
          .next { s with cursor := s.cursor + 1,
                         outcomes := s.outcomes ++ [.ok { DecompressedRecord.empty with trap := true } 1] } ∧
        exec .nseqRet s =
          .next { s with cursor := s.cursor + 1,
                         outcomes := s.outcomes ++ [.ok { DecompressedRecord.empty with isReturn := true } 1] } ∧
        exec .nseqJump s =
          .next { s with cursor := s.cursor + 1,
                         outcomes := s.outcomes ++ [.ok { DecompressedRecord.empty with isIndirectJump := true } 1] } ∧
        exec .nseqBranch s =
          .next { s with cursor := s.cursor + 1,
                         outcomes := s.outcomes ++ [.ok { DecompressedRecord.empty with branchTaken := true } 1] }

/-- R107: a nybble `1101` is parsed as BKPT, the next nybble as its reason; the instruction sets the reason of the record being
parsed, whatever its value, and takes two nybbles, or is `TruncatedStream` where its reason nybble is missing; where the record
ends after it, the call delivers the reason alone; a call, and a step with no input waiting (the model's choice, log entry 2), on
a tag at the end of the stream is `TruncatedStream`, and nothing else changes, as for the instruction itself on a stream too
short for it, though no step runs it there (the model's choice, log entry 11). That the whole call fails is the spec's own
decision 92 D19, log entry 14. -/
def Obligations.BkptDeliversItsReason : Prop :=
  (∀ (len : Nat) (reason : BitVec 4) (p : Parse),
      applyGroup len (.bkpt reason) p =
        if len ≤ p.idx + 1 then .error .truncatedStream
        else .ok { record := { p.record with breakpointValid := true, breakpointReason := reason }, idx := p.idx + 2,
                   stage := 3 }) ∧
    (∀ (stream : NybbleStream) (p : Parse), stream[p.idx]? = some 0b1101#4 →
      parseGroup stream p =
        match stream[p.idx + 1]? with
        | none => .error .truncatedStream
        | some reason =>
          .ok { record := { p.record with breakpointValid := true, breakpointReason := reason }, idx := p.idx + 2,
                stage := 3 }) ∧
    ∀ (s : State) (reason : BitVec 4),
      (s.cursor + 2 ≤ s.mem.stream.length → recordEndsAt s.mem.stream (s.cursor + 2) 3 = true →
        exec (.bkpt reason) s =
          .next { s with
            cursor := s.cursor + 2
            outcomes := s.outcomes ++
              [.ok { DecompressedRecord.empty with breakpointValid := true, breakpointReason := reason } 2] }) ∧
        (s.mem.stream.length ≤ s.cursor + 1 →
          exec (.bkpt reason) s = .next { s with outcomes := s.outcomes ++ [.fault .truncatedStream] }) ∧
        (s.mem.stream[s.cursor]? = some 0b1101#4 → s.mem.stream.length = s.cursor + 1 →
          consumerCall s = .next { s with outcomes := s.outcomes ++ [.fault .truncatedStream] } ∧
            (s.inputs = [] → step s = .next { s with outcomes := s.outcomes ++ [.fault .truncatedStream] }))

/-- R109: DATA.PC sets bits 31 to 0 of its value as the program counter of the record being parsed and drops the rest; whole in
the stream, it ends the record and takes its length. -/
def Obligations.DataPcDeliversProgramCounter : Prop :=
  (∀ (len : Nat) (pairs : BitVec 3) (data : DataValue) (p : Parse), pairs.toNat ≤ 5 → p.idx + 2 + 2 * pairs.toNat ≤ len →
      ∃ p', applyGroup len (.dataPc pairs data) p = .ok p' ∧
        p'.record = { p.record with pcValid := true, programCounter := data.extractLsb' 0 32 } ∧
        p'.idx = p.idx + 2 + 2 * pairs.toNat) ∧
  ∀ (s : State) (pairs : BitVec 3) (data : DataValue), pairs.toNat ≤ 5 →
    s.cursor + 2 + 2 * pairs.toNat ≤ s.mem.stream.length →
    exec (.dataPc pairs data) s =
      .next { s with
        cursor := s.cursor + (2 + 2 * pairs.toNat)
        outcomes := s.outcomes ++
          [.ok { DecompressedRecord.empty with pcValid := true, programCounter := data.extractLsb' 0 32 }
            (2 + 2 * pairs.toNat)] }

/-- R110: DATA.WB sets bits 4 to 0 of its value as the register and bits 36 to 5 as the value of the record being parsed and
drops the rest; whole in the stream, it ends the record and takes its length. That the register stands in the low five bits
(R53) is the spec's own decision 92 D9, log entry 14. -/
def Obligations.DataWbDeliversRegisterAndValue : Prop :=
  (∀ (len : Nat) (pairs : BitVec 3) (data : DataValue) (p : Parse), pairs.toNat ≤ 5 → p.idx + 2 + 2 * pairs.toNat ≤ len →
      ∃ p', applyGroup len (.dataWb pairs data) p = .ok p' ∧
        p'.record = { p.record with writebackValid := true, writebackRegister := data.extractLsb' 0 5,
                                    writebackValue := data.extractLsb' 5 32 } ∧
        p'.idx = p.idx + 2 + 2 * pairs.toNat) ∧
  ∀ (s : State) (pairs : BitVec 3) (data : DataValue), pairs.toNat ≤ 5 →
    s.cursor + 2 + 2 * pairs.toNat ≤ s.mem.stream.length →
    exec (.dataWb pairs data) s =
      .next { s with
        cursor := s.cursor + (2 + 2 * pairs.toNat)
        outcomes := s.outcomes ++
          [.ok { DecompressedRecord.empty with
                  writebackValid := true
                  writebackRegister := data.extractLsb' 0 5
                  writebackValue := data.extractLsb' 5 32 }
            (2 + 2 * pairs.toNat)] }

/-- R127, second and third place: a call, and a step with no input waiting (the model's choice, log entry 2), on a DATA tag
whose header is missing, or whose payload of a legal length runs past the end, is `TruncatedStream`, and nothing else changes.
The instruction itself, on a stream too short for it, does the same, though no step runs it there (the model's choice, log
entry 11). That the whole call fails is the spec's own decision 92 D19, log entry 14. -/
def Obligations.ShortDataGroupIsTruncated : Prop :=
  (∀ s : State, s.mem.stream[s.cursor]? = some 0b1100#4 →
      (s.mem.stream.length = s.cursor + 1 ∨
        ∃ header, s.mem.stream[s.cursor + 1]? = some header ∧ (header.extractLsb' 0 3 : BitVec 3).toNat ≤ 5 ∧
          s.mem.stream.length < s.cursor + 2 + 2 * (header.extractLsb' 0 3 : BitVec 3).toNat) →
      consumerCall s = .next { s with outcomes := s.outcomes ++ [.fault .truncatedStream] } ∧
        (s.inputs = [] → step s = .next { s with outcomes := s.outcomes ++ [.fault .truncatedStream] })) ∧
    ∀ (s : State) (pairs : BitVec 3) (data : DataValue), pairs.toNat ≤ 5 →
      s.mem.stream.length < s.cursor + 2 + 2 * pairs.toNat →
      exec (.dataPc pairs data) s = .next { s with outcomes := s.outcomes ++ [.fault .truncatedStream] } ∧
        exec (.dataWb pairs data) s = .next { s with outcomes := s.outcomes ++ [.fault .truncatedStream] }

/-- R128: a DATA header with a reserved length is `BadDataLength` as soon as it is read, whatever `R` is and however few nybbles
follow it, at the first group of a call and at a later one; nothing else changes; the encoder never emits such a length. -/
def Obligations.ReservedLengthIsBadDataLength : Prop :=
  (∀ (s : State) (r n : BitVec 1), s.cursor + 2 ≤ s.mem.stream.length →
      exec (.dataBadlen r n) s = .next { s with outcomes := s.outcomes ++ [.fault .badDataLength] }) ∧
    (∀ (stream : NybbleStream) (p : Parse) (header : Nybble), stream[p.idx]? = some 0b1100#4 →
      stream[p.idx + 1]? = some header → 6 ≤ (header.extractLsb' 0 3 : BitVec 3).toNat →
      parseGroup stream p = .error .badDataLength) ∧
    (∀ (stream : NybbleStream) (c : Nat) (header : Nybble), stream[c]? = some 0b1100#4 → stream[c + 1]? = some header →
      6 ≤ (header.extractLsb' 0 3 : BitVec 3).toNat → decodeCall stream c = some (.fault .badDataLength)) ∧
    ∀ (p : PackedRecord) (i : Instr), packedWF p = true → i ∈ instrsOfPacked p → i.wf = true ∧ i.opcode ≠ .dataBadlen

/-- R103: a reserved tag at the first nybble is `ReservedTagEncountered`, for both tags, and nothing is consumed. -/
def Obligations.ReservedTagIsAFault : Prop :=
  (∀ (s : State) (x : BitVec 1),
      exec (.rsvd x) s = .next { s with outcomes := s.outcomes ++ [.fault .reservedTagEncountered] }) ∧
    ∀ (stream : NybbleStream) (c : Nat) (t : Nybble), stream[c]? = some t → t.extractLsb' 1 3 = 0b111#3 →
      decodeCall stream c = some (.fault .reservedTagEncountered)

/-- Whatever follows it, the group a call starts on is in the record the call delivers (R104 to R107); or the call reports the
fault that a later group of that record takes: groups in emission order stand after the first, and behind them, where the record
does not end, stands the group that is cut or has a reserved length. -/
def Obligations.FirstGroupIsInTheRecord : Prop :=
  ∀ (i : Instr) (s : State),
    ((∃ n, i = .seq n) ∨ i = .nseqTrap ∨ i = .nseqRet ∨ i = .nseqJump ∨ i = .nseqBranch ∨
        (∃ reason, i = .bkpt reason ∧ s.cursor + 2 ≤ s.mem.stream.length)) →
    ∃ o, exec i s = .next (report o s) ∧
      ((∃ r n later, o = .ok r n ∧ groupsOfRecord r = groupOfInstr i ++ later ∧ groupLength i ≤ n) ∨
        ∃ (k : Fault) (later : List Instr) (p : Parse), o = .fault k ∧ (k = .truncatedStream ∨ k = .badDataLength) ∧
          inEmissionOrder 0 (i :: later) = true ∧
          later.flatMap encode <+: s.mem.stream.drop (s.cursor + groupLength i) ∧
          p.idx = s.cursor + groupLength i + (later.map groupLength).sum ∧ p.stage = stageAfter (i :: later) ∧
          recordEndsAt s.mem.stream p.idx p.stage = false ∧ parseGroup s.mem.stream p = .error k)

/-- The frame of all eleven instructions: a decode call changes the cursor by what it reports consumed and adds its outcome; the
packer's register, every nybble of the stream and of the container, the count, the packed record, the inputs, the producer and
the policy stay (R10, R40, R130). -/
def Obligations.InstructionsChangeOnlyCursorAndOutcomes : Prop :=
  ∀ (i : Instr) (s t : State), exec i s = .next t →
    t.pendingSeq = s.pendingSeq ∧
      (∀ j, readStream t j = readStream s j) ∧
      (∀ j, readContainer t j = readContainer s j) ∧
      t.mem.container.validNybbleCount = s.mem.container.validNybbleCount ∧
      t.packed = s.packed ∧ t.inputs = s.inputs ∧ t.producer = s.producer ∧ t.policy = s.policy ∧
      ∃ o, t.outcomes = s.outcomes ++ [o] ∧ t.cursor = s.cursor + o.consumed

/-- Every instruction, on every state, answers a next state, and no step of the machine stops with a fault: a decode call always
returns, and a fault is a returned value (R120, R131, R132). -/
def Obligations.EveryInstructionAnswersNext : Prop :=
  (∀ (i : Instr) (s : State), ∃ t, exec i s = .next t) ∧ ∀ (s : State) (k : Fault), step s ≠ .fault k

/-! ## The decode call -/

/-- A step runs the decoded instruction: where a group stands at the cursor, a step with no input waiting, or whose input is a
decode call, is the instruction run on the state without that input (that the consumer calls when no input waits is the model's
choice, log entry 2). -/
def Obligations.StepRunsTheDecodedInstruction : Prop :=
  ∀ (s : State) (i : Instr) (rest : List Nybble), s.cursor ≤ s.mem.stream.length →
    decodeGroup (s.mem.stream.drop s.cursor) = .ok (i, rest) →
    (s.inputs = [] → step s = exec i s) ∧
      (∀ q, s.inputs = .decode :: q → step s = exec i { s with inputs := q })

/-- R101: at the end of the stream the call is `Exhausted`, and nothing is consumed; the spec's own decision 92 D21, log
entry 14. -/
def Obligations.EndOfStreamIsExhausted : Prop :=
  (∀ stream : NybbleStream, decodeCall stream stream.length = some .exhausted) ∧
    ∀ s : State, s.cursor = s.mem.stream.length →
      consumerCall s = .next { s with outcomes := s.outcomes ++ [.exhausted] }

/-- Running the instruction that stands at the cursor is the decode call of R100 to R112, reported as R116 says. That an
instruction is one group, and running it the whole call, is log entry 1 (DEDUCED, from the mapping of 00_scope.md section 1, the
spec's own decision 92 D28). -/
def Obligations.InstructionIsTheDecodeCall : Prop :=
  ∀ (i : Instr) (s : State), standsAtCursor i s = true →
    ∃ o, decodeCall s.mem.stream s.cursor = some o ∧ exec i s = .next (report o s)

/-- The step refines the decoder of 42_decoder.md: with no input waiting (the model's choice, log entry 2) it reports the outcome
of `decode(stream, cursor)`, and it has no meaning exactly where that call has none. -/
def Obligations.StepRefinesTheDecoder : Prop :=
  ∀ s : State, s.inputs = [] →
    step s =
      match decodeCall s.mem.stream s.cursor with
      | some o => .next (report o s)
      | none => .refused .cursorPastEnd

/-- R130: a decode call that faults delivers nothing, consumes nothing and changes nothing but the list of outcomes, even when
groups were parsed before the fault; the same call again gives the same fault. That the whole call fails is the spec's own
decision 92 D19, log entry 14. -/
def Obligations.FaultChangesNothing : Prop :=
  ∀ (s : State) (k : Fault), decodeCall s.mem.stream s.cursor = some (.fault k) →
    ∃ t, consumerCall s = .next t ∧ t = { s with outcomes := s.outcomes ++ [.fault k] } ∧
      consumerCall t = .next { s with outcomes := s.outcomes ++ [.fault k, .fault k] }

/-- R126: a call reports `ReservedTagEncountered` when, and only when, its first nybble is `1110` or `1111`; met after a group,
the tag ends the record without a fault; the encoder never emits it. That it ends a record it is met in (R111 case 5) is the
spec's own decision 92 D17, log entry 14. -/
def Obligations.ReservedTagOnlyAtFirstNybble : Prop :=
  (∀ (stream : NybbleStream) (c : Nat),
      decodeCall stream c = some (.fault .reservedTagEncountered) ↔
        ∃ t, stream[c]? = some t ∧ t.extractLsb' 1 3 = 0b111#3) ∧
    (∀ (stream : NybbleStream) (fuel : Nat) (p : Parse) (t : Nybble), stream[p.idx]? = some t →
      t.extractLsb' 1 3 = 0b111#3 → parseLoop stream fuel p = .ok p) ∧
    ∀ (p : PackedRecord) (x : BitVec 1), packedWF p = true → Instr.rsvd x ∉ instrsOfPacked p

/-- R127: a group of a parse is `TruncatedStream` exactly where the stream ends inside it: a BKPT without its reason, a DATA
without its header, a DATA of a legal length without all its payload; a call reports it only where such a group stands among
the nybbles it reads; and a call whose groups, in emission order, lead to such a group in the same record reports it, as does
one that starts on it. -/
def Obligations.TruncationHasThreePlaces : Prop :=
  ∀ (stream : NybbleStream) (c : Nat),
    let cutAt := fun i : Nat =>
      (stream[i]? = some 0b1101#4 ∧ stream.length ≤ i + 1) ∨
        (stream[i]? = some 0b1100#4 ∧ stream.length ≤ i + 1) ∨
        (stream[i]? = some 0b1100#4 ∧ ∃ header, stream[i + 1]? = some header ∧
          (header.extractLsb' 0 3 : BitVec 3).toNat ≤ 5 ∧
          stream.length < i + 2 + 2 * (header.extractLsb' 0 3 : BitVec 3).toNat)
    (∀ p : Parse, p.idx < stream.length → (parseGroup stream p = .error .truncatedStream ↔ cutAt p.idx)) ∧
      (decodeCall stream c = some (.fault .truncatedStream) → ∃ i, c ≤ i ∧ i ≤ c + 4 ∧ cutAt i) ∧
      (∀ groups : List Instr, inEmissionOrder 0 groups = true →
        (∀ i ∈ groups, i.wf = true ∧ i.opcode ≠ .dataBadlen) → groups.flatMap encode <+: stream.drop c →
        recordEndsAt stream (c + (groups.map groupLength).sum) (stageAfter groups) = false →
        cutAt (c + (groups.map groupLength).sum) → decodeCall stream c = some (.fault .truncatedStream)) ∧
      (cutAt c → decodeCall stream c = some (.fault .truncatedStream))

/-- R20: every record the decoder returns is well-formed, and the call took 1 to 16 nybbles of the stream (R100, R112). R20 is
the spec's own inference, with its decision 92 D22, log entry 14. -/
def Obligations.DecodedRecordsAreWellFormed : Prop :=
  ∀ (stream : NybbleStream) (c : Nat) (r : DecompressedRecord) (n : Nat), decodeCall stream c = some (.ok r n) →
    decompressedWF r = true ∧ 1 ≤ n ∧ n ≤ 16 ∧ c + n ≤ stream.length

/-- R104, R111, R112: what a call that delivers a record consumed is a skip, or the encodings of groups in emission order, as
many as stand there, and the record holds exactly these groups. Where a record ends (R111) is the spec's own decision 92 D17,
log entry 14. -/
def Obligations.RecordIsTheGreedyCut : Prop :=
  ∀ (stream : NybbleStream) (c : Nat) (r : DecompressedRecord) (n : Nat), decodeCall stream c = some (.ok r n) →
    (stream[c]? = some 0b0000#4 ∧ r = DecompressedRecord.empty ∧ n = 1) ∨
      ∃ groups : List Instr, groups ≠ [] ∧ inEmissionOrder 0 groups = true ∧
        (∀ i ∈ groups, i.wf = true ∧ i.opcode ≠ .dataBadlen) ∧
        (stream.drop c).take n = groups.flatMap encode ∧
        n = (groups.map groupLength).sum ∧
        groupsOfRecord r = groups.flatMap groupOfInstr ∧
        recordEndsAt stream (c + n) (stageAfter groups) = true

/-- R120: for every stream and every cursor within it a call has an outcome, computed from the nybbles from the cursor on
alone. -/
def Obligations.DecodeUsesOnlyWhatFollows : Prop :=
  (∀ (stream : NybbleStream) (c : Nat), c ≤ stream.length → ∃ o, decodeCall stream c = some o) ∧
    ∀ (before stream : NybbleStream) (c : Nat), decodeCall (before ++ stream) (before.length + c) = decodeCall stream c

/-- R113: a window that agrees with the stream on the 16 nybbles from the cursor on, or on as many as there are, gives the same
outcome as the stream; the window form is the spec's own decision 92 D29, log entry 14. -/
def Obligations.WindowFormAgrees : Prop :=
  ∀ (stream : NybbleStream) (c : Nat) (window : Container) (avail : Fin 17), c ≤ stream.length →
    avail.val = min 16 (stream.length - c) → (∀ j, j < avail.val → stream[c + j]? = some (nyb window j)) →
    decodeCall stream c = some (decodeWindow window avail)

/-- R116: the consumer's loop ends after at most `len(s)` calls: at the end of the stream with every call a record, or at a
fault, with the cursor on the record that faults. -/
def Obligations.ConsumerLoopEnds : Prop :=
  ∀ (stream : NybbleStream) (fuel c : Nat), c ≤ stream.length → stream.length - c ≤ fuel →
    let run := consumerLoop stream fuel c
    run.1.length ≤ stream.length - c ∧ c ≤ run.2 ∧ run.2 ≤ stream.length ∧
      ((run.2 = stream.length ∧ allDelivered run.1 = true) ∨
        ∃ os k, run.1 = os ++ [.fault k] ∧ allDelivered os = true ∧ decodeCall stream run.2 = some (.fault k))

/-- R119: a stream of `m` nybbles all `0000` decodes as `m` empty records of one nybble each, the spec's own inference from
R102. -/
def Obligations.SkipsDecodeOneByOne : Prop :=
  ∀ m : Nat, decodeStream (List.replicate m 0b0000#4) =
    (List.replicate m (.ok DecompressedRecord.empty 1), m)

/-- R118: the round trip. The stream of any well-formed records, with any fillers at record boundaries, decodes to its end
without a fault, and the decoded groups, flattened, are the groups written, every field exact. One record alone decodes as one
record. R118 is the spec's own inference from the rules of the decoder and the encoder. -/
def Obligations.RoundTripRecoversEveryGroup : Prop :=
  (∀ (records : List (Nat × PackedRecord)) (trailing : Nat), (∀ r ∈ records, packedWF r.2 = true) →
      decodesWhole (streamOfRecords records trailing) = true ∧
        groupsOfOutcomes (decodeStream (streamOfRecords records trailing)).1 =
          records.flatMap fun r => groupsOfPacked r.2) ∧
    ∀ p : PackedRecord, packedWF p = true → p ≠ PackedRecord.skip →
      ∃ r, decodeCall (validNybbles (encodeRecord p)) 0 =
          some (.ok r (encodeRecord p).validNybbleCount.toNat) ∧
        groupsOfRecord r = groupsOfPacked p

/-- R117: two records whose groups together are in emission order, with nothing between them, decode as one record that holds
both sets; so the first has no data group. -/
def Obligations.AdjacentRecordsMerge : Prop :=
  ∀ p q : PackedRecord, packedWF p = true → packedWF q = true → p ≠ PackedRecord.skip → q ≠ PackedRecord.skip →
    mergesWith p q = true →
    p.dataValid = false ∧
      ∃ r, decodeCall (validNybbles (encodeRecord p) ++ validNybbles (encodeRecord q)) 0 =
          some (.ok r ((encodeRecord p).validNybbleCount.toNat + (encodeRecord q).validNybbleCount.toNat)) ∧
        groupsOfRecord r = groupsOfPacked p ++ groupsOfPacked q

/-- R39: a filler put at a tag-start position of a stream that decodes whole changes no group: the longer stream decodes whole,
and to the same groups. That a filler between two groups of one record is legal and splits it is the spec's own decision 92 D33,
log entry 14. -/
def Obligations.FillerChangesNoGroup : Prop :=
  ∀ (stream : NybbleStream) (pos : Nat), decodesWhole stream = true → pos ∈ groupStarts stream →
    decodesWhole (insertFiller stream pos) = true ∧
      groupsOfOutcomes (decodeStream (insertFiller stream pos)).1 = groupsOfOutcomes (decodeStream stream).1

/-! ## The packer -/

/-- R67: the three kinds of cycle of a well-formed raw record (R80), from its fields, and that it is of exactly one. That the
valid bit of the instruction gates its four flags (R66) is the spec's own decision 92 D3, log entry 14. -/
def Obligations.EveryCycleIsOfOneKind : Prop :=
  ∀ (P : Params) (raw : RawTraceRecord), rawWF P raw = true →
    (isInteresting P raw = true ↔
      (raw.instructionValid = true ∧
          (raw.trap = true ∨ raw.isReturn = true ∨ raw.isIndirectJump = true ∨ raw.branchTaken = true)) ∨
        raw.breakpointValid = true ∨ P.wbLogged raw = true) ∧
      (isPlain P raw = true ↔ raw.instructionValid = true ∧ isInteresting P raw = false) ∧
      (isIdle P raw = true ↔ raw.instructionValid = false ∧ isInteresting P raw = false) ∧
      (isInteresting P raw).toNat + (isPlain P raw).toNat + (isIdle P raw).toNat = 1

/-- R68, R69: what a step on a well-formed raw record (R80) does with the count, for each kind of cycle: the count emitted is the one held before the step. That a
count of 7 is flushed by the next plain cycle and not by the seventh is the spec's own decision 92 D13, log entry 14. -/
def Obligations.CountIsKeptFlushedOrStarted : Prop :=
  ∀ (P : Params) (raw : RawTraceRecord) (pending : BitVec 3), rawWF P raw = true →
    let p := (packStep P raw pending).1
    let next := (packStep P raw pending).2
    (isIdle P raw = true → p.seqValid = false ∧ p.seq = 0 ∧ next = pending) ∧
      (isPlain P raw = true → pending.toNat < 7 →
        p.seqValid = false ∧ p.seq = 0 ∧ next.toNat = pending.toNat + 1) ∧
      (isPlain P raw = true → pending.toNat = 7 → p.seqValid = true ∧ p.seq = 7 ∧ next = 1) ∧
      (isInteresting P raw = true → pending.toNat = 0 → p.seqValid = false ∧ p.seq = 0 ∧ next = 0) ∧
      (isInteresting P raw = true → 0 < pending.toNat → p.seqValid = true ∧ p.seq = pending ∧ next = 0)

/-- R70, R71 with the priority of R66: the nonsequential and breakpoint groups from the flags of a well-formed raw record (R80). The priority and the
gate of R66 are the spec's own decisions 92 D7 and D3, log entry 14. -/
def Obligations.ReasonAndBreakpointFollowTheRecord : Prop :=
  ∀ (P : Params) (raw : RawTraceRecord) (pending : BitVec 3), rawWF P raw = true →
    let p := (packStep P raw pending).1
    (raw.instructionValid = true → raw.trap = true → p.nonseqValid = true ∧ p.nonseq = 0) ∧
      (raw.instructionValid = true → raw.trap = false → raw.isReturn = true → p.nonseqValid = true ∧ p.nonseq = 1) ∧
      (raw.instructionValid = true → raw.trap = false → raw.isReturn = false → raw.isIndirectJump = true →
        p.nonseqValid = true ∧ p.nonseq = 2) ∧
      (raw.instructionValid = true → raw.trap = false → raw.isReturn = false → raw.isIndirectJump = false →
        raw.branchTaken = true → p.nonseqValid = true ∧ p.nonseq = 3) ∧
      (raw.instructionValid = false ∨
          (raw.trap = false ∧ raw.isReturn = false ∧ raw.isIndirectJump = false ∧ raw.branchTaken = false) →
        p.nonseqValid = false ∧ p.nonseq = 0) ∧
      (raw.breakpointValid = true → p.bkptValid = true ∧ p.bkpt = raw.breakpointReason) ∧
      (raw.breakpointValid = false → p.bkptValid = false ∧ p.bkpt = 0)

/-- R72, R73, R74: the data group of a well-formed raw record: the destination, or the writeback, or none and all zero. Which
address is logged, and where the register stands, are the spec's own decisions 92 D6 and D9, log entry 14. -/
def Obligations.DataGroupFollowsTheRecord : Prop :=
  ∀ (P : Params) (raw : RawTraceRecord) (pending : BitVec 3), rawWF P raw = true →
    let p := (packStep P raw pending).1
    (isNonsequential raw = true → P.pcLogged raw = true →
        p.dataValid = true ∧ p.dataReason = 0 ∧ p.data.toNat = (P.pcPayload raw).toNat) ∧
      (P.wbLogged raw = true →
        p.dataValid = true ∧ p.dataReason = 1 ∧
          p.data.toNat = raw.writebackValue.toNat * 32 + raw.writebackRegister.toNat) ∧
      ((isNonsequential raw = false ∨ P.pcLogged raw = false) → P.wbLogged raw = false →
        p.dataValid = false ∧ p.dataReason = 0 ∧ p.data = 0 ∧ p.compressedDataNybble = 0 ∧ p.compressedDataNumBytes = 0)

/-- R75: for a well-formed raw record (R80), the length hint is the least number of pairs that holds the value; an address never needs five, and a writeback needs
five exactly from a value of `2^27` on. That the hint counts pairs is the spec's own decision 92 D10, log entry 14. -/
def Obligations.LengthHintIsLeast : Prop :=
  ∀ (P : Params) (raw : RawTraceRecord) (pending : BitVec 3), rawWF P raw = true →
    let p := (packStep P raw pending).1
    p.dataValid = true →
      p.compressedDataNumBytes.toNat ≤ 5 ∧
        p.data.toNat < 2 ^ (8 * p.compressedDataNumBytes.toNat) ∧
        (∀ k, k < p.compressedDataNumBytes.toNat → 2 ^ (8 * k) ≤ p.data.toNat) ∧
        (p.dataReason = 0 → p.compressedDataNumBytes.toNat ≤ 4) ∧
        (p.dataReason = 1 → (p.compressedDataNumBytes.toNat = 5 ↔ 2 ^ 27 ≤ raw.writebackValue.toNat))

/-- R76: for a well-formed raw record (R80), the offset hint is the container index of the first payload nybble, 2 to 6, and the encoder's own offset; the spec's
own decision 92 D11, log entry 14. -/
def Obligations.OffsetHintIsTheEncodersOffset : Prop :=
  ∀ (P : Params) (raw : RawTraceRecord) (pending : BitVec 3), rawWF P raw = true →
    let p := (packStep P raw pending).1
    p.dataValid = true →
      p.compressedDataNybble.toNat = p.seqValid.toNat + p.nonseqValid.toNat + 2 * p.bkptValid.toNat + 2 ∧
        2 ≤ p.compressedDataNybble.toNat ∧ p.compressedDataNybble.toNat ≤ 6 ∧
        p.compressedDataNybble.toNat = offsetData p + 2

/-- R81: what the packer makes of a well-formed raw record is well-formed, of minimal length, and the skip record exactly when
the cycle is idle or a plain one that does not flush. R81 is the spec's own inference from R68 to R76. -/
def Obligations.PackerOutputIsWellFormed : Prop :=
  ∀ (P : Params) (raw : RawTraceRecord) (pending : BitVec 3), rawWF P raw = true →
    let p := (packStep P raw pending).1
    packedWF p = true ∧
      (p.compressedDataNumBytes = 0 ∨ 2 ^ (8 * (p.compressedDataNumBytes.toNat - 1)) ≤ p.data.toNat) ∧
      (packStep P raw pending).2.toNat ≤ 7 ∧
      (p = PackedRecord.skip ↔ isIdle P raw = true ∨ (isPlain P raw = true ∧ pending.toNat < 7))

/-- R82: over any run of well-formed raw records (R80) from a count of 0, the counts emitted and the count left are together the
plain cycles of the run, the spec's own inference from R68 and R69; a run with a malformed record has no result. -/
def Obligations.RetirementsAreConserved : Prop :=
  ∀ (P : Params) (raws : List RawTraceRecord),
    ((∀ raw ∈ raws, rawWF P raw = true) →
      ∃ ps last, packRun P 0 raws = some (ps, last) ∧ ps.length = raws.length ∧
        emittedCounts ps + last.toNat = (raws.filter fun raw => isPlain P raw).length) ∧
      ∀ (pending : BitVec 3) (raw : RawTraceRecord), raw ∈ raws → rawWF P raw = false → packRun P pending raws = none

/-- R83: whatever the environment chose (R5), raw records that differ only in `privilege_mode` and `instruction_word` give the
same result, and under the default `PC_PAYLOAD` so do those that differ in `program_counter` as well; and under any parameters
that do not tell them apart. The spec's own decision 92 D32, log entry 14; the choices are the model's, log entry 5. -/
def Obligations.IgnoredInputsChangeNothing : Prop :=
  ∀ (a b : RawTraceRecord) (pending : BitVec 3),
    (sameButUnread a b → ∀ choice : PolicyChoice,
      packCall (paramsOf choice) a pending = packCall (paramsOf choice) b pending) ∧
    (sameButIgnored a b → ∀ choice : PolicyChoice, choice.payload = .branchTarget →
      packCall (paramsOf choice) a pending = packCall (paramsOf choice) b pending) ∧
    (sameButIgnored a b → ∀ P : Params, P.wbLogged a = P.wbLogged b → P.pcLogged a = P.pcLogged b →
      P.pcPayload a = P.pcPayload b → packCall P a pending = packCall P b pending)

/-- R5: whatever the environment chose, a logged writeback retires and is valid, and the defaults are the ones R5 names, the
spec's own decisions 92 D4 to D6 (log entries 5 and 14). -/
def Obligations.ParametersMeetTheirConstraint : Prop :=
  (∀ choice : PolicyChoice, (paramsOf choice).constrained) ∧
    ∀ raw : RawTraceRecord,
      (paramsOf PolicyChoice.default).wbLogged raw = (raw.retireValid && raw.writebackValid) ∧
        (paramsOf PolicyChoice.default).pcLogged raw = true ∧
        (paramsOf PolicyChoice.default).pcPayload raw = raw.branchTarget

/-! ## The encoder -/

/-- R91 with the offsets of R86: the nybbles put take the indices 0 to `total - 1` once each, each stands in the container as it
was put, the count is the total, and every nybble from there on is 0. That the puts tile is the spec's own inference from
R86. -/
def Obligations.EmissionsTileTheContainer : Prop :=
  ∀ p : PackedRecord, packedWF p = true →
    (emissions p).map (·.1) = List.range (totalNybbles p) ∧
      (encodeRecord p).validNybbleCount.toNat = totalNybbles p ∧
      (∀ e ∈ emissions p, nyb (encodeRecord p).nybbleData e.1 = e.2) ∧
      (∀ i, totalNybbles p ≤ i → i < 16 → nyb (encodeRecord p).nybbleData i = 0) ∧
      compressedWF (encodeRecord p) = true

/-- R87 to R90: the nybbles each valid group puts, at the offsets of R86, bit by bit; and the valid nybbles of an encoded record
are the encodings of its groups, one after the other, in emission order (R54). -/
def Obligations.EncodedGroupsStandInOrder : Prop :=
  ∀ p : PackedRecord, packedWF p = true →
    let d := (encodeRecord p).nybbleData
    let k := p.compressedDataNumBytes
    let oNsq := p.seqValid.toNat
    let oBk := oNsq + p.nonseqValid.toNat
    let oDat := oBk + 2 * p.bkptValid.toNat
    (p.seqValid = true → nyb d 0 = 0b0#1 ++ p.seq) ∧
      (p.nonseqValid = true → nyb d oNsq = 0b10#2 ++ p.nonseq) ∧
      (p.bkptValid = true → nyb d oBk = 0b1101#4 ∧ nyb d (oBk + 1) = p.bkpt) ∧
      (p.dataValid = true → nyb d oDat = 0b1100#4 ∧ nyb d (oDat + 1) = p.dataReason ++ k ∧
        ∀ j, j < 2 * k.toNat → nyb d (oDat + 2 + j) = p.data.extractLsb' (4 * j) 4) ∧
      validNybbles (encodeRecord p) = (instrsOfPacked p).flatMap encode ∧ inEmissionOrder 0 (instrsOfPacked p) = true

/-- R93: a record takes at most 16 nybbles, and some record takes all of them; one that asks for more, with a length hint of 6 or
7, is not well-formed. -/
def Obligations.RecordFitsTheContainer : Prop :=
  (∀ p : PackedRecord, packedWF p = true → totalNybbles p ≤ 16) ∧
    (∃ p : PackedRecord, packedWF p = true ∧ totalNybbles p = 16) ∧
    ∀ p : PackedRecord, p.dataValid = true → 6 ≤ p.compressedDataNumBytes.toNat → packedWF p = false

/-- R92: the skip record encodes to nothing, and the encoder never emits the filler as a group; the spec's own decision 92 D14,
log entry 14. -/
def Obligations.SkipRecordEncodesToNothing : Prop :=
  encodeCall PackedRecord.skip = some { validNybbleCount := 0, nybbleData := 0 } ∧
    ∀ p : PackedRecord, packedWF p = true → Instr.skip ∉ instrsOfPacked p

/-- R63: distinct well-formed records have distinct encodings, in count or in a valid nybble. -/
def Obligations.EncodingIsInjective : Prop :=
  ∀ p q : PackedRecord, packedWF p = true → packedWF q = true →
    validNybbles (encodeRecord p) = validNybbles (encodeRecord q) → p = q

/-! ## The stream, the agents and the environment -/

/-- A raw record in the queue of inputs (the queue is the model's choice, log entry 2), on a stream that nobody else writes:
well-formed, it is packed, encoded into the container and appended, in one step (R65, R85, R33); else it has no meaning (R80).
On a stream that another producer writes it has no meaning (R138, R148; 93 U24; the record of who writes is the model's, log
entry 23). -/
def Obligations.RawRecordIsPackedEncodedAndAppended : Prop :=
  ∀ (s : State) (raw : RawTraceRecord) (q : List Input), s.inputs = .raw raw :: q →
    let P := paramsOf s.policy
    let p := packRecord P raw s.pendingSeq
    (s.producer = none ∨ s.producer = some .packer → rawWF P raw = true →
      step s = .next { s with
        pendingSeq := packNextPending P raw s.pendingSeq
        packed := p
        mem := { container := encodeRecord p, stream := s.mem.stream ++ validNybbles (encodeRecord p) }
        inputs := q
        producer := some .packer }) ∧
      (s.producer = none ∨ s.producer = some .packer → rawWF P raw = false → step s = .refused .rawNotWellFormed) ∧
      (s.producer ≠ none → s.producer ≠ some .packer → step s = .refused .secondProducer)

/-- An encode call in the queue of inputs (the model's choice, log entries 2 and 23), on a stream that nobody else writes: a
well-formed record is encoded and appended, the packer's register as it was (R85, R33); any other has no meaning (R95). On a
stream that another producer writes it has no meaning (R138, R148; 93 U24). -/
def Obligations.PackedRecordIsEncodedAndAppended : Prop :=
  ∀ (s : State) (p : PackedRecord) (q : List Input), s.inputs = .packed p :: q →
    (s.producer = none ∨ s.producer = some .encodeCaller → packedWF p = true →
      step s = .next { s with
        packed := p
        mem := { container := encodeRecord p, stream := s.mem.stream ++ validNybbles (encodeRecord p) }
        inputs := q
        producer := some .encodeCaller }) ∧
      (s.producer = none ∨ s.producer = some .encodeCaller → packedWF p = false →
        step s = .refused .packedNotWellFormed) ∧
      (s.producer ≠ none → s.producer ≠ some .encodeCaller → step s = .refused .secondProducer)

/-- An append in the queue of inputs (the model's choice, log entries 2 and 23), on a stream that nobody else writes: it adds the
valid nybbles, nybble 0 first, after all that stand there, and they read back (R33); a record that is not in canonical form has
no meaning (93 U20). On a stream that another producer writes it has no meaning (R138, R148; 93 U24). -/
def Obligations.AppendAddsTheValidNybbles : Prop :=
  ∀ (s : State) (c : CompressedRecord) (q : List Input), s.inputs = .compressed c :: q →
    (s.producer = none ∨ s.producer = some .appendCaller → compressedWF c = true →
      ∃ t, step s = .next t ∧
        t = { s with mem := { s.mem with stream := s.mem.stream ++ validNybbles c }, inputs := q,
                     producer := some .appendCaller } ∧
        (∀ j, j < s.mem.stream.length → readStream t j = readStream s j) ∧
        streamRead t.mem.stream s.mem.stream.length c.validNybbleCount.toNat = some (validNybbles c) ∧
        (∀ i, i < c.validNybbleCount.toNat → readStream t (s.mem.stream.length + i) = some (nyb c.nybbleData i))) ∧
      (s.producer = none ∨ s.producer = some .appendCaller → compressedWF c = false →
        step s = .refused .compressedNotWellFormed) ∧
      (s.producer ≠ none → s.producer ≠ some .appendCaller → step s = .refused .secondProducer)

/-- The window form in the queue of inputs (the model's choice, log entry 2) does what the decode call does (R113). -/
def Obligations.WindowCallIsTheDecodeCall : Prop :=
  ∀ (s : State) (q : List Input),
    step { s with inputs := .decodeWindow :: q } = step { s with inputs := .decode :: q }

/-- The transport's and the environment's other actions in the queue of inputs (the model's choice, log entries 2, 10, 16 and 17):
the filler (R39), the cursor move to any index of the stream (R132, R142; log entry 20), the packer's reset with the stream
carried on (R143), a stream's start (R147), a stream handed over where no agent of the channel writes one (R31, R36; 93 U24, log
entry 23). -/
def Obligations.EnvironmentActionsDoWhatTheySay : Prop :=
  ∀ (s : State) (q : List Input),
    (∀ pos, s.cursor ≤ pos → pos ≤ s.mem.stream.length →
        step { s with inputs := .filler pos :: q } =
          .next { s with inputs := q, mem := { s.mem with stream := insertFiller s.mem.stream pos } }) ∧
      (∀ pos, pos < s.cursor ∨ s.mem.stream.length < pos →
        step { s with inputs := .filler pos :: q } = .refused .fillerOutsideUnread) ∧
      (∀ pos, pos ≤ s.mem.stream.length →
        step { s with inputs := .moveCursor pos :: q } = .next { s with inputs := q, cursor := pos }) ∧
      (∀ pos, s.mem.stream.length < pos →
        step { s with inputs := .moveCursor pos :: q } = .refused .cursorPastEnd) ∧
      step { s with inputs := .resetPacker :: q } = .next { s with inputs := q, pendingSeq := 0 } ∧
      (∀ choice, step { s with inputs := .startStream choice :: q } =
        .next { s with inputs := q, pendingSeq := 0, cursor := 0, mem := { s.mem with stream := [] }, producer := none,
                        policy := choice }) ∧
      (s.producer = none ∨ s.producer = some .elsewhere →
        (∀ stream, step { s with inputs := .load stream :: q } =
          .next { s with inputs := q, cursor := 0, mem := { s.mem with stream := stream }, producer := some .elsewhere }) ∧
        ∀ bytes, step { s with inputs := .loadBytes bytes :: q } =
          .next { s with inputs := q, cursor := 0, mem := { s.mem with stream := fromBytes bytes },
                         producer := some .elsewhere }) ∧
      (s.producer ≠ none → s.producer ≠ some .elsewhere →
        (∀ stream, step { s with inputs := .load stream :: q } = .refused .secondProducer) ∧
        ∀ bytes, step { s with inputs := .loadBytes bytes :: q } = .refused .secondProducer)

/-- R36: the byte view: nybble `2k` in the low half of byte `k`, nybble `2k+1` in the high half, an odd tail padded with one
filler; and the nybbles read back. The packing is the spec's own decision 92 D16, log entries 12 and 14. -/
def Obligations.ByteViewHoldsTwoNybblesAByte : Prop :=
  ∀ stream : NybbleStream,
    (toBytes stream).length = (stream.length + 1) / 2 ∧
      (∀ (k : Nat) (b : BitVec 8), (toBytes stream)[k]? = some b →
        stream[2 * k]? = some (b.extractLsb' 0 4) ∧ stream.getD (2 * k + 1) 0b0000#4 = b.extractLsb' 4 4) ∧
      fromBytes (toBytes stream) = stream ++ (if stream.length % 2 = 1 then [0b0000#4] else [])

/-- R140, R142, R143: after reset the count is 0, the stream is empty and the cursor is 0. That the count is 0 is the spec's own
decision 92 D25, log entry 14. -/
def Obligations.ResetClearsCountStreamAndCursor : Prop :=
  State.reset.pendingSeq = 0 ∧ State.reset.mem.stream = [] ∧ State.reset.cursor = 0

/-- The invariant of Safety.lean holds at reset. That the container and the packed record there are in canonical form and
well-formed, that no outcome is there and that nobody has written the stream are the model's choices (log entries 7, 8 and 23:
R144 gives the records no value). -/
def Obligations.StateInvHoldsAtReset : Prop := State.reset.inv = true

/-- Every step keeps the invariant: the cursor within the stream (R21), the container in canonical form (R18, R91), the packed
record well-formed (R81, R95), every outcome as R20 and R112 promise, a stream that nobody has written fillers alone (R39, R143),
and a count pending only where the packer is the stream's one producer (R138, R147; log entry 23). -/
def Obligations.StepKeepsStateInv : Prop := ∀ s t : State, s.inv = true → step s = .next t → t.inv = true

/-- R27: a step of one channel leaves every other channel as it was, and steps its own as if it were alone. -/
def Obligations.ChannelsShareNothing : Prop :=
  ∀ (channels after : List State) (k : Nat), stepChannel k channels = .next after →
    (∀ j, j ≠ k → after[j]? = channels[j]?) ∧
      ∀ s, channels[k]? = some s → ∃ t, step s = .next t ∧ after[k]? = some t
end

