-- ==== Sys2Proof/Laws/Decode.lean ====
section
/-!
SUPPORT. The tag nybbles of each class, and what decoding a group does for each class, said once.
-/

namespace Sys2Proof

/-! ## The classes (R45) -/

/-- The tag nybbles of each class (R45). -/
theorem tagClass_iff : ∀ t : Nybble,
    (tagClass t = .skip ↔ t = 0) ∧ (tagClass t = .seq ↔ 1 ≤ t.toNat ∧ t.toNat ≤ 7) ∧
      (tagClass t = .nseq ↔ 8 ≤ t.toNat ∧ t.toNat ≤ 11) ∧ (tagClass t = .data ↔ t = 0b1100#4) ∧
      (tagClass t = .bkpt ↔ t = 0b1101#4) ∧ (tagClass t = .rsvd ↔ t.extractLsb' 1 3 = 0b111#3) := by decide

theorem tagClass_eq_skip (t : Nybble) : tagClass t = .skip ↔ t = 0 := (tagClass_iff t).1

theorem tagClass_eq_seq (t : Nybble) : tagClass t = .seq ↔ 1 ≤ t.toNat ∧ t.toNat ≤ 7 := (tagClass_iff t).2.1

theorem tagClass_eq_nseq (t : Nybble) : tagClass t = .nseq ↔ 8 ≤ t.toNat ∧ t.toNat ≤ 11 := (tagClass_iff t).2.2.1

theorem tagClass_eq_data (t : Nybble) : tagClass t = .data ↔ t = 0b1100#4 := (tagClass_iff t).2.2.2.1

theorem tagClass_eq_bkpt (t : Nybble) : tagClass t = .bkpt ↔ t = 0b1101#4 := (tagClass_iff t).2.2.2.2.1

theorem tagClass_eq_rsvd (t : Nybble) : tagClass t = .rsvd ↔ t.extractLsb' 1 3 = 0b111#3 := (tagClass_iff t).2.2.2.2.2

/-! ## Decoding by class -/

/-- What a group of each class but DATA decodes to, and the two groups cut after their tag (R46 to R50, R53, R127). -/
theorem decodeGroup_by_class (t : Nybble) (rest : List Nybble) :
    (tagClass t = .skip → decodeGroup (t :: rest) = .ok (.skip, rest)) ∧
      (tagClass t = .seq → decodeGroup (t :: rest) = .ok (.seq (t.extractLsb' 0 3), rest)) ∧
      (tagClass t = .nseq → decodeGroup (t :: rest) = .ok (nseqOfReason (t.extractLsb' 0 2), rest)) ∧
      (tagClass t = .rsvd → decodeGroup (t :: rest) = .ok (.rsvd (t.extractLsb' 0 1), rest)) ∧
      (∀ reason, tagClass t = .bkpt → decodeGroup (t :: reason :: rest) = .ok (.bkpt reason, rest)) ∧
      (tagClass t = .bkpt ∨ tagClass t = .data → decodeGroup [t] = .error .truncated) := by
  refine ⟨?_, ?_, ?_, ?_, ?_, ?_⟩ <;> intros <;> simp_all [decodeGroup]
  rename_i h
  rcases h with h | h <;> simp [h]

/-- A data header with a reserved length is read as such, however many nybbles follow (R56, R128). -/
theorem decodeGroup_badlen (t header : Nybble) (rest : List Nybble) (h : tagClass t = .data)
    (hk : 5 < (header.extractLsb' 0 3 : BitVec 3).toNat) :
    decodeGroup (t :: header :: rest) = .ok (.dataBadlen (header.extractLsb' 3 1) (header.extractLsb' 0 1), rest) := by
  simp only [decodeGroup, h]
  rw [if_pos hk]

/-- A data group of a legal length whose payload is short is truncated (R127). -/
theorem decodeGroup_data_short (t header : Nybble) (rest : List Nybble) (h : tagClass t = .data)
    (hk : (header.extractLsb' 0 3 : BitVec 3).toNat ≤ 5)
    (hl : rest.length < 2 * (header.extractLsb' 0 3 : BitVec 3).toNat) :
    decodeGroup (t :: header :: rest) = .error .truncated := by
  simp only [decodeGroup, h]
  rw [if_neg (Nat.not_lt.2 hk), if_pos hl]

/-- A data group of a legal length whose payload is there is read whole (R51, R52). -/
theorem decodeGroup_data (t header : Nybble) (rest : List Nybble) (h : tagClass t = .data)
    (hk : (header.extractLsb' 0 3 : BitVec 3).toNat ≤ 5)
    (hl : 2 * (header.extractLsb' 0 3 : BitVec 3).toNat ≤ rest.length) :
    decodeGroup (t :: header :: rest) =
      .ok (if header.extractLsb' 3 1 = 0
            then .dataPc (header.extractLsb' 0 3)
              (assemblePayload (rest.take (2 * (header.extractLsb' 0 3 : BitVec 3).toNat)))
            else .dataWb (header.extractLsb' 0 3)
              (assemblePayload (rest.take (2 * (header.extractLsb' 0 3 : BitVec 3).toNat))),
        rest.drop (2 * (header.extractLsb' 0 3 : BitVec 3).toNat)) := by
  simp only [decodeGroup, h]
  rw [if_neg (Nat.not_lt.2 hk), if_neg (Nat.not_lt.2 hl)]

end Sys2Proof
end

