-- ==== Sys2Proof/Laws/State.lean ====
section
/-!
SUPPORT. One lemma per field per update of the state, and what delivering, faulting and reporting leave.
-/

namespace Sys2Proof.Machine

/-! ## `setPending` -/

@[simp] theorem State.setPending_pendingSeq (s : State) (v : BitVec 3) : (s.setPending v).pendingSeq = v := rfl

@[simp] theorem State.setPending_container (s : State) (v : BitVec 3) : (s.setPending v).mem.container = s.mem.container := rfl

@[simp] theorem State.setPending_stream (s : State) (v : BitVec 3) : (s.setPending v).mem.stream = s.mem.stream := rfl

@[simp] theorem State.setPending_cursor (s : State) (v : BitVec 3) : (s.setPending v).cursor = s.cursor := rfl

@[simp] theorem State.setPending_packed (s : State) (v : BitVec 3) : (s.setPending v).packed = s.packed := rfl

@[simp] theorem State.setPending_outcomes (s : State) (v : BitVec 3) : (s.setPending v).outcomes = s.outcomes := rfl

@[simp] theorem State.setPending_inputs (s : State) (v : BitVec 3) : (s.setPending v).inputs = s.inputs := rfl

@[simp] theorem State.setPending_policy (s : State) (v : BitVec 3) : (s.setPending v).policy = s.policy := rfl

@[simp] theorem State.setPending_producer (s : State) (v : BitVec 3) : (s.setPending v).producer = s.producer := rfl

@[simp] theorem State.setPending_mem (s : State) (v : BitVec 3) : (s.setPending v).mem = s.mem := rfl

/-! ## `setCursor` -/

@[simp] theorem State.setCursor_pendingSeq (s : State) (c : Nat) : (s.setCursor c).pendingSeq = s.pendingSeq := rfl

@[simp] theorem State.setCursor_container (s : State) (c : Nat) : (s.setCursor c).mem.container = s.mem.container := rfl

@[simp] theorem State.setCursor_stream (s : State) (c : Nat) : (s.setCursor c).mem.stream = s.mem.stream := rfl

@[simp] theorem State.setCursor_cursor (s : State) (c : Nat) : (s.setCursor c).cursor = c := rfl

@[simp] theorem State.setCursor_packed (s : State) (c : Nat) : (s.setCursor c).packed = s.packed := rfl

@[simp] theorem State.setCursor_outcomes (s : State) (c : Nat) : (s.setCursor c).outcomes = s.outcomes := rfl

@[simp] theorem State.setCursor_inputs (s : State) (c : Nat) : (s.setCursor c).inputs = s.inputs := rfl

@[simp] theorem State.setCursor_policy (s : State) (c : Nat) : (s.setCursor c).policy = s.policy := rfl

@[simp] theorem State.setCursor_producer (s : State) (c : Nat) : (s.setCursor c).producer = s.producer := rfl

@[simp] theorem State.setCursor_mem (s : State) (c : Nat) : (s.setCursor c).mem = s.mem := rfl

/-! ## `setStream` -/

@[simp] theorem State.setStream_pendingSeq (s : State) (n : NybbleStream) : (s.setStream n).pendingSeq = s.pendingSeq := rfl

@[simp] theorem State.setStream_container (s : State) (n : NybbleStream) : (s.setStream n).mem.container = s.mem.container := rfl

@[simp] theorem State.setStream_stream (s : State) (n : NybbleStream) : (s.setStream n).mem.stream = n := rfl

@[simp] theorem State.setStream_cursor (s : State) (n : NybbleStream) : (s.setStream n).cursor = s.cursor := rfl

@[simp] theorem State.setStream_packed (s : State) (n : NybbleStream) : (s.setStream n).packed = s.packed := rfl

@[simp] theorem State.setStream_outcomes (s : State) (n : NybbleStream) : (s.setStream n).outcomes = s.outcomes := rfl

@[simp] theorem State.setStream_inputs (s : State) (n : NybbleStream) : (s.setStream n).inputs = s.inputs := rfl

@[simp] theorem State.setStream_policy (s : State) (n : NybbleStream) : (s.setStream n).policy = s.policy := rfl

@[simp] theorem State.setStream_producer (s : State) (n : NybbleStream) : (s.setStream n).producer = s.producer := rfl

/-! ## `setContainer` -/

@[simp] theorem State.setContainer_pendingSeq (s : State) (c : CompressedRecord) : (s.setContainer c).pendingSeq = s.pendingSeq := rfl

@[simp] theorem State.setContainer_container (s : State) (c : CompressedRecord) : (s.setContainer c).mem.container = c := rfl

@[simp] theorem State.setContainer_stream (s : State) (c : CompressedRecord) : (s.setContainer c).mem.stream = s.mem.stream := rfl

@[simp] theorem State.setContainer_cursor (s : State) (c : CompressedRecord) : (s.setContainer c).cursor = s.cursor := rfl

@[simp] theorem State.setContainer_packed (s : State) (c : CompressedRecord) : (s.setContainer c).packed = s.packed := rfl

@[simp] theorem State.setContainer_outcomes (s : State) (c : CompressedRecord) : (s.setContainer c).outcomes = s.outcomes := rfl

@[simp] theorem State.setContainer_inputs (s : State) (c : CompressedRecord) : (s.setContainer c).inputs = s.inputs := rfl

@[simp] theorem State.setContainer_policy (s : State) (c : CompressedRecord) : (s.setContainer c).policy = s.policy := rfl

@[simp] theorem State.setContainer_producer (s : State) (c : CompressedRecord) : (s.setContainer c).producer = s.producer := rfl

/-! ## `setPacked` -/

@[simp] theorem State.setPacked_pendingSeq (s : State) (p : PackedRecord) : (s.setPacked p).pendingSeq = s.pendingSeq := rfl

@[simp] theorem State.setPacked_container (s : State) (p : PackedRecord) : (s.setPacked p).mem.container = s.mem.container := rfl

@[simp] theorem State.setPacked_stream (s : State) (p : PackedRecord) : (s.setPacked p).mem.stream = s.mem.stream := rfl

@[simp] theorem State.setPacked_cursor (s : State) (p : PackedRecord) : (s.setPacked p).cursor = s.cursor := rfl

@[simp] theorem State.setPacked_packed (s : State) (p : PackedRecord) : (s.setPacked p).packed = p := rfl

@[simp] theorem State.setPacked_outcomes (s : State) (p : PackedRecord) : (s.setPacked p).outcomes = s.outcomes := rfl

@[simp] theorem State.setPacked_inputs (s : State) (p : PackedRecord) : (s.setPacked p).inputs = s.inputs := rfl

@[simp] theorem State.setPacked_policy (s : State) (p : PackedRecord) : (s.setPacked p).policy = s.policy := rfl

@[simp] theorem State.setPacked_producer (s : State) (p : PackedRecord) : (s.setPacked p).producer = s.producer := rfl

@[simp] theorem State.setPacked_mem (s : State) (p : PackedRecord) : (s.setPacked p).mem = s.mem := rfl

/-! ## `pushOutcome` -/

@[simp] theorem State.pushOutcome_pendingSeq (s : State) (o : DecodeOutcome) : (s.pushOutcome o).pendingSeq = s.pendingSeq := rfl

@[simp] theorem State.pushOutcome_container (s : State) (o : DecodeOutcome) : (s.pushOutcome o).mem.container = s.mem.container := rfl

@[simp] theorem State.pushOutcome_stream (s : State) (o : DecodeOutcome) : (s.pushOutcome o).mem.stream = s.mem.stream := rfl

@[simp] theorem State.pushOutcome_cursor (s : State) (o : DecodeOutcome) : (s.pushOutcome o).cursor = s.cursor := rfl

@[simp] theorem State.pushOutcome_packed (s : State) (o : DecodeOutcome) : (s.pushOutcome o).packed = s.packed := rfl

@[simp] theorem State.pushOutcome_outcomes (s : State) (o : DecodeOutcome) : (s.pushOutcome o).outcomes = s.outcomes ++ [o] := rfl

@[simp] theorem State.pushOutcome_inputs (s : State) (o : DecodeOutcome) : (s.pushOutcome o).inputs = s.inputs := rfl

@[simp] theorem State.pushOutcome_policy (s : State) (o : DecodeOutcome) : (s.pushOutcome o).policy = s.policy := rfl

@[simp] theorem State.pushOutcome_producer (s : State) (o : DecodeOutcome) : (s.pushOutcome o).producer = s.producer := rfl

@[simp] theorem State.pushOutcome_mem (s : State) (o : DecodeOutcome) : (s.pushOutcome o).mem = s.mem := rfl

/-! ## `setInputs` -/

@[simp] theorem State.setInputs_pendingSeq (s : State) (q : List Input) : (s.setInputs q).pendingSeq = s.pendingSeq := rfl

@[simp] theorem State.setInputs_container (s : State) (q : List Input) : (s.setInputs q).mem.container = s.mem.container := rfl

@[simp] theorem State.setInputs_stream (s : State) (q : List Input) : (s.setInputs q).mem.stream = s.mem.stream := rfl

@[simp] theorem State.setInputs_cursor (s : State) (q : List Input) : (s.setInputs q).cursor = s.cursor := rfl

@[simp] theorem State.setInputs_packed (s : State) (q : List Input) : (s.setInputs q).packed = s.packed := rfl

@[simp] theorem State.setInputs_outcomes (s : State) (q : List Input) : (s.setInputs q).outcomes = s.outcomes := rfl

@[simp] theorem State.setInputs_inputs (s : State) (q : List Input) : (s.setInputs q).inputs = q := rfl

@[simp] theorem State.setInputs_policy (s : State) (q : List Input) : (s.setInputs q).policy = s.policy := rfl

@[simp] theorem State.setInputs_producer (s : State) (q : List Input) : (s.setInputs q).producer = s.producer := rfl

@[simp] theorem State.setInputs_mem (s : State) (q : List Input) : (s.setInputs q).mem = s.mem := rfl

/-! ## `setProducer` -/

@[simp] theorem State.setProducer_pendingSeq (s : State) (w : Option Producer) : (s.setProducer w).pendingSeq = s.pendingSeq := rfl

@[simp] theorem State.setProducer_mem (s : State) (w : Option Producer) : (s.setProducer w).mem = s.mem := rfl

@[simp] theorem State.setProducer_cursor (s : State) (w : Option Producer) : (s.setProducer w).cursor = s.cursor := rfl

@[simp] theorem State.setProducer_packed (s : State) (w : Option Producer) : (s.setProducer w).packed = s.packed := rfl

@[simp] theorem State.setProducer_outcomes (s : State) (w : Option Producer) : (s.setProducer w).outcomes = s.outcomes := rfl

@[simp] theorem State.setProducer_inputs (s : State) (w : Option Producer) : (s.setProducer w).inputs = s.inputs := rfl

@[simp] theorem State.setProducer_policy (s : State) (w : Option Producer) : (s.setProducer w).policy = s.policy := rfl

@[simp] theorem State.setProducer_producer (s : State) (w : Option Producer) : (s.setProducer w).producer = w := rfl

/-! ## Reading the memory after an update -/

@[simp] theorem readStream_setCursor (s : State) (c j : Nat) : readStream (s.setCursor c) j = readStream s j := rfl

@[simp] theorem readStream_pushOutcome (s : State) (o : DecodeOutcome) (j : Nat) :
    readStream (s.pushOutcome o) j = readStream s j := rfl

@[simp] theorem readContainer_setCursor (s : State) (c i : Nat) : readContainer (s.setCursor c) i = readContainer s i := rfl

@[simp] theorem readContainer_pushOutcome (s : State) (o : DecodeOutcome) (i : Nat) :
    readContainer (s.pushOutcome o) i = readContainer s i := rfl

/-! ## The end of a decode call -/

@[simp] theorem report_pendingSeq (o : DecodeOutcome) (s : State) : (report o s).pendingSeq = s.pendingSeq := by cases o <;> rfl

@[simp] theorem report_container (o : DecodeOutcome) (s : State) : (report o s).mem.container = s.mem.container := by cases o <;> rfl

@[simp] theorem report_stream (o : DecodeOutcome) (s : State) : (report o s).mem.stream = s.mem.stream := by cases o <;> rfl

@[simp] theorem report_cursor (o : DecodeOutcome) (s : State) : (report o s).cursor = s.cursor + o.consumed := by cases o <;> rfl

@[simp] theorem report_packed (o : DecodeOutcome) (s : State) : (report o s).packed = s.packed := by cases o <;> rfl

@[simp] theorem report_outcomes (o : DecodeOutcome) (s : State) : (report o s).outcomes = s.outcomes ++ [o] := by cases o <;> rfl

@[simp] theorem report_inputs (o : DecodeOutcome) (s : State) : (report o s).inputs = s.inputs := by cases o <;> rfl

@[simp] theorem report_policy (o : DecodeOutcome) (s : State) : (report o s).policy = s.policy := by cases o <;> rfl

@[simp] theorem report_producer (o : DecodeOutcome) (s : State) : (report o s).producer = s.producer := by cases o <;> rfl

@[simp] theorem report_mem (o : DecodeOutcome) (s : State) : (report o s).mem = s.mem := by cases o <;> rfl

/-- Everything a reported outcome changes: the cursor and the list of outcomes. -/
theorem report_eq (o : DecodeOutcome) (s : State) :
    report o s = (s.setCursor (s.cursor + o.consumed)).pushOutcome o := by cases o <;> rfl

end Sys2Proof.Machine
end

