-- ==== Sys2Proof/Laws/Memory.lean ====
section
/-!
SUPPORT. The container's and the stream's laws: a nybble read after a nybble is put, the canonical form, and that every
operation of the memory keeps it.
-/

namespace Sys2Proof.Machine

/-! ## The container -/

@[simp] theorem nyb_zero (i : Nat) : nyb 0 i = 0 := by
  simp [nyb]

theorem nybbleMask_getLsbD (m : Nat) : (0xF#64).getLsbD m = decide (m < 4) := by
  rw [BitVec.getLsbD_ofNat, show (15 : Nat) = 2 ^ 4 - 1 from rfl, Nat.testBit_two_pow_sub_one]
  by_cases h : m < 4 <;> simp [h]; omega

/-- A nybble reads as it was put, and the others as before (R91). -/
theorem nyb_putNybble (d : Container) (i j : Nat) (v : Nybble) (hj : j < 16) :
    nyb (putNybble d i v) j = if i = j then v else nyb d j := by
  apply BitVec.eq_of_getLsbD_eq
  intro b hb
  have h64 : 4 * j + b < 64 := by omega
  simp only [nyb, putNybble, BitVec.getLsbD_extractLsb', BitVec.getLsbD_or, BitVec.getLsbD_and, BitVec.getLsbD_not,
    BitVec.getLsbD_shiftLeft, BitVec.getLsbD_setWidth, nybbleMask_getLsbD, h64, hb, decide_true, Bool.true_and]
  by_cases hij : i = j
  · subst hij
    have hm : 4 * i + b - 4 * i = b := by omega
    have hn : ¬ 4 * i + b < 4 * i := by omega
    simp [hm, hn, hb, show b < 64 by omega]
  · rcases Nat.lt_or_ge i j with h | h
    · have hi : 4 ≤ 4 * j + b - 4 * i := by omega
      have hn : ¬ 4 * j + b - 4 * i < 4 := by omega
      simp [hij, hn, hb, BitVec.getLsbD_of_ge v _ hi]
    · have hi : 4 * j + b < 4 * i := by omega
      simp [hij, hi, hb]

@[simp] theorem firstNybbles_length (d : Container) (n : Nat) : (firstNybbles d n).length = n := by
  simp [firstNybbles]

@[simp] theorem validNybbles_length (c : CompressedRecord) : (validNybbles c).length = c.validNybbleCount.toNat := by
  simp [validNybbles]

/-- The canonical form, nybble by nybble (R18). -/
theorem compressedWF_iff (c : CompressedRecord) :
    compressedWF c = true ↔
      c.validNybbleCount.toNat ≤ 16 ∧ ∀ i, i < 16 → c.validNybbleCount.toNat ≤ i → nyb c.nybbleData i = 0 := by
  simp only [compressedWF, Bool.and_eq_true, List.all_eq_true, List.mem_range, Bool.or_eq_true, beq_iff_eq, decide_eq_true_eq]
  refine and_congr_right fun _ => forall_congr' fun i => ?_
  constructor
  · intro h hi hc
    exact (h hi).resolve_left (by omega)
  · intro h hi
    by_cases hc : c.validNybbleCount.toNat ≤ i
    · exact .inr (h hi hc)
    · exact .inl (by omega)

/-! ## The stream -/

/-- Everything an append can do (R33). -/
theorem streamAppend_eq_some (stream out : NybbleStream) (c : CompressedRecord) :
    streamAppend stream c = some out ↔ compressedWF c = true ∧ out = stream ++ validNybbles c := by
  cases h : compressedWF c <;> simp [streamAppend, h, eq_comm]

theorem streamAppend_eq_none (stream : NybbleStream) (c : CompressedRecord) :
    streamAppend stream c = none ↔ compressedWF c = false := by
  cases h : compressedWF c <;> simp [streamAppend, h]

/-- A filler makes the stream one longer (R39). -/
theorem insertFiller_length (stream : NybbleStream) (pos : Nat) : (insertFiller stream pos).length = stream.length + 1 := by
  simp only [insertFiller, List.length_append, List.length_take, List.length_cons, List.length_drop]
  omega

/-- Everything a read of several nybbles can do (R7). -/
theorem streamRead_eq_some (s : NybbleStream) (j n : Nat) (out : List Nybble) :
    streamRead s j n = some out ↔ j + n ≤ s.length ∧ out = (s.drop j).take n := by
  by_cases h : j + n ≤ s.length <;> simp [streamRead, h, eq_comm]

/-- The byte view's cells: byte `k` at address `k`, so that the addresses rise (R36, log entry 12). -/
theorem streamCells_getElem? (stream : NybbleStream) (k : Nat) :
    (streamCells stream)[k]? = ((toBytes stream)[k]?).map fun b => (k, b) := by
  simp [streamCells]

/-! ## The canonical form under the memory's operations -/

theorem wf_reset : State.reset.mem.wf = true := by decide

/-- A change of the stream keeps the canonical form: it is the container's. -/
theorem wf_setStream (s : State) (n : NybbleStream) : (s.setStream n).mem.wf = s.mem.wf := rfl

/-- Writing a container of canonical form leaves the memory in canonical form. -/
theorem wf_setContainer (s : State) (c : CompressedRecord) (h : compressedWF c = true) : (s.setContainer c).mem.wf = true := h

theorem wf_report (o : DecodeOutcome) (s : State) : (report o s).mem.wf = s.mem.wf := by rw [report_mem]

end Sys2Proof.Machine
end

