-- ==== Sys2Proof/Laws/Ops.lean ====
section
/-!
SUPPORT. What each shared operation can do, said once: the checks and the groups of a decode call, one round of the greedy
parse, and the actions of the agents.
-/

namespace Sys2Proof.Machine

/-! ## The checks of a data group -/

/-- The checks pass exactly when the length is legal and the stream holds the whole group (R108). -/
theorem checkData_eq_ok (len : Nat) (pairs : BitVec 3) (p : Parse) :
    checkData len pairs p = .ok () ↔ pairs.toNat ≤ 5 ∧ p.idx + 2 + 2 * pairs.toNat ≤ len := by
  unfold checkData Config.maxPayloadPairs
  split
  · simp; omega
  · split
    · simp; omega
    · split
      · simp; omega
      · simp; omega

/-- The length fault: the header is there and its length is reserved, however many nybbles remain (R128, R129). -/
theorem checkData_eq_badDataLength (len : Nat) (pairs : BitVec 3) (p : Parse) :
    checkData len pairs p = .error .badDataLength ↔ p.idx + 1 < len ∧ 5 < pairs.toNat := by
  unfold checkData Config.maxPayloadPairs
  split
  · simp; omega
  · split
    · simp; omega
    · split <;> simp <;> omega

/-- The truncation fault: the header is missing, or its legal length runs past the end (R127). -/
theorem checkData_eq_truncated (len : Nat) (pairs : BitVec 3) (p : Parse) :
    checkData len pairs p = .error .truncatedStream ↔
      len ≤ p.idx + 1 ∨ (pairs.toNat ≤ 5 ∧ len < p.idx + 2 + 2 * pairs.toNat) := by
  unfold checkData Config.maxPayloadPairs
  split
  · simp; omega
  · split
    · simp; omega
    · split <;> simp <;> omega

/-- The checks raise no other fault. -/
theorem checkData_error (len : Nat) (pairs : BitVec 3) (p : Parse) (k : Fault) (h : checkData len pairs p = .error k) :
    k = .truncatedStream ∨ k = .badDataLength := by
  unfold checkData Config.maxPayloadPairs at h
  split at h
  · cases h; exact .inl rfl
  · split at h
    · cases h; exact .inr rfl
    · split at h
      · cases h; exact .inl rfl
      · cases h

/-! ## The groups -/

theorem parseBkpt_eq_ok (len : Nat) (reason : BitVec 4) (p p' : Parse) :
    parseBkpt len reason p = .ok p' ↔
      p.idx + 2 ≤ len ∧
        p' = ⟨{ p.record with breakpointValid := true, breakpointReason := reason }, p.idx + 2, 3⟩ := by
  unfold parseBkpt
  split
  · simp; omega
  · simp [eq_comm]; omega

theorem parseBkpt_eq_error (len : Nat) (reason : BitVec 4) (p : Parse) (k : Fault) :
    parseBkpt len reason p = .error k ↔ len ≤ p.idx + 1 ∧ k = .truncatedStream := by
  unfold parseBkpt
  split
  · simp [eq_comm]; omega
  · simp; omega

theorem parsePc_eq_ok (len : Nat) (pairs : BitVec 3) (data : DataValue) (p p' : Parse) :
    parsePc len pairs data p = .ok p' ↔
      (pairs.toNat ≤ 5 ∧ p.idx + 2 + 2 * pairs.toNat ≤ len) ∧
        p' = ⟨{ p.record with pcValid := true, programCounter := pcOfData data }, p.idx + 2 + 2 * pairs.toNat, 4⟩ := by
  rw [← checkData_eq_ok]
  unfold parsePc
  split <;> rename_i h <;> simp [h, eq_comm]

theorem parsePc_eq_error (len : Nat) (pairs : BitVec 3) (data : DataValue) (p : Parse) (k : Fault) :
    parsePc len pairs data p = .error k ↔ checkData len pairs p = .error k := by
  unfold parsePc
  split <;> rename_i h <;> simp [h]

theorem parseWb_eq_ok (len : Nat) (pairs : BitVec 3) (data : DataValue) (p p' : Parse) :
    parseWb len pairs data p = .ok p' ↔
      (pairs.toNat ≤ 5 ∧ p.idx + 2 + 2 * pairs.toNat ≤ len) ∧
        p' = ⟨{ p.record with writebackValid := true, writebackRegister := registerOfData data,
                              writebackValue := valueOfData data }, p.idx + 2 + 2 * pairs.toNat, 4⟩ := by
  rw [← checkData_eq_ok]
  unfold parseWb
  split <;> rename_i h <;> simp [h, eq_comm]

theorem parseWb_eq_error (len : Nat) (pairs : BitVec 3) (data : DataValue) (p : Parse) (k : Fault) :
    parseWb len pairs data p = .error k ↔ checkData len pairs p = .error k := by
  unfold parseWb
  split <;> rename_i h <;> simp [h]

/-- A reserved length always faults (R56, R128). -/
theorem parseBadlen_eq (len : Nat) (n : BitVec 1) (p : Parse) :
    parseBadlen len n p = .error (if len ≤ p.idx + 1 then .truncatedStream else .badDataLength) := by
  have h5 : 5 < (0b11#2 ++ n : BitVec 3).toNat := by revert n; decide
  unfold parseBadlen checkData
  by_cases h : len ≤ p.idx + 1 <;> simp [h, h5]

/-- A group that is applied moves the index by its length and the stage above its order index; it lies within the stream where
it has more than one nybble (R104). -/
theorem applyGroup_ok (len : Nat) (i : Instr) (p p' : Parse) (h : applyGroup len i p = .ok p') (o : Nat)
    (ho : orderIndex i.tagClass = some o) :
    p'.idx = p.idx + groupLength i ∧ p'.stage = o + 1 ∧ (p.idx < len → p'.idx ≤ len) := by
  cases i with
  | skip => cases ho
  | rsvd x => cases ho
  | seq n => cases ho; cases h; exact ⟨rfl, rfl, id⟩
  | nseqTrap => cases ho; cases h; exact ⟨rfl, rfl, id⟩
  | nseqRet => cases ho; cases h; exact ⟨rfl, rfl, id⟩
  | nseqJump => cases ho; cases h; exact ⟨rfl, rfl, id⟩
  | nseqBranch => cases ho; cases h; exact ⟨rfl, rfl, id⟩
  | bkpt reason =>
    obtain ⟨hl, rfl⟩ := (parseBkpt_eq_ok _ _ _ _).1 h
    cases ho
    exact ⟨rfl, rfl, fun _ => hl⟩
  | dataPc pairs data =>
    obtain ⟨⟨-, hl⟩, rfl⟩ := (parsePc_eq_ok _ _ _ _ _).1 h
    cases ho
    exact ⟨Nat.add_assoc _ _ _, rfl, fun _ => hl⟩
  | dataWb pairs data =>
    obtain ⟨⟨-, hl⟩, rfl⟩ := (parseWb_eq_ok _ _ _ _ _).1 h
    cases ho
    exact ⟨Nat.add_assoc _ _ _, rfl, fun _ => hl⟩
  | dataBadlen r n => simp [applyGroup, parseBadlen_eq] at h

/-- No group raises the reserved-tag fault: only a call's first nybble can (R126). -/
theorem applyGroup_error (len : Nat) (i : Instr) (p : Parse) (k : Fault) (h : applyGroup len i p = .error k) :
    k = .truncatedStream ∨ k = .badDataLength := by
  cases i with
  | skip => cases h
  | rsvd x => cases h
  | seq n => cases h
  | nseqTrap => cases h
  | nseqRet => cases h
  | nseqJump => cases h
  | nseqBranch => cases h
  | bkpt reason => exact .inl ((parseBkpt_eq_error _ _ _ _).1 h).2
  | dataPc pairs data => exact checkData_error _ _ _ _ ((parsePc_eq_error _ _ _ _ _).1 h)
  | dataWb pairs data => exact checkData_error _ _ _ _ ((parseWb_eq_error _ _ _ _ _).1 h)
  | dataBadlen r n =>
    have h := (parseBadlen_eq len n p).symm.trans h
    split at h <;> cases h <;> simp

/-- Everything reading a group at the parse's index can do (R104). -/
theorem parseGroup_cases (stream : NybbleStream) (p : Parse) :
    (∃ i rest, decodeGroup (stream.drop p.idx) = .ok (i, rest) ∧ parseGroup stream p = applyGroup stream.length i p) ∨
      (∃ e, decodeGroup (stream.drop p.idx) = .error e ∧ parseGroup stream p = .error .truncatedStream) := by
  unfold parseGroup
  cases h : decodeGroup (stream.drop p.idx) with
  | ok x => exact .inl ⟨x.1, x.2, rfl, rfl⟩
  | error e => exact .inr ⟨e, rfl, rfl⟩

/-! ## The greedy parse -/

/-- The parse stops where the record ends (R111). -/
theorem parseLoop_of_ends (stream : NybbleStream) (fuel : Nat) (p : Parse)
    (h : recordEndsAt stream p.idx p.stage = true) : parseLoop stream fuel p = .ok p := by
  cases fuel with
  | zero => rfl
  | succ fuel =>
    unfold recordEndsAt at h
    unfold parseLoop
    split at h <;> rename_i ht
    · simp [ht]
    · split at h <;> rename_i ho
      · simp [ht, ho]
      · simp [ht, ho, of_decide_eq_true h]

/-- Where the record does not end the group there is parsed, and the parse goes on or the call faults (R104). -/
theorem parseLoop_of_not_ends (stream : NybbleStream) (fuel : Nat) (p : Parse)
    (h : recordEndsAt stream p.idx p.stage = false) :
    parseLoop stream (fuel + 1) p =
      match parseGroup stream p with
      | .error k => .error k
      | .ok p' => parseLoop stream fuel p' := by
  unfold recordEndsAt at h
  rw [parseLoop]
  split at h <;> rename_i ht
  · cases h
  · split at h <;> rename_i ho
    · cases h
    · have hs := of_decide_eq_false h
      simp only [ht, ho, hs, if_false] <;> cases parseGroup stream p <;> rfl

/-- Everything a call does after its first group: it reports one outcome (R104, R116, R130). -/
theorem runCall_eq (first : Except Fault Parse) (s : State) :
    runCall first s = .next (report (outcomeOfParse s.cursor (continueParse s.mem.stream first)) s) := rfl

theorem continueParse_error (stream : NybbleStream) (k : Fault) : continueParse stream (.error k) = .error k := rfl

theorem continueParse_ok (stream : NybbleStream) (p : Parse) : continueParse stream (.ok p) = parseLoop stream 4 p := rfl

/-! ## The agents -/

/-- A cursor move answers a next state exactly within the stream (R100, R132). -/
theorem resynchronise_next (pos : Nat) (s t : State) :
    resynchronise pos s = .next t ↔ pos ≤ s.mem.stream.length ∧ t = s.setCursor pos := by
  by_cases h : pos ≤ s.mem.stream.length <;> simp [resynchronise, h, eq_comm]

/-- A filler answers a next state exactly between the cursor and the end (R39, R44). -/
theorem addFiller_next (pos : Nat) (s t : State) :
    addFiller pos s = .next t ↔
      (s.cursor ≤ pos ∧ pos ≤ s.mem.stream.length) ∧ t = s.setStream (insertFiller s.mem.stream pos) := by
  by_cases h : s.cursor ≤ pos ∧ pos ≤ s.mem.stream.length <;> simp [addFiller, h, eq_comm]

/-- An append answers a next state exactly on a record in canonical form (R33). -/
theorem appendRecord_next (c : CompressedRecord) (s t : State) :
    appendRecord c s = .next t ↔
      compressedWF c = true ∧ t = s.setStream (s.mem.stream ++ validNybbles c) := by
  cases h : compressedWF c <;> simp [appendRecord, streamAppend, h, eq_comm]

/-- An encode call answers a next state exactly on a well-formed record whose encoding is in canonical form (R85, R95). -/
theorem encodeAndAppend_next (p : PackedRecord) (s t : State) :
    encodeAndAppend p s = .next t ↔
      packedWF p = true ∧ compressedWF (encodeRecord p) = true ∧
        t = ((s.setPacked p).setContainer (encodeRecord p)).setStream
              (s.mem.stream ++ validNybbles (encodeRecord p)) := by
  cases h : packedWF p
  · simp [encodeAndAppend, encodeCall, h]
  · simp [encodeAndAppend, encodeCall, h, appendRecord_next]

/-- A raw record answers a next state exactly where it is well-formed and what is packed is encoded (R65, R80). -/
theorem presentRaw_next (raw : RawTraceRecord) (s t : State) :
    presentRaw raw s = .next t ↔
      rawWF (paramsOf s.policy) raw = true ∧
        encodeAndAppend (packRecord (paramsOf s.policy) raw s.pendingSeq)
          (s.setPending (packNextPending (paramsOf s.policy) raw s.pendingSeq)) = .next t := by
  cases h : rawWF (paramsOf s.policy) raw
  · simp [presentRaw, packCall, h]
  · simp [presentRaw, packCall, packStep, h]

/-- A producer's write: the write itself, on a stream that nobody or the same producer writes, or a refusal (R138, R148). -/
theorem asProducer_cases (who : Producer) (write : State → Host.Outcome State Fault Refusal) (s : State) :
    ((s.producer = none ∨ s.producer = some who) ∧ asProducer who write s = write (s.setProducer (some who))) ∨
      (¬(s.producer = none ∨ s.producer = some who) ∧ asProducer who write s = .refused .secondProducer) := by
  by_cases h : s.producer = none ∨ s.producer = some who
  · exact .inl ⟨h, if_pos h⟩
  · exact .inr ⟨h, if_neg h⟩

/-- Everything a decode call can do: it is outside the contract, or it runs the group at the cursor, or it is exhausted, or it
is truncated (R100, R101, R127). -/
theorem consumerCall_cases (s : State) :
    (s.mem.stream.length < s.cursor ∧ consumerCall s = .refused .cursorPastEnd) ∨
      (s.cursor ≤ s.mem.stream.length ∧
        ((∃ i rest, decodeGroup (s.mem.stream.drop s.cursor) = .ok (i, rest) ∧ consumerCall s = exec i s) ∨
          (decodeGroup (s.mem.stream.drop s.cursor) = .error .exhausted ∧ consumerCall s = .next (report .exhausted s)) ∨
          (decodeGroup (s.mem.stream.drop s.cursor) = .error .truncated ∧
            consumerCall s = .next (report (.fault .truncatedStream) s)))) := by
  unfold consumerCall
  by_cases h : s.mem.stream.length < s.cursor
  · exact .inl ⟨h, by simp [h]⟩
  · refine .inr ⟨by omega, ?_⟩
    simp only [h, if_false]
    cases hd : decodeGroup (s.mem.stream.drop s.cursor) with
    | ok x => exact .inl ⟨x.1, x.2, rfl, rfl⟩
    | error e => cases e with
      | exhausted => exact .inr (.inl ⟨rfl, rfl⟩)
      | truncated => exact .inr (.inr ⟨rfl, rfl⟩)

/-- The step is the first input's action, or a decode call. -/
theorem step_of_no_input (s : State) (h : s.inputs = []) : step s = consumerCall s := by
  simp [step, agentStep, h]

theorem step_of_input (s : State) (e : Input) (rest : List Input) (h : s.inputs = e :: rest) :
    step s = handleInput e (s.setInputs rest) := by
  simp [step, agentStep, h]

end Sys2Proof.Machine
end

