-- ==== Sys2Proof/Laws/PerInstr.lean ====
section
/-!
SUPPORT. Families of statements about every instruction, one lemma per constructor.
-/

namespace Sys2Proof.Laws

/-! ## The shape of an encoding: its first nybble is a tag of the instruction's class, and it has the class's length (R45) -/

/-- The encoding of a well-formed group begins with a tag of its class and has its group length. -/
def EncodedShape.Statement (i : Instr) : Prop :=
  i.wf = true → (encode i).length = groupLength i ∧ ∃ t rest, encode i = t :: rest ∧ tagClass t = i.tagClass

theorem EncodedShape.skip : EncodedShape.Statement .skip := fun _ => ⟨rfl, _, _, rfl, by decide⟩

theorem EncodedShape.seq (n : BitVec 3) : EncodedShape.Statement (.seq n) := fun h =>
  ⟨rfl, _, _, rfl, by revert n; decide⟩

theorem EncodedShape.nseqTrap : EncodedShape.Statement .nseqTrap := fun _ => ⟨rfl, _, _, rfl, by decide⟩

theorem EncodedShape.nseqRet : EncodedShape.Statement .nseqRet := fun _ => ⟨rfl, _, _, rfl, by decide⟩

theorem EncodedShape.nseqJump : EncodedShape.Statement .nseqJump := fun _ => ⟨rfl, _, _, rfl, by decide⟩

theorem EncodedShape.nseqBranch : EncodedShape.Statement .nseqBranch := fun _ => ⟨rfl, _, _, rfl, by decide⟩

theorem EncodedShape.bkpt (reason : BitVec 4) : EncodedShape.Statement (.bkpt reason) := fun _ =>
  ⟨rfl, _, _, rfl, (by decide : tagClass 0b1101#4 = .bkpt)⟩

theorem EncodedShape.dataPc (pairs : BitVec 3) (data : DataValue) : EncodedShape.Statement (.dataPc pairs data) := fun _ =>
  ⟨by simp [encode, payloadNybbles, groupLength]; omega, _, _, rfl, (by decide : tagClass 0b1100#4 = .data)⟩

theorem EncodedShape.dataWb (pairs : BitVec 3) (data : DataValue) : EncodedShape.Statement (.dataWb pairs data) := fun _ =>
  ⟨by simp [encode, payloadNybbles, groupLength]; omega, _, _, rfl, (by decide : tagClass 0b1100#4 = .data)⟩

theorem EncodedShape.dataBadlen (r n : BitVec 1) : EncodedShape.Statement (.dataBadlen r n) := fun _ =>
  ⟨rfl, _, _, rfl, (by decide : tagClass 0b1100#4 = .data)⟩

theorem EncodedShape.rsvd (x : BitVec 1) : EncodedShape.Statement (.rsvd x) := fun _ =>
  ⟨rfl, _, _, rfl, by revert x; decide⟩

end Sys2Proof.Laws
end

