-- ==== Sys2Proof/Tests/Slice0.lean ====
section
/-!
SUPPORT. Tests: the well-formedness checks refuse ill-formed terms, words written from the spec decode, one step of each
instruction and of each agent against 95_test_vectors.md, and for every obligation with hypotheses a witness that meets them.
-/

open Sys2Proof Sys2Proof.Machine

namespace Sys2Proof.Tests

/-! ## Builders -/

/-- The reset state with a stream handed over and a cursor. -/
def channelAt (stream : List Nybble) (cursor : Nat) : State :=
  ((State.reset.setStream stream).setCursor cursor).setProducer (some .elsewhere)

/-- The all-zero raw record (95_test_vectors.md `idle`). -/
def idle : RawTraceRecord :=
  { instructionValid := false, privilegeMode := 0, programCounter := 0, instructionWord := 0, branchTaken := false,
    branchTarget := 0, trap := false, isReturn := false, isIndirectJump := false, retireValid := false,
    writebackValid := false, writebackRegister := 0, writebackValue := 0, breakpointValid := false, breakpointReason := 0 }

/-- A plain retirement (95_test_vectors.md `plain`). -/
def plain : RawTraceRecord := { idle with instructionValid := true }

/-- A taken branch to 0x44 at a breakpoint with a writeback (95_test_vectors.md P16). -/
def branchAndWriteback : RawTraceRecord :=
  { plain with branchTaken := true, branchTarget := 0x44, breakpointValid := true, breakpointReason := 0xA, retireValid := true,
               writebackValid := true, writebackRegister := 31, writebackValue := 0xDEADBEEF }

/-- The parameters' defaults (R5). -/
def defaults : Params := paramsOf PolicyChoice.default

/-- The parameters with no destination logged. -/
def noDestinations : Params := paramsOf { PolicyChoice.default with pc := .never }

/-- The packed record of the scenario's step 4 (R84). -/
def scenario : PackedRecord :=
  { PackedRecord.skip with seqValid := true, seq := 3, nonseqValid := true, nonseq := 0, dataValid := true, data := 0x1000,
                           compressedDataNybble := 4, compressedDataNumBytes := 2 }

/-- The largest record (R98). -/
def largest : PackedRecord :=
  { seqValid := true, seq := 5, nonseqValid := true, nonseq := 3, bkptValid := true, bkpt := 0xA, dataValid := true,
    dataReason := 1, data := 0x1BD5B7DDFF, compressedDataNybble := 6, compressedDataNumBytes := 5 }

def seqOnly (n : BitVec 3) : PackedRecord := { PackedRecord.skip with seqValid := true, seq := n }

def trapOnly : PackedRecord := { PackedRecord.skip with nonseqValid := true }

/-- What a next state shows: the cursor and the outcomes. -/
def shown (o : Host.Outcome State Fault Refusal) : Option (Nat × List DecodeOutcome) :=
  match o with
  | .next t => some (t.cursor, t.outcomes)
  | .fault _ => none
  | .refused _ => none

/-- What a next state shows of the producer: the count, the container and the stream. -/
def produced (o : Host.Outcome State Fault Refusal) : Option (BitVec 3 × CompressedRecord × List Nybble) :=
  match o with
  | .next t => some (t.pendingSeq, t.mem.container, t.mem.stream)
  | .fault _ => none
  | .refused _ => none

def refusal (o : Host.Outcome State Fault Refusal) : Option Refusal :=
  match o with
  | .next _ => none
  | .fault _ => none
  | .refused r => some r

/-! ## The checks refuse ill-formed terms -/

theorem test_wf_seq_zero : (Instr.seq 0).wf = false := by decide
theorem test_wf_pairs_six : (Instr.dataPc 6 0).wf = false ∧ (Instr.dataWb 7 0).wf = false := by decide
theorem test_wf_data_too_wide : (Instr.dataPc 1 0x100).wf = false ∧ (Instr.dataWb 0 1).wf = false := by decide
theorem test_rawWF_flag_without_instruction : rawWF defaults { idle with trap := true } = false := by decide
theorem test_rawWF_two_payloads : rawWF defaults branchAndWriteback = false := by decide
theorem test_packedWF_clause1 :
    packedWF { PackedRecord.skip with seqValid := true } = false ∧ packedWF { PackedRecord.skip with seq := 3 } = false := by decide
theorem test_packedWF_clauses2to4 :
    packedWF { PackedRecord.skip with nonseq := 1 } = false ∧ packedWF { PackedRecord.skip with bkpt := 1 } = false ∧
      packedWF { PackedRecord.skip with dataReason := 1 } = false ∧ packedWF { PackedRecord.skip with data := 1 } = false ∧
      packedWF { PackedRecord.skip with compressedDataNybble := 2 } = false ∧
      packedWF { PackedRecord.skip with compressedDataNumBytes := 1 } = false := by decide
theorem test_packedWF_clause5 :
    packedWF { scenario with compressedDataNumBytes := 6 } = false ∧ packedWF { scenario with compressedDataNumBytes := 1 } = false ∧
      packedWF { scenario with compressedDataNybble := 3 } = false := by decide
theorem test_packedWF_clause6 :
    packedWF { scenario with data := 0x100000000, compressedDataNumBytes := 5 } = false ∧
      packedWF { scenario with dataReason := 1, data := 0x2000000000, compressedDataNumBytes := 5 } = false := by decide
theorem test_compressedWF_refuses :
    compressedWF ⟨17, 0⟩ = false ∧ compressedWF ⟨1, 0x10⟩ = false ∧ compressedWF ⟨15, 0x1000000000000000⟩ = false := by decide
theorem test_decompressedWF_refuses :
    decompressedWF { DecompressedRecord.empty with trap := true, branchTaken := true } = false ∧
      decompressedWF { DecompressedRecord.empty with pcValid := true, writebackValid := true } = false ∧
      decompressedWF { DecompressedRecord.empty with seqValid := true } = false ∧
      decompressedWF { DecompressedRecord.empty with seq := 1 } = false ∧
      decompressedWF { DecompressedRecord.empty with programCounter := 1 } = false ∧
      decompressedWF { DecompressedRecord.empty with writebackValue := 1 } = false ∧
      decompressedWF { DecompressedRecord.empty with breakpointReason := 1 } = false := by decide
theorem test_outcomeWF_refuses :
    outcomeWF (.ok DecompressedRecord.empty 0) = false ∧ outcomeWF (.ok DecompressedRecord.empty 17) = false := by decide

/-! ## Words written from 30_encoding.md decode (one per constructor) -/

theorem test_decode_skip : decodeGroup [0b0000#4] = .ok (.skip, []) := by decide
theorem test_decode_seq : decodeGroup [0b0111#4] = .ok (.seq 7, []) := by decide
theorem test_decode_nseqTrap : decodeGroup [0b1000#4] = .ok (.nseqTrap, []) := by decide
theorem test_decode_nseqRet : decodeGroup [0b1001#4] = .ok (.nseqRet, []) := by decide
theorem test_decode_nseqJump : decodeGroup [0b1010#4] = .ok (.nseqJump, []) := by decide
theorem test_decode_nseqBranch : decodeGroup [0b1011#4] = .ok (.nseqBranch, []) := by decide
theorem test_decode_bkpt : decodeGroup [0b1101#4, 0b0011#4, 0b0101#4] = .ok (.bkpt 3, [0b0101#4]) := by decide
theorem test_decode_dataPc :
    decodeGroup [0b1100#4, 0b0010#4, 0b0000#4, 0b0000#4, 0b0000#4, 0b0001#4] = .ok (.dataPc 2 0x1000, []) := by decide
theorem test_decode_dataWb :
    decodeGroup [0b1100#4, 0b1010#4, 0b1010#4, 0b0100#4, 0b0101#4, 0b0000#4] = .ok (.dataWb 2 0x54A, []) := by decide
theorem test_decode_dataBadlen :
    decodeGroup [0b1100#4, 0b0110#4] = .ok (.dataBadlen 0 0, []) ∧ decodeGroup [0b1100#4, 0b1111#4] = .ok (.dataBadlen 1 1, []) := by
  decide
theorem test_decode_rsvd : decodeGroup [0b1110#4] = .ok (.rsvd 0, []) := by decide
theorem test_decode_rejects :
    decodeGroup [] = .error .exhausted ∧ decodeGroup [0b1101#4] = .error .truncated ∧
      decodeGroup [0b1100#4] = .error .truncated ∧ decodeGroup [0b1100#4, 0b0001#4, 0b0000#4] = .error .truncated := by decide

/-- The table's numbering: the first nybble in bits 3 to 0 (R61). -/
theorem test_table_word :
    decodeTableWord 8 0x3D = some (.bkpt 3) ∧ decodeTableWord 8 0x8C = some (.dataWb 0 0) ∧
      decodeTableWord 8 0x6C = some (.dataBadlen 0 0) ∧ decodeTableWord 8 0x05 = some (.seq 5) := by decide

/-- R60: `DATA.PC/2 0xABCD` in a record with the groups of vector E20. -/
theorem test_assemble_record :
    assembleRecord [.seq 2, .nseqBranch, .bkpt 5, asmDataPc 0xABCD] =
      some [2, 0xB, 0xD, 5, 0xC, 2, 0xD, 0xC, 0xB, 0xA] ∧
    assembleRecord [.nseqBranch, .seq 2] = none := by decide

/-! ## One step of each instruction (95_test_vectors.md section 4) -/

theorem test_step_skip : shown (step (channelAt [0, 0, 3] 1)) = some (2, [.ok DecompressedRecord.empty 1]) := by decide
/-- D15: a second SEQ starts a new record. -/
theorem test_step_seq :
    shown (step (channelAt [3, 5] 0)) = some (1, [.ok { DecompressedRecord.empty with seqValid := true, seq := 3 } 1]) := by decide
/-- F5: `3 D` at the end of the stream: the SEQ is not delivered. -/
theorem test_step_seq_then_truncated : shown (step (channelAt [3, 0xD] 0)) = some (0, [.fault .truncatedStream]) := by decide
theorem test_step_nseqTrap :
    shown (step (channelAt [8] 0)) = some (1, [.ok { DecompressedRecord.empty with trap := true } 1]) := by decide
theorem test_step_nseqRet :
    shown (step (channelAt [9, 8] 0)) = some (1, [.ok { DecompressedRecord.empty with isReturn := true } 1]) := by decide
theorem test_step_nseqJump :
    shown (step (channelAt [0xA] 0)) = some (1, [.ok { DecompressedRecord.empty with isIndirectJump := true } 1]) := by decide
theorem test_step_nseqBranch :
    shown (step (channelAt [0xB] 0)) = some (1, [.ok { DecompressedRecord.empty with branchTaken := true } 1]) := by decide
/-- D7: a reason nybble `1110` is not a reserved tag. -/
theorem test_step_bkpt :
    shown (step (channelAt [0xD, 0xE] 0)) =
      some (2, [.ok { DecompressedRecord.empty with breakpointValid := true, breakpointReason := 14 } 2]) := by decide
/-- D14: bits 39 to 32 are dropped. -/
theorem test_step_dataPc :
    shown (step (channelAt [0xC, 5, 15, 15, 15, 15, 15, 15, 15, 15, 15, 15] 0)) =
      some (12, [.ok { DecompressedRecord.empty with pcValid := true, programCounter := 0xFFFFFFFF } 12]) := by decide
/-- D13: bits 39 to 37 are dropped. -/
theorem test_step_dataWb :
    shown (step (channelAt [0xC, 0xD, 15, 15, 15, 15, 15, 15, 15, 15, 15, 15] 0)) =
      some (12, [.ok { DecompressedRecord.empty with
        writebackValid := true, writebackRegister := 31, writebackValue := 0xFFFFFFFF } 12]) := by decide
/-- F11: the length fault comes before the truncation. -/
theorem test_step_dataBadlen : shown (step (channelAt [0xC, 0xF, 1, 2] 0)) = some (0, [.fault .badDataLength]) := by decide
/-- F2: `1111` as well as `1110`. -/
theorem test_step_rsvd : shown (step (channelAt [0xF, 1] 0)) = some (0, [.fault .reservedTagEncountered]) := by decide
/-- F3: a reserved tag after a group ends the record without a fault. -/
theorem test_step_seq_then_rsvd :
    shown (step (channelAt [3, 0xE] 0)) = some (1, [.ok { DecompressedRecord.empty with seqValid := true, seq := 3 } 1]) := by decide
/-- D25: the longest record. -/
theorem test_step_longest :
    shown (step (channelAt [5, 0xB, 0xD, 0xA, 0xC, 0xD, 0xF, 0xF, 0xD, 0xD, 7, 0xB, 5, 0xD, 0xB, 1] 0)) =
      some (16, [.ok { DecompressedRecord.empty with
        seqValid := true, seq := 5, branchTaken := true, breakpointValid := true, breakpointReason := 10,
        writebackValid := true, writebackRegister := 31, writebackValue := 0xDEADBEEF } 16]) := by decide
theorem test_step_at_reset : shown (step State.reset) = some (0, [.exhausted]) := by decide
theorem test_step_past_end : refusal (step (channelAt [3] 2)) = some .cursorPastEnd := by decide
/-- The first instruction after reset, placed by the host's word. -/
theorem test_fetch_word :
    shown (step (State.reset.withFetchWord 8 0x3D)) =
      some (2, [.ok { DecompressedRecord.empty with breakpointValid := true, breakpointReason := 3 } 2]) := by decide

/-! ## The window form (W3, W6), the fault codes (R125), the byte view (program 1) -/

theorem test_window_avail_decides :
    decodeWindow 0x10002C83 5 = .fault .truncatedStream ∧
      decodeWindow 0xD 2 = .ok { DecompressedRecord.empty with breakpointValid := true } 2 := by decide
theorem test_fault_codes :
    outcomeCode .exhausted = 0 ∧ outcomeCode (.fault .reservedTagEncountered) = 1 ∧
      outcomeCode (.fault .truncatedStream) = 2 ∧ outcomeCode (.fault .badDataLength) = 3 := by decide
theorem test_bytes : toBytes [3, 8, 0xC, 2, 0, 0, 0, 1] = [0x83, 0x2C, 0x00, 0x10] := by decide

/-! ## The packer and the encoder (95_test_vectors.md sections 2 and 3) -/

/-- P5: the eighth plain retirement flushes 7 and starts at 1. -/
theorem test_pack_eighth : packCall defaults plain 7 = some (seqOnly 7, 1) := by decide
/-- P7: a trap outranks a taken branch. -/
theorem test_pack_trap :
    packCall defaults { plain with trap := true, branchTaken := true, branchTarget := 0x80 } 5 =
      some ({ scenario with seq := 5, data := 0x80, compressedDataNumBytes := 1 }, 0) := by decide
/-- P16: the largest record. -/
theorem test_pack_largest : packCall noDestinations branchAndWriteback 5 = some (largest, 0) := by decide
/-- E22. -/
theorem test_encode_largest : encodeCall largest = some ⟨16, 0x1BD5B7DDFFDCADB5⟩ := by decide
/-- R97: the scenario's fourth step. -/
theorem test_encode_scenario : encodeCall scenario = some ⟨8, 0x10002C83⟩ := by decide
/-- R84 and R97: the scenario's fourth raw record, presented with a count of 3. -/
theorem test_raw_scenario :
    produced (step ((State.reset.setPending 3).setInputs [.raw { plain with trap := true, branchTarget := 0x1000 }])) =
      some (0, ⟨8, 0x10002C83⟩, [3, 8, 0xC, 2, 0, 0, 0, 1]) := by decide
/-- 93 U24: a second producer on a stream is refused; a producer of a new stream is not. -/
theorem test_second_producer_refused :
    refusal (step ((channelAt [3] 0).setInputs [.raw plain])) = some .secondProducer ∧
      refusal (step ((State.reset.setProducer (some .packer)).setInputs [.compressed ⟨1, 3⟩])) = some .secondProducer ∧
      refusal (step ((State.reset.setProducer (some .packer)).setInputs [.load [3]])) = some .secondProducer ∧
      produced (step ((State.reset.setProducer (some .packer)).setInputs [.raw plain])) = some (1, ⟨0, 0⟩, []) := by decide
/-- R80: a run with a malformed record has no result. -/
theorem test_run_refused : packRun defaults 0 [plain, { idle with trap := true }] = none := by decide
/-- P17: a contract violation is refused. -/
theorem test_raw_refused :
    refusal (step (State.reset.setInputs [.raw { idle with trap := true }])) = some .rawNotWellFormed := by decide

/-! ## Witnesses: every obligation's hypotheses are met -/

theorem witness_DecodeInvertsEncode :
    (Instr.dataWb 5 0xFFFFFFFFFF).wf = true ∧ (Instr.dataPc 0 0).wf = true ∧ (Instr.seq 1).wf = true := by decide
theorem witness_EncodeInvertsDecode :
    decodeGroup [0xC#4, 9, 1, 2, 7] = .ok (.dataWb 1 0x21, [7]) ∧ decodeGroup [0xE#4] = .ok (.rsvd 0, []) := by decide
theorem witness_TagNybbleDecidesClassAndLength :
    decodeGroup [7#4, 1] = .ok (.seq 7, [1]) ∧ decodeGroup [8#4, 1] = .ok (.nseqTrap, [1]) ∧
      decodeGroup [0xD#4, 1, 2] = .ok (.bkpt 1, [2]) ∧ decodeGroup [0xC#4, 5, 0, 0, 0, 0, 0, 0, 0, 0, 0, 0, 2] = .ok (.dataPc 5 0, [2]) ∧
      tagClass 7 = .seq ∧ tagClass 8 = .nseq ∧ tagClass 0xD = .bkpt ∧ tagClass 0xC = .data ∧
      ((5#4).extractLsb' 0 3 : BitVec 3).toNat ≤ 5 := by decide
theorem witness_PayloadIsLeastSignificantFirst :
    ((0xD#4).extractLsb' 0 3 : BitVec 3).toNat ≤ 5 ∧
      ([1, 2, 3, 4, 5, 6, 7, 8, 9, 10] : List Nybble).length = 2 * ((0xD#4).extractLsb' 0 3 : BitVec 3).toNat ∧
      ([] : List Nybble).length = 2 * ((0x8#4).extractLsb' 0 3 : BitVec 3).toNat := by decide
theorem witness_PseudoFormsTakeLeastLength :
    (asmDataPcK 4 0xFFFFFFFF).wf = true ∧ (asmDataPcK 0 0).wf = true ∧ (asmDataWbK 5 31 0xFFFFFFFF).wf = true := by decide
theorem witness_SkipDeliversEmptyRecord : ([3, 0] : List Nybble)[1]? = some 0b0000#4 := by decide
theorem witness_SeqDeliversItsCount :
    recordEndsAt (channelAt [3] 0).mem.stream 1 1 = true ∧ recordEndsAt (channelAt [3, 4] 0).mem.stream 1 1 = true ∧
      recordEndsAt (channelAt [3, 0xE] 0).mem.stream 1 1 = true ∧ recordEndsAt (channelAt [3, 8] 0).mem.stream 1 1 = false ∧
      ([1, 7] : List Nybble)[(Parse.start 1).idx]? = some 7 ∧ 1 ≤ (7#4).toNat ∧ (7#4).toNat ≤ 7 ∧ 1 ≤ (1#4).toNat := by decide
theorem witness_NseqDeliversOneFlag :
    recordEndsAt (channelAt [8] 0).mem.stream 1 2 = true ∧ recordEndsAt (channelAt [8, 0xB] 0).mem.stream 1 2 = true ∧
      recordEndsAt (channelAt [8, 0xD] 0).mem.stream 1 2 = false ∧
      ([8, 0xB] : List Nybble)[(Parse.start 0).idx]? = some (0b10#2 ++ 0#2) ∧
      ([8, 0xB] : List Nybble)[(Parse.start 1).idx]? = some (0b10#2 ++ 3#2) := by decide
theorem witness_BkptDeliversItsReason :
    (channelAt [0xD, 1] 0).cursor + 2 ≤ (channelAt [0xD, 1] 0).mem.stream.length ∧ recordEndsAt (channelAt [0xD, 1] 0).mem.stream 2 3 = true ∧
      recordEndsAt (channelAt [0xD, 1, 0xD] 0).mem.stream 2 3 = true ∧
      (channelAt [0xD] 0).mem.stream.length ≤ (channelAt [0xD] 0).cursor + 1 ∧
      ([1, 0xD] : List Nybble)[(Parse.start 1).idx]? = some 0b1101#4 ∧
      (channelAt [1, 0xD] 1).mem.stream[(channelAt [1, 0xD] 1).cursor]? = some 0b1101#4 ∧
      (channelAt [1, 0xD] 1).mem.stream.length = (channelAt [1, 0xD] 1).cursor + 1 ∧ (channelAt [1, 0xD] 1).inputs = [] := by decide
theorem witness_DataPcDeliversProgramCounter :
    (5#3).toNat ≤ 5 ∧ (channelAt (List.replicate 12 0xC) 0).cursor + 2 + 2 * (5#3).toNat ≤ (channelAt (List.replicate 12 0xC) 0).mem.stream.length ∧
      (channelAt [0xC, 0] 0).cursor + 2 + 2 * (0#3).toNat ≤ (channelAt [0xC, 0] 0).mem.stream.length := by decide
theorem witness_DataGroupsInAParse :
    (⟨DecompressedRecord.empty, 2, 2⟩ : Parse).idx + 2 + 2 * (5#3).toNat ≤ 14 ∧ (⟨DecompressedRecord.empty, 0, 0⟩ : Parse).idx + 2 ≤ 2 := by
  decide
theorem witness_DataWbDeliversRegisterAndValue :
    (5#3).toNat ≤ 5 ∧ (channelAt (List.replicate 13 0xC) 1).cursor + 2 + 2 * (5#3).toNat ≤ (channelAt (List.replicate 13 0xC) 1).mem.stream.length := by
  decide
theorem witness_ShortDataGroupIsTruncated :
    (5#3).toNat ≤ 5 ∧ (channelAt (List.replicate 11 0xC) 0).mem.stream.length < (channelAt (List.replicate 11 0xC) 0).cursor + 2 + 2 * (5#3).toNat ∧
      (channelAt [0xC] 0).mem.stream.length < (channelAt [0xC] 0).cursor + 2 + 2 * (0#3).toNat ∧
      (channelAt [0xC] 0).mem.stream[0]? = some 0b1100#4 ∧ (channelAt [0xC] 0).mem.stream.length = 0 + 1 ∧
      (channelAt [0xC, 0xD, 1] 0).mem.stream[0 + 1]? = some 0xD ∧ ((0xD#4).extractLsb' 0 3 : BitVec 3).toNat ≤ 5 ∧
      (channelAt [0xC, 0xD, 1] 0).mem.stream.length < 0 + 2 + 2 * ((0xD#4).extractLsb' 0 3 : BitVec 3).toNat ∧
      (channelAt [0xC, 0xD, 1] 0).inputs = [] := by decide
theorem witness_ReservedLengthIsBadDataLength :
    (channelAt [0xC, 6] 0).cursor + 2 ≤ (channelAt [0xC, 6] 0).mem.stream.length ∧ ([0xC, 6] : List Nybble)[0]? = some 0b1100#4 ∧
      ([0xC, 6] : List Nybble)[0 + 1]? = some 6 ∧ 6 ≤ ((6#4).extractLsb' 0 3 : BitVec 3).toNat ∧
      6 ≤ ((0xF#4).extractLsb' 0 3 : BitVec 3).toNat ∧ ([3, 0xC, 7] : List Nybble)[(⟨DecompressedRecord.empty, 1, 1⟩ : Parse).idx]? = some 0b1100#4 ∧
      packedWF scenario = true ∧ instrsOfPacked scenario = [.seq 3, .nseqTrap, .dataPc 2 0x1000] := by decide
theorem witness_ReservedTagIsAFault :
    ([0xE] : List Nybble)[0]? = some 0xE ∧ (0xE#4).extractLsb' 1 3 = 0b111#3 ∧ (0xF#4).extractLsb' 1 3 = 0b111#3 := by decide
theorem witness_FirstGroupIsInTheRecord :
    Instr.bkpt 4 = .bkpt 4 ∧ (channelAt [0xD, 4] 0).cursor + 2 ≤ (channelAt [0xD, 4] 0).mem.stream.length := by decide
theorem witness_InstructionsChangeOnlyCursorAndOutcomes :
    ∃ t, exec (.seq 3) (channelAt [3, 8] 0) = .next t ∧ t.cursor = 2 := ⟨_, rfl, by decide⟩
theorem witness_StepRunsTheDecodedInstruction :
    (channelAt [3, 8] 1).cursor ≤ (channelAt [3, 8] 1).mem.stream.length ∧
      decodeGroup ((channelAt [3, 8] 1).mem.stream.drop (channelAt [3, 8] 1).cursor) = .ok (.nseqTrap, []) ∧
      (channelAt [3, 8] 1).inputs = [] ∧ ((channelAt [3, 8] 1).setInputs [.decode]).inputs = .decode :: [] :=
  ⟨by decide, by decide, rfl, rfl⟩
theorem witness_EndOfStreamIsExhausted :
    (channelAt [3] 1).cursor = (channelAt [3] 1).mem.stream.length := by decide
theorem witness_InstructionIsTheDecodeCall :
    standsAtCursor (.dataWb 2 0x54A) (channelAt [1, 0xC, 0xA, 0xA, 4, 5, 0] 1) = true ∧ standsAtCursor (.rsvd 1) (channelAt [0xF] 0) = true := by
  decide
theorem witness_StepRefinesTheDecoder : (channelAt [3] 0).inputs = [] := rfl
theorem witness_FaultChangesNothing :
    decodeCall (channelAt [3, 0xD] 0).mem.stream (channelAt [3, 0xD] 0).cursor = some (.fault .truncatedStream) := by decide
theorem witness_ReservedTagOnlyAtFirstNybble :
    packedWF largest = true ∧ decodeCall [0xF] 0 = some (.fault .reservedTagEncountered) ∧
      ([3, 0xE] : List Nybble)[(Parse.start 1).idx]? = some 0xE ∧ (0xE#4).extractLsb' 1 3 = 0b111#3 := by decide
theorem witness_TruncationHasThreePlaces :
    decodeCall [0xD] 0 = some (.fault .truncatedStream) ∧ decodeCall [0xC] 0 = some (.fault .truncatedStream) ∧
      decodeCall [3, 8, 0xD, 1, 0xC, 5, 0] 0 = some (.fault .truncatedStream) ∧
      ([0xC, 1, 0] : List Nybble).length < 0 + 2 + 2 * ((1#4).extractLsb' 0 3 : BitVec 3).toNat ∧
      inEmissionOrder 0 [.seq 3, .nseqTrap, .bkpt 1] = true ∧ (Instr.bkpt 1).wf = true ∧
      ([Instr.seq 3, .nseqTrap, .bkpt 1].flatMap encode).isPrefixOf ([3, 8, 0xD, 1, 0xC, 5, 0] : List Nybble) = true ∧
      recordEndsAt [3, 8, 0xD, 1, 0xC, 5, 0] 4 (stageAfter [.seq 3, .nseqTrap, .bkpt 1]) = false ∧
      (Parse.start 1).idx < ([3, 0xD] : List Nybble).length ∧
      parseGroup [3, 0xD] (Parse.start 1) = .error .truncatedStream := by decide
theorem witness_DecodedRecordsAreWellFormed :
    decodeCall [9, 0xC, 0] 0 = some (.ok { DecompressedRecord.empty with isReturn := true, pcValid := true } 3) := by decide
theorem witness_RecordIsTheGreedyCut :
    decodeCall [7, 9, 0xC, 0] 0 =
        some (.ok { DecompressedRecord.empty with seqValid := true, seq := 7, isReturn := true, pcValid := true } 4) ∧
      decodeCall [0, 9] 0 = some (.ok DecompressedRecord.empty 1) := by decide
theorem witness_DecodeUsesOnlyWhatFollows : 1 ≤ ([3] : List Nybble).length ∧ decodeCall [3] 1 = some .exhausted := by decide
theorem witness_WindowFormAgrees :
    1 ≤ ([3, 8] : List Nybble).length ∧ (1 : Fin 17).val = min 16 (([3, 8] : List Nybble).length - 1) ∧
      ∀ j, j < (1 : Fin 17).val → ([3, 8] : List Nybble)[1 + j]? = some (nyb 0x8 j) := by
  refine ⟨by decide, by decide, fun j hj => ?_⟩
  obtain rfl : j = 0 := Nat.lt_one_iff.1 hj
  decide
theorem witness_ConsumerLoopEnds :
    0 ≤ ([3, 0xE] : List Nybble).length ∧ ([3, 0xE] : List Nybble).length - 0 ≤ 2 ∧
      (consumerLoop [3, 0xE] 2 0).2 = 1 ∧ (consumerLoop [3, 8] 2 0).2 = 2 := by decide
theorem witness_RoundTripRecoversEveryGroup :
    (∀ r ∈ [(2, scenario), (0, PackedRecord.skip), (1, largest)], packedWF r.2 = true) ∧ scenario ≠ PackedRecord.skip := by decide
theorem witness_AdjacentRecordsMerge :
    packedWF (seqOnly 7) = true ∧ packedWF trapOnly = true ∧ seqOnly 7 ≠ PackedRecord.skip ∧ trapOnly ≠ PackedRecord.skip ∧
      mergesWith (seqOnly 7) trapOnly = true := by decide
theorem witness_FillerChangesNoGroup :
    decodesWhole [3, 8, 0xC, 0] = true ∧ groupStarts [3, 8, 0xC, 0] = [0, 1, 2, 4] := by decide
theorem witness_EveryCycleIsOfOneKind : rawWF defaults plain = true := by decide
theorem witness_CountIsKeptFlushedOrStarted :
    rawWF defaults idle = true ∧ rawWF defaults plain = true ∧ rawWF defaults { idle with breakpointValid := true } = true ∧
      isIdle defaults idle = true ∧ isPlain defaults plain = true ∧ (6#3).toNat < 7 ∧ (7#3).toNat = 7 ∧
      isInteresting defaults { idle with breakpointValid := true } = true ∧ (0#3).toNat = 0 ∧ 0 < (1#3).toNat := by decide
theorem witness_ReasonAndBreakpointFollowTheRecord :
    rawWF noDestinations branchAndWriteback = true ∧ rawWF defaults { plain with trap := true } = true ∧
      rawWF defaults { plain with isReturn := true } = true ∧ rawWF defaults { plain with isIndirectJump := true } = true ∧
      rawWF defaults idle = true ∧ (branchAndWriteback.instructionValid = true ∧ branchAndWriteback.trap = false ∧ branchAndWriteback.isReturn = false ∧
        branchAndWriteback.isIndirectJump = false ∧ branchAndWriteback.branchTaken = true ∧
        branchAndWriteback.breakpointValid = true) ∧
      { plain with trap := true }.trap = true ∧ { plain with isReturn := true }.isReturn = true ∧
      { plain with isIndirectJump := true }.isIndirectJump = true ∧ idle.instructionValid = false ∧
      idle.breakpointValid = false := by decide
theorem witness_DataGroupFollowsTheRecord :
    (rawWF noDestinations branchAndWriteback = true ∧ noDestinations.wbLogged branchAndWriteback = true ∧
        noDestinations.pcLogged branchAndWriteback = false) ∧
      (rawWF defaults { plain with trap := true } = true ∧ isNonsequential { plain with trap := true } = true ∧
        defaults.pcLogged { plain with trap := true } = true) ∧
      (rawWF defaults plain = true ∧ isNonsequential plain = false ∧ defaults.wbLogged plain = false) := by decide
theorem witness_LengthHintIsLeast :
    rawWF noDestinations branchAndWriteback = true ∧
      rawWF defaults { plain with trap := true, branchTarget := 0xFFFFFFFF } = true ∧
      rawWF defaults { plain with retireValid := true, writebackValid := true, writebackValue := 0x8000000 } = true ∧
      (packStep noDestinations branchAndWriteback 5).1.dataValid = true ∧
      (packStep defaults { plain with trap := true, branchTarget := 0xFFFFFFFF } 0).1.dataValid = true ∧
      (packStep defaults { plain with retireValid := true, writebackValid := true, writebackValue := 0x8000000 } 0).1.dataReason = 1 := by
  decide
theorem witness_OffsetHintIsTheEncodersOffset :
    rawWF noDestinations branchAndWriteback = true ∧ rawWF defaults { plain with trap := true } = true ∧
      (packStep noDestinations branchAndWriteback 5).1.dataValid = true ∧
      (packStep defaults { plain with trap := true } 0).1.dataValid = true := by decide
theorem witness_PackerOutputIsWellFormed :
    rawWF noDestinations branchAndWriteback = true ∧ rawWF defaults plain = true ∧ rawWF defaults idle = true := by decide
theorem witness_RetirementsAreConserved :
    (∀ raw ∈ [plain, idle, { idle with breakpointValid := true }], rawWF defaults raw = true) ∧
      rawWF defaults { idle with trap := true } = false := by decide
theorem witness_IgnoredInputsChangeNothing :
    sameButUnread { plain with privilegeMode := 0 } { plain with privilegeMode := BitVec.allOnes _ } ∧
      PolicyChoice.default.payload = .branchTarget ∧
      sameButIgnored { plain with programCounter := 8 } { plain with programCounter := 4 } ∧
      defaults.wbLogged { plain with programCounter := 8 } = defaults.wbLogged { plain with programCounter := 4 } ∧
      defaults.pcLogged { plain with programCounter := 8 } = defaults.pcLogged { plain with programCounter := 4 } ∧
      defaults.pcPayload { plain with programCounter := 8 } = defaults.pcPayload { plain with programCounter := 4 } :=
  ⟨rfl, rfl, rfl, by decide, by decide, by decide⟩
theorem witness_EmissionsTileTheContainer : packedWF largest = true ∧ packedWF PackedRecord.skip = true := by decide
theorem witness_EncodedGroupsStandInOrder :
    packedWF scenario = true ∧ packedWF largest = true ∧ largest.seqValid = true ∧ largest.nonseqValid = true ∧
      largest.bkptValid = true ∧ largest.dataValid = true ∧ 0 < 2 * largest.compressedDataNumBytes.toNat := by decide
theorem witness_RecordFitsTheContainer :
    packedWF largest = true ∧ totalNybbles largest = 16 ∧ { largest with compressedDataNumBytes := 6 }.dataValid = true ∧
      6 ≤ { largest with compressedDataNumBytes := 6 }.compressedDataNumBytes.toNat := by decide
theorem witness_SkipRecordEncodesToNothing : packedWF PackedRecord.skip = true ∧ packedWF (seqOnly 1) = true := by decide
theorem witness_EncodingIsInjective :
    packedWF scenario = true ∧ validNybbles (encodeRecord scenario) = validNybbles (encodeRecord scenario) := by decide
theorem witness_RawRecordIsPackedEncodedAndAppended :
    (State.reset.setInputs [.raw plain]).inputs = .raw plain :: [] ∧
      rawWF (paramsOf (State.reset.setInputs [.raw plain]).policy) plain = true ∧
      rawWF (paramsOf State.reset.policy) branchAndWriteback = false ∧ (State.reset.setInputs [.raw plain]).producer = none ∧
      (channelAt [3] 0).producer ≠ none ∧ (channelAt [3] 0).producer ≠ some .packer ∧
      (channelAt [3] 0).producer ≠ some .encodeCaller ∧ (channelAt [3] 0).producer ≠ some .appendCaller :=
  ⟨rfl, by decide, by decide, rfl, by decide, by decide, by decide, by decide⟩
theorem witness_PackedRecordIsEncodedAndAppended :
    (State.reset.setInputs [.packed largest]).inputs = .packed largest :: [] ∧ packedWF largest = true ∧
      packedWF (seqOnly 0) = false := ⟨rfl, by decide, by decide⟩
theorem witness_AppendAddsTheValidNybbles :
    (State.reset.setInputs [.compressed ⟨2, 0xED⟩]).inputs = .compressed ⟨2, 0xED⟩ :: [] ∧ compressedWF ⟨2, 0xED⟩ = true ∧
      compressedWF ⟨16, 0xFFFFFFFFFFFFFFFF⟩ = true ∧ compressedWF ⟨17, 0⟩ = false := ⟨rfl, by decide, by decide, by decide⟩
theorem witness_EnvironmentActionsDoWhatTheySay :
    ((channelAt [3, 8] 1).cursor ≤ 1 ∧ 2 ≤ (channelAt [3, 8] 1).mem.stream.length) ∧ 0 < (channelAt [3, 8] 1).cursor ∧
      (channelAt [3, 8] 1).mem.stream.length < 3 ∧ (channelAt [3, 8] 1).producer = some .elsewhere ∧
      (State.reset.setProducer (some .packer)).producer ≠ none ∧
      (State.reset.setProducer (some .packer)).producer ≠ some .elsewhere := by decide
theorem witness_ByteViewHoldsTwoNybblesAByte :
    (toBytes [3, 8, 0xC])[1]? = some 0x0C ∧ (toBytes [3, 8])[0]? = some 0x83 := by decide
theorem witness_StepKeepsStateInv :
    (channelAt [3, 8] 0).inv = true ∧ ∃ t, step (channelAt [3, 8] 0) = .next t := ⟨by decide, _, rfl⟩
theorem witness_ChannelsShareNothing :
    ∃ after, stepChannel 1 [channelAt [3] 0, channelAt [8] 0] = .next after := ⟨_, rfl⟩

end Sys2Proof.Tests
end

section
/-!
PROOFS. The payload of a data group: the nybbles of an assembled value, and the value that a value's nybbles assemble (R35, R52).
-/

namespace Sys2Proof

@[simp] theorem payloadNybbles_length (data : DataValue) (n : Nat) : (payloadNybbles data n).length = n := by
  simp [payloadNybbles]

theorem nybblesToNat_append (low high : List Nybble) :
    nybblesToNat (low ++ high) = nybblesToNat low + 16 ^ low.length * nybblesToNat high := by
  induction low with
  | nil => simp [nybblesToNat]
  | cons x low ih =>
    simp only [List.cons_append, nybblesToNat, ih, List.length_cons, Nat.pow_succ']
    ring

theorem nybblesToNat_lt (l : List Nybble) : nybblesToNat l < 16 ^ l.length := by
  induction l with
  | nil => simp [nybblesToNat]
  | cons x l ih =>
    have hx := x.isLt
    simp only [nybblesToNat, List.length_cons, Nat.pow_succ']
    omega

/-- Digit `j` of the number that nybbles make is nybble `j` (R35). -/
theorem nybblesToNat_digit (l : List Nybble) (j : Nat) (hj : j < l.length) :
    nybblesToNat l / 16 ^ j % 16 = l[j].toNat := by
  induction l generalizing j with
  | nil => cases hj
  | cons x l ih =>
    have hx := x.isLt
    cases j with
    | zero =>
      simp only [nybblesToNat, List.getElem_cons_zero]
      omega
    | succ j =>
      have hdiv : (x.toNat + 16 * nybblesToNat l) / 16 = nybblesToNat l := by omega
      simp only [nybblesToNat, List.getElem_cons_succ, Nat.pow_succ', ← Nat.div_div_eq_div_mul, hdiv]
      exact ih j (by simpa using hj)

/-- Nybble `j` of a data value is its digit `j` in base 16 (R35). -/
theorem dataNybble_toNat (data : DataValue) (j : Nat) :
    (data.extractLsb' (4 * j) 4).toNat = data.toNat / 16 ^ j % 16 := by
  simp [BitVec.extractLsb'_toNat, Nat.shiftRight_eq_div_pow, Nat.pow_mul]

/-- A payload of at most ten nybbles is assembled without loss: it fits the 40 bits of a data value (R52). -/
theorem assemblePayload_toNat (payload : List Nybble) (h : payload.length ≤ 10) :
    (assemblePayload payload).toNat = nybblesToNat payload := by
  have hfit : nybblesToNat payload < 2 ^ 40 :=
    calc nybblesToNat payload < 16 ^ payload.length := nybblesToNat_lt payload
      _ ≤ 16 ^ 10 := Nat.pow_le_pow_right (by decide) h
      _ = 2 ^ 40 := by decide
  rw [assemblePayload, BitVec.toNat_ofNat, Nat.mod_eq_of_lt hfit]

/-- Nybble `j` of the assembled value is payload nybble `j` (R52). -/
theorem assemblePayload_nybble (payload : List Nybble) (h : payload.length ≤ 10) (j : Nat) (hj : j < payload.length) :
    (assemblePayload payload).extractLsb' (4 * j) 4 = payload[j] := by
  apply BitVec.eq_of_toNat_eq
  rw [dataNybble_toNat, assemblePayload_toNat payload h, nybblesToNat_digit payload j hj]

/-- The assembled value is zero-extended (R52). -/
theorem assemblePayload_high_bit (payload : List Nybble) (h : payload.length ≤ 10) (b : Nat) (hb : 4 * payload.length ≤ b) :
    (assemblePayload payload).getLsbD b = false := by
  rw [BitVec.getLsbD, assemblePayload_toNat payload h]
  apply Nat.testBit_lt_two_pow
  calc nybblesToNat payload < 16 ^ payload.length := nybblesToNat_lt payload
    _ = 2 ^ (4 * payload.length) := by rw [Nat.pow_mul]
    _ ≤ 2 ^ b := Nat.pow_le_pow_right (by decide) hb

/-- The first `n` nybbles of a data value make its `n` low digits (R35). -/
theorem nybblesToNat_payloadNybbles (data : DataValue) (n : Nat) :
    nybblesToNat (payloadNybbles data n) = data.toNat % 16 ^ n := by
  induction n with
  | zero => simp [payloadNybbles, nybblesToNat, Nat.mod_one]
  | succ n ih =>
    have hsnoc : payloadNybbles data (n + 1) = payloadNybbles data n ++ [data.extractLsb' (4 * n) 4] := by
      simp [payloadNybbles, List.range_succ]
    rw [hsnoc, nybblesToNat_append, ih, payloadNybbles_length, Nat.mod_pow_succ]
    simp only [nybblesToNat, dataNybble_toNat, Nat.mul_zero, Nat.add_zero]

/-- A data value that `n` nybbles hold is assembled from its first `n` nybbles (R52, R90). -/
theorem assemblePayload_payloadNybbles (data : DataValue) (n : Nat) (hfit : data.toNat < 16 ^ n) :
    assemblePayload (payloadNybbles data n) = data := by
  rw [assemblePayload, nybblesToNat_payloadNybbles, Nat.mod_eq_of_lt hfit, BitVec.ofNat_toNat, BitVec.setWidth_eq]

/-- The DATA group of a reason bit: 0 a program counter, 1 a writeback (R51). -/
def dataOfReason (r : BitVec 1) (pairs : BitVec 3) (data : DataValue) : Instr :=
  if r = 0 then .dataPc pairs data else .dataWb pairs data

theorem dataOfReason_eq (r : BitVec 1) (pairs : BitVec 3) (data : DataValue) :
    dataOfReason r pairs data = .dataPc pairs data ∨ dataOfReason r pairs data = .dataWb pairs data := by
  obtain rfl | rfl := r.eq_zero_or_eq_one
  · exact .inl rfl
  · exact .inr rfl

/-- A data group with its payload there decodes to the payload's value, and what follows is left (R51, R52). -/
theorem decodeGroup_data_append (header : Nybble) (payload rest : List Nybble)
    (hk : (header.extractLsb' 0 3 : BitVec 3).toNat ≤ 5)
    (hl : payload.length = 2 * (header.extractLsb' 0 3 : BitVec 3).toNat) :
    decodeGroup (0b1100#4 :: header :: (payload ++ rest)) =
      .ok (dataOfReason (header.extractLsb' 3 1) (header.extractLsb' 0 3) (assemblePayload payload), rest) := by
  have hthere : 2 * (header.extractLsb' 0 3 : BitVec 3).toNat ≤ (payload ++ rest).length := by
    rw [List.length_append, ← hl]
    exact Nat.le_add_right _ _
  rw [decodeGroup_data _ header _ ((tagClass_eq_data _).2 rfl) hk hthere, ← hl, List.take_left, List.drop_left]
  rfl

end Sys2Proof

namespace Sys2Proof.Proofs

/-- Settles O6: the data value is the assembled payload. -/
theorem payloadIsLeastSignificantFirst : Obligations.PayloadIsLeastSignificantFirst := by
  intro header payload rest hk hl
  have h10 : payload.length ≤ 10 := by omega
  refine ⟨assemblePayload payload, ?_, fun j hj => ?_, assemblePayload_high_bit payload h10⟩
  · rw [decodeGroup_data_append header payload rest hk hl]
    exact (dataOfReason_eq _ _ _).imp (fun h => by rw [h]) (fun h => by rw [h])
  · rw [List.getElem?_eq_getElem hj, assemblePayload_nybble payload h10 j hj]

end Sys2Proof.Proofs
end

section
/-!
PROOFS. Decoding inverts encoding for one group, so nybbles that encode a list of groups encode no other list (R45 to R53).
-/

namespace Sys2Proof

/-- The nybble of a SEQ group with a legal count: its class and its count (R47). -/
theorem tagClass_seqNybble : ∀ n : BitVec 3, seqCountLegal n = true →
    tagClass (0b0#1 ++ n) = .seq ∧ (0b0#1 ++ n : Nybble).extractLsb' 0 3 = n := by decide

/-- The nybble of a reserved tag: its class and its last bit (R57). -/
theorem tagClass_rsvdNybble : ∀ x : BitVec 1,
    tagClass (0b111#3 ++ x) = .rsvd ∧ (0b111#3 ++ x : Nybble).extractLsb' 0 1 = x := by decide

theorem dataHeader_reason (r : BitVec 1) (pairs : BitVec 3) : (dataHeader r pairs).extractLsb' 3 1 = r := by
  revert r pairs; decide

theorem dataHeader_pairs (r : BitVec 1) (pairs : BitVec 3) : (dataHeader r pairs).extractLsb' 0 3 = pairs := by
  revert r pairs; decide

/-- The header of a reserved length: its `NNN` is above 5 and its last bit is kept (R56). -/
theorem dataHeader_badlen : ∀ r n : BitVec 1,
    5 < ((dataHeader r (0b11#2 ++ n)).extractLsb' 0 3 : BitVec 3).toNat ∧
      (dataHeader r (0b11#2 ++ n)).extractLsb' 0 1 = n := by decide

/-- Both DATA groups are written alike: the tag, the header with the reason bit, the payload (R51, R90). -/
theorem encode_dataOfReason (r : BitVec 1) (pairs : BitVec 3) (data : DataValue) :
    encode (dataOfReason r pairs data) =
      0b1100#4 :: dataHeader r pairs :: payloadNybbles data (2 * pairs.toNat) := by
  obtain rfl | rfl := r.eq_zero_or_eq_one <;> rfl

theorem dataOfReason_wf (r : BitVec 1) (pairs : BitVec 3) (data : DataValue) :
    (dataOfReason r pairs data).wf = true ↔ pairs.toNat ≤ 5 ∧ data.toNat < 2 ^ (8 * pairs.toNat) := by
  obtain h | h := dataOfReason_eq r pairs data <;> simp [h, Instr.wf, pairsLegal, dataFits]

theorem dataOfReason_injective {r r' : BitVec 1} {pairs pairs' : BitVec 3} {data data' : DataValue}
    (h : dataOfReason r pairs data = dataOfReason r' pairs' data') : r = r' ∧ pairs = pairs' ∧ data = data' := by
  obtain rfl | rfl := r.eq_zero_or_eq_one
  · obtain rfl | rfl := r'.eq_zero_or_eq_one
    · exact ⟨rfl, Instr.dataPc.inj h⟩
    · cases h
  · obtain rfl | rfl := r'.eq_zero_or_eq_one
    · cases h
    · exact ⟨rfl, Instr.dataWb.inj h⟩

theorem tagClass_dataOfReason (r : BitVec 1) (pairs : BitVec 3) (data : DataValue) :
    (dataOfReason r pairs data).tagClass = .data := by
  obtain h | h := dataOfReason_eq r pairs data <;> rw [h] <;> rfl

theorem nseqOfReason_wf : ∀ rr : BitVec 2, (nseqOfReason rr).wf = true := by decide

theorem nseqOfReason_injective : ∀ rr rr' : BitVec 2, nseqOfReason rr = nseqOfReason rr' → rr = rr' := by decide

theorem tagClass_nseqOfReason : ∀ rr : BitVec 2, (nseqOfReason rr).tagClass = .nseq := by decide

theorem encode_nseqOfReason (rr : BitVec 2) : encode (nseqOfReason rr) = [0b10#2 ++ rr] := by
  revert rr; decide

theorem decodeGroup_encode_dataOfReason (r : BitVec 1) (pairs : BitVec 3) (data : DataValue) (rest : List Nybble)
    (h : (dataOfReason r pairs data).wf = true) :
    decodeGroup (encode (dataOfReason r pairs data) ++ rest) = .ok (dataOfReason r pairs data, rest) := by
  obtain ⟨hk, hfit⟩ := (dataOfReason_wf r pairs data).1 h
  have hfit16 : data.toNat < 16 ^ (2 * pairs.toNat) := by
    rwa [show (16 : Nat) = 2 ^ 4 from rfl, ← Nat.pow_mul, ← Nat.mul_assoc]
  rw [encode_dataOfReason, List.cons_append, List.cons_append,
    decodeGroup_data_append _ _ rest (by rwa [dataHeader_pairs]) (by rw [dataHeader_pairs, payloadNybbles_length]),
    dataHeader_reason, dataHeader_pairs, assemblePayload_payloadNybbles data _ hfit16]

/-- Decoding the nybbles of a well-formed group, whatever follows them, gives the group and what follows (R45 to R53). -/
theorem decodeGroup_encode (i : Instr) (rest : List Nybble) (h : i.wf = true) :
    decodeGroup (encode i ++ rest) = .ok (i, rest) := by
  cases i with
  | skip => rfl
  | seq n =>
    obtain ⟨htag, hn⟩ := tagClass_seqNybble n h
    obtain ⟨-, hseq, -⟩ := decodeGroup_by_class (0b0#1 ++ n) rest
    exact (hseq htag).trans (by rw [hn])
  | nseqTrap => rfl
  | nseqRet => rfl
  | nseqJump => rfl
  | nseqBranch => rfl
  | bkpt reason => rfl
  | dataPc pairs data => exact decodeGroup_encode_dataOfReason 0 pairs data rest h
  | dataWb pairs data => exact decodeGroup_encode_dataOfReason 1 pairs data rest h
  | dataBadlen r n =>
    obtain ⟨hlong, hn⟩ := dataHeader_badlen r n
    exact (decodeGroup_badlen _ _ rest ((tagClass_eq_data _).2 rfl) hlong).trans (by rw [hn, dataHeader_reason])
  | rsvd x =>
    obtain ⟨htag, hx⟩ := tagClass_rsvdNybble x
    obtain ⟨-, -, -, hrsvd, -⟩ := decodeGroup_by_class (0b111#3 ++ x) rest
    exact (hrsvd htag).trans (by rw [hx])

theorem encode_ne_nil (i : Instr) : encode i ≠ [] := by
  cases i <;> simp [encode]

/-- Well-formed groups in a row are read back from their nybbles: the lists of groups are equal where the nybbles are. -/
theorem flatMap_encode_injective (is js : List Instr) (hi : ∀ i ∈ is, i.wf = true) (hj : ∀ j ∈ js, j.wf = true)
    (h : is.flatMap encode = js.flatMap encode) : is = js := by
  induction is generalizing js with
  | nil =>
    cases js with
    | nil => rfl
    | cons j js => simp [encode_ne_nil] at h
  | cons i is ih =>
    cases js with
    | nil => simp [encode_ne_nil] at h
    | cons j js =>
      rw [List.flatMap_cons, List.flatMap_cons] at h
      have hread := congrArg decodeGroup h
      rw [decodeGroup_encode i _ (hi i (by simp)), decodeGroup_encode j _ (hj j (by simp))] at hread
      obtain ⟨rfl, hrest⟩ : i = j ∧ is.flatMap encode = js.flatMap encode := by simpa using hread
      rw [ih js (fun k hk => hi k (by simp [hk])) (fun k hk => hj k (by simp [hk])) hrest]

end Sys2Proof
end

section
/-!
PROOFS. The clauses of PackedWF by name, and the groups of a well-formed record (R15, R54).
-/

namespace Sys2Proof.Machine

/-- The clauses of `packedWF` (R15), each under its own name. -/
structure PackedClauses (p : PackedRecord) : Prop where
  seq_ne_zero : p.seqValid = true → p.seq ≠ 0
  seq_zero : p.seqValid = false → p.seq = 0
  nonseq_zero : p.nonseqValid = false → p.nonseq = 0
  bkpt_zero : p.bkptValid = false → p.bkpt = 0
  reason_zero : p.dataValid = false → p.dataReason = 0
  data_zero : p.dataValid = false → p.data = 0
  hint_zero : p.dataValid = false → p.compressedDataNybble = 0
  pairs_zero : p.dataValid = false → p.compressedDataNumBytes = 0
  pairs_le : p.dataValid = true → p.compressedDataNumBytes.toNat ≤ 5
  data_fits : p.dataValid = true → p.data.toNat < 2 ^ (8 * p.compressedDataNumBytes.toNat)
  hint : p.dataValid = true →
    p.compressedDataNybble.toNat = p.seqValid.toNat + p.nonseqValid.toNat + 2 * p.bkptValid.toNat + 2
  width : p.dataValid = true → p.data.toNat < 2 ^ (if p.dataReason = 0 then 32 else 37)

theorem packedSeqWF_iff (p : PackedRecord) :
    packedSeqWF p = true ↔ (p.seqValid = true → p.seq ≠ 0) ∧ (p.seqValid = false → p.seq = 0) := by
  cases h : p.seqValid <;> simp [packedSeqWF, h]

theorem packedInvalidZeroWF_iff (p : PackedRecord) :
    packedInvalidZeroWF p = true ↔
      (p.nonseqValid = false → p.nonseq = 0) ∧ (p.bkptValid = false → p.bkpt = 0) ∧
        (p.dataValid = false →
          p.dataReason = 0 ∧ p.data = 0 ∧ p.compressedDataNybble = 0 ∧ p.compressedDataNumBytes = 0) := by
  simp only [packedInvalidZeroWF, Bool.and_eq_true, Bool.or_eq_true, beq_iff_eq, and_assoc, ← Bool.not_eq_true,
    ← or_iff_not_imp_left]

theorem packedHintsWF_iff (p : PackedRecord) :
    packedHintsWF p = true ↔ (p.dataValid = true →
      p.compressedDataNumBytes.toNat ≤ 5 ∧ p.data.toNat < 2 ^ (8 * p.compressedDataNumBytes.toNat) ∧
        p.compressedDataNybble.toNat = p.seqValid.toNat + p.nonseqValid.toNat + 2 * p.bkptValid.toNat + 2) := by
  cases h : p.dataValid <;> simp [packedHintsWF, h, and_assoc]

theorem packedWidthWF_iff (p : PackedRecord) :
    packedWidthWF p = true ↔ (p.dataValid = true → p.data.toNat < 2 ^ (if p.dataReason = 0 then 32 else 37)) := by
  cases h : p.dataValid
  · simp [packedWidthWF, h]
  · simp only [packedWidthWF, h]
    split <;> simp

theorem packedWF_iff (p : PackedRecord) : packedWF p = true ↔ PackedClauses p := by
  simp only [packedWF, Bool.and_eq_true, packedSeqWF_iff, packedInvalidZeroWF_iff, packedHintsWF_iff, packedWidthWF_iff]
  constructor
  · simp only [forall_and]
    rintro ⟨⟨⟨⟨hseq, hseq0⟩, hnsq0, hbk0, hreason0, hdata0, hhint0, hpairs0⟩, hpairs, hfits, hhint⟩, hwidth⟩
    exact ⟨hseq, hseq0, hnsq0, hbk0, hreason0, hdata0, hhint0, hpairs0, hpairs, hfits, hhint, hwidth⟩
  · intro c
    exact ⟨⟨⟨⟨c.seq_ne_zero, c.seq_zero⟩, c.nonseq_zero, c.bkpt_zero,
        fun hv => ⟨c.reason_zero hv, c.data_zero hv, c.hint_zero hv, c.pairs_zero hv⟩⟩,
      fun hv => ⟨c.pairs_le hv, c.data_fits hv, c.hint hv⟩⟩, c.width⟩

/-! ## The groups of a record -/

/-- A group that a record carries where its valid flag is set. -/
def guarded (valid : Bool) (i : Instr) : List Instr := if valid then [i] else []

@[simp] theorem guarded_false (i : Instr) : guarded false i = [] := rfl

theorem mem_guarded (valid : Bool) (i j : Instr) : j ∈ guarded valid i ↔ valid = true ∧ j = i := by
  cases valid <;> simp [guarded]

theorem filter_guarded (f : Instr → Bool) (valid : Bool) (i : Instr) :
    (guarded valid i).filter f = guarded (valid && f i) i := by
  cases valid <;> cases h : f i <;> simp [guarded, h]

theorem flatMap_encode_guarded (valid : Bool) (i : Instr) :
    (guarded valid i).flatMap encode = if valid then encode i else [] := by
  cases valid <;> simp [guarded]

theorem guarded_eq_guarded (v w : Bool) (i j : Instr) : guarded v i = guarded w j ↔ v = w ∧ (v = true → i = j) := by
  cases v <;> cases w <;> simp [guarded]

/-- The groups of a record in emission order (R54), each under its valid flag. -/
theorem instrsOfPacked_eq (p : PackedRecord) :
    instrsOfPacked p =
      guarded p.seqValid (.seq p.seq) ++ guarded p.nonseqValid (nseqOfReason p.nonseq)
        ++ guarded p.bkptValid (.bkpt p.bkpt)
        ++ guarded p.dataValid (dataOfReason p.dataReason p.compressedDataNumBytes p.data) := rfl

/-- Every group of a well-formed record is a group of the format. -/
theorem instrsOfPacked_wf (p : PackedRecord) (h : packedWF p = true) : ∀ i ∈ instrsOfPacked p, i.wf = true := by
  have c := (packedWF_iff p).1 h
  intro i hi
  simp only [instrsOfPacked_eq, List.mem_append, mem_guarded, or_assoc] at hi
  obtain ⟨hv, rfl⟩ | ⟨-, rfl⟩ | ⟨-, rfl⟩ | ⟨hv, rfl⟩ := hi
  · simpa [Instr.wf, seqCountLegal] using c.seq_ne_zero hv
  · exact nseqOfReason_wf p.nonseq
  · rfl
  · exact (dataOfReason_wf _ _ _).2 ⟨c.pairs_le hv, c.data_fits hv⟩

/-- The group of one class in a record is found by its tag: there is at most one of each (R54). -/
theorem instrsOfPacked_filter (p : PackedRecord) :
    (instrsOfPacked p).filter (fun i => i.tagClass = .seq) = guarded p.seqValid (.seq p.seq) ∧
      (instrsOfPacked p).filter (fun i => i.tagClass = .nseq) = guarded p.nonseqValid (nseqOfReason p.nonseq) ∧
      (instrsOfPacked p).filter (fun i => i.tagClass = .bkpt) = guarded p.bkptValid (.bkpt p.bkpt) ∧
      (instrsOfPacked p).filter (fun i => i.tagClass = .data) =
        guarded p.dataValid (dataOfReason p.dataReason p.compressedDataNumBytes p.data) := by
  have hseq : (Instr.seq p.seq).tagClass = .seq := rfl
  have hbkpt : (Instr.bkpt p.bkpt).tagClass = .bkpt := rfl
  simp [instrsOfPacked_eq, filter_guarded, hseq, tagClass_nseqOfReason, hbkpt, tagClass_dataOfReason]

/-! ## A well-formed record is known by its groups -/

/-- Two fields that agree where they are valid, and are 0 where not, agree. -/
theorem field_eq_of_valid {w : Nat} {v v' : Bool} {x y : BitVec w} (hv : v = v') (hxy : v = true → x = y)
    (hx : v = false → x = 0) (hy : v' = false → y = 0) : x = y := by
  subst hv
  cases v with
  | true => exact hxy rfl
  | false => exact (hx rfl).trans (hy rfl).symm

/-- The offset hint of a well-formed record follows from its valid flags (R15 clause 5, R76). -/
theorem compressedDataNybble_eq (p : PackedRecord) (h : packedWF p = true) :
    p.compressedDataNybble = if p.dataValid then offsetHint p.seqValid p.nonseqValid p.bkptValid else 0 := by
  have c := (packedWF_iff p).1 h
  cases hv : p.dataValid with
  | false => exact c.hint_zero hv
  | true =>
    apply BitVec.eq_of_toNat_eq
    rw [c.hint hv, if_pos rfl]
    cases p.seqValid <;> cases p.nonseqValid <;> cases p.bkptValid <;> rfl

/-- Well-formed records with the same groups are the same record, hints included. -/
theorem instrsOfPacked_injective (p q : PackedRecord) (hp : packedWF p = true) (hq : packedWF q = true)
    (h : instrsOfPacked p = instrsOfPacked q) : p = q := by
  have cp := (packedWF_iff p).1 hp
  have cq := (packedWF_iff q).1 hq
  obtain ⟨pseq, pnseq, pbkpt, pdata⟩ := instrsOfPacked_filter p
  obtain ⟨qseq, qnseq, qbkpt, qdata⟩ := instrsOfPacked_filter q
  rw [h] at pseq pnseq pbkpt pdata
  obtain ⟨hsv, hs⟩ := (guarded_eq_guarded _ _ _ _).1 (pseq.symm.trans qseq)
  obtain ⟨hnv, hn⟩ := (guarded_eq_guarded _ _ _ _).1 (pnseq.symm.trans qnseq)
  obtain ⟨hbv, hb⟩ := (guarded_eq_guarded _ _ _ _).1 (pbkpt.symm.trans qbkpt)
  obtain ⟨hdv, hd⟩ := (guarded_eq_guarded _ _ _ _).1 (pdata.symm.trans qdata)
  have hdata := fun hv : p.dataValid = true => dataOfReason_injective (hd hv)
  have hseq : p.seq = q.seq := field_eq_of_valid hsv (fun hv => Instr.seq.inj (hs hv)) cp.seq_zero cq.seq_zero
  have hnseq : p.nonseq = q.nonseq :=
    field_eq_of_valid hnv (fun hv => nseqOfReason_injective _ _ (hn hv)) cp.nonseq_zero cq.nonseq_zero
  have hbkpt : p.bkpt = q.bkpt := field_eq_of_valid hbv (fun hv => Instr.bkpt.inj (hb hv)) cp.bkpt_zero cq.bkpt_zero
  have hreason : p.dataReason = q.dataReason :=
    field_eq_of_valid hdv (fun hv => (hdata hv).1) cp.reason_zero cq.reason_zero
  have hpairs : p.compressedDataNumBytes = q.compressedDataNumBytes :=
    field_eq_of_valid hdv (fun hv => (hdata hv).2.1) cp.pairs_zero cq.pairs_zero
  have hvalue : p.data = q.data :=
    field_eq_of_valid hdv (fun hv => (hdata hv).2.2) cp.data_zero cq.data_zero
  have hhint : p.compressedDataNybble = q.compressedDataNybble := by
    rw [compressedDataNybble_eq p hp, compressedDataNybble_eq q hq, hsv, hnv, hbv, hdv]
  cases p
  cases q
  simp_all only

end Sys2Proof.Machine
end

section
/-!
PROOFS. The container the encoder writes holds the nybbles of the record's groups in a row, so the encoding is injective
(R63, R86 to R91).
-/

namespace Sys2Proof.Machine

/-- Puts of some nybbles at rising indices, from one on. -/
def putsFrom : Nat → List Nybble → List (Nat × Nybble)
  | _, [] => []
  | k, v :: l => (k, v) :: putsFrom (k + 1) l

theorem putsFrom_append (k : Nat) (l m : List Nybble) :
    putsFrom k (l ++ m) = putsFrom k l ++ putsFrom (k + l.length) m := by
  induction l generalizing k with
  | nil => rfl
  | cons v l ih => simp [putsFrom, ih, Nat.add_assoc, Nat.add_comm 1]

theorem putsFrom_map_range (k n : Nat) (f : Nat → Nybble) :
    putsFrom k ((List.range n).map f) = (List.range n).map fun j => (k + j, f j) := by
  induction n with
  | zero => rfl
  | succ n ih => simp [List.range_succ, putsFrom_append, ih, putsFrom]

/-- A container nybble after puts from index `k` on: the one put there, or else the one before (R91). -/
theorem nyb_foldl_putsFrom (l : List Nybble) (k : Nat) (d : Container) (j : Nat) (hj : j < 16) :
    nyb ((putsFrom k l).foldl (fun d e => putNybble d e.1 e.2) d) j =
      if k ≤ j then l[j - k]?.getD (nyb d j) else nyb d j := by
  induction l generalizing k d with
  | nil => simp [putsFrom]
  | cons v l ih =>
    rw [putsFrom, List.foldl_cons, ih, nyb_putNybble d k j v hj]
    rcases Nat.lt_trichotomy k j with hlt | rfl | hgt
    · have hsub : j - k = j - (k + 1) + 1 := by omega
      simp [hsub, Nat.ne_of_lt hlt, Nat.le_of_lt hlt, Nat.succ_le_of_lt hlt]
    · simp
    · simp [Nat.not_le.2 hgt, Nat.ne_of_gt hgt, show ¬ k + 1 ≤ j by omega]

theorem nyb_putAll_putsFrom_zero (l : List Nybble) (j : Nat) (hj : j < 16) :
    nyb (putAll (putsFrom 0 l)) j = l[j]?.getD 0 := by
  rw [putAll, nyb_foldl_putsFrom l 0 0 j hj, nyb_zero, if_pos (Nat.zero_le j), Nat.sub_zero]

/-! ## Each group's puts (R86 to R90) -/

/-- The nybbles of a record's groups, in emission order. -/
def groupNybbles (p : PackedRecord) : List Nybble := (instrsOfPacked p).flatMap encode

/-- The nybbles of each group that a record carries (R87 to R90). -/
def seqNybbles (p : PackedRecord) : List Nybble := if p.seqValid then [0b0#1 ++ p.seq] else []

def nonseqNybbles (p : PackedRecord) : List Nybble := if p.nonseqValid then [0b10#2 ++ p.nonseq] else []

def bkptNybbles (p : PackedRecord) : List Nybble := if p.bkptValid then [0b1101#4, p.bkpt] else []

def dataNybbles (p : PackedRecord) : List Nybble :=
  if p.dataValid then
    0b1100#4 :: dataHeader p.dataReason p.compressedDataNumBytes ::
      payloadNybbles p.data (2 * p.compressedDataNumBytes.toNat)
  else []

theorem groupNybbles_eq (p : PackedRecord) :
    groupNybbles p = seqNybbles p ++ nonseqNybbles p ++ bkptNybbles p ++ dataNybbles p := by
  simp only [groupNybbles, instrsOfPacked_eq, List.flatMap_append, flatMap_encode_guarded, encode_nseqOfReason,
    encode_dataOfReason]
  rfl

@[simp] theorem seqNybbles_length (p : PackedRecord) : (seqNybbles p).length = sizeSeq p := by
  cases h : p.seqValid <;> simp [seqNybbles, sizeSeq, h]

@[simp] theorem nonseqNybbles_length (p : PackedRecord) : (nonseqNybbles p).length = sizeNonseq p := by
  cases h : p.nonseqValid <;> simp [nonseqNybbles, sizeNonseq, h]

@[simp] theorem bkptNybbles_length (p : PackedRecord) : (bkptNybbles p).length = sizeBkpt p := by
  cases h : p.bkptValid <;> simp [bkptNybbles, sizeBkpt, h]

@[simp] theorem dataNybbles_length (p : PackedRecord) : (dataNybbles p).length = sizeData p := by
  cases h : p.dataValid <;> simp [dataNybbles, sizeData, h, Nat.add_comm 2]

theorem groupNybbles_length (p : PackedRecord) : (groupNybbles p).length = totalNybbles p := by
  simp [groupNybbles_eq, totalNybbles, Nat.add_assoc]

theorem emitSeq_eq (p : PackedRecord) : emitSeq p = putsFrom 0 (seqNybbles p) := by
  cases h : p.seqValid <;> simp [emitSeq, seqNybbles, h, putsFrom]

theorem emitNonseq_eq (p : PackedRecord) : emitNonseq p = putsFrom (offsetNonseq p) (nonseqNybbles p) := by
  cases h : p.nonseqValid <;> simp [emitNonseq, nonseqNybbles, h, putsFrom]

theorem emitBkpt_eq (p : PackedRecord) : emitBkpt p = putsFrom (offsetBkpt p) (bkptNybbles p) := by
  cases h : p.bkptValid <;> simp [emitBkpt, bkptNybbles, h, putsFrom]

theorem emitData_eq (p : PackedRecord) : emitData p = putsFrom (offsetData p) (dataNybbles p) := by
  cases h : p.dataValid <;> simp [emitData, dataNybbles, h, putsFrom, payloadNybbles, putsFrom_map_range]

/-- The encoder puts the nybbles of the record's groups in a row, from index 0 on (R86 to R91). -/
theorem emissions_eq (p : PackedRecord) : emissions p = putsFrom 0 (groupNybbles p) := by
  simp only [emissions, emitSeq_eq, emitNonseq_eq, emitBkpt_eq, emitData_eq, groupNybbles_eq, putsFrom_append,
    List.length_append, seqNybbles_length, nonseqNybbles_length, bkptNybbles_length, offsetNonseq, offsetBkpt, offsetData,
    Nat.zero_add]

/-- The groups of a well-formed record fit the container (R93). -/
theorem totalNybbles_le (p : PackedRecord) (h : packedWF p = true) : totalNybbles p ≤ 16 := by
  have c := (packedWF_iff p).1 h
  have hdata : sizeData p ≤ 12 := by
    cases hv : p.dataValid with
    | false => simp [sizeData, hv]
    | true =>
      have hk := c.pairs_le hv
      simp only [sizeData, hv, Bool.toNat_true]
      omega
  have hs := p.seqValid.toNat_le
  have hn := p.nonseqValid.toNat_le
  have hb := p.bkptValid.toNat_le
  simp only [totalNybbles, sizeSeq, sizeNonseq, sizeBkpt]
  omega

/-- The valid nybbles of an encoding are those of the record's groups (R33, R91). -/
theorem validNybbles_encodeRecord (p : PackedRecord) (h : packedWF p = true) :
    validNybbles (encodeRecord p) = groupNybbles p := by
  have htotal := totalNybbles_le p h
  have hcount : (encodeRecord p).validNybbleCount.toNat = (groupNybbles p).length := by
    rw [groupNybbles_length, encodeRecord, BitVec.toNat_ofNat]
    exact Nat.mod_eq_of_lt (by omega)
  apply List.ext_getElem
  · rw [validNybbles_length, hcount]
  · intro j _ hj
    have hj16 : j < 16 := by rw [groupNybbles_length] at hj; omega
    simp [validNybbles, firstNybbles, encodeRecord, emissions_eq, nyb_putAll_putsFrom_zero, hj16, hj]

end Sys2Proof.Machine

namespace Sys2Proof.Proofs

/-- Settles O50: the valid nybbles are those of the groups, which are read back one by one, and the groups give every field. -/
theorem encodingIsInjective : Obligations.EncodingIsInjective := by
  intro p q hp hq h
  rw [Machine.validNybbles_encodeRecord p hp, Machine.validNybbles_encodeRecord q hq] at h
  have hgroups : Machine.instrsOfPacked p = Machine.instrsOfPacked q :=
    flatMap_encode_injective _ _ (Machine.instrsOfPacked_wf p hp) (Machine.instrsOfPacked_wf q hq) h
  exact Machine.instrsOfPacked_injective p q hp hq hgroups

end Sys2Proof.Proofs
end

section
/-!
PROOFS. Each group of an encoded record at its place in the container, the groups in emission order, and the room they take
(R54, R87 to R90, R93).
-/

namespace Sys2Proof.Machine

/-! ## What is put stands where it was put (R91) -/

theorem putsFrom_eq_zipIdx (k : Nat) (l : List Nybble) : putsFrom k l = (l.zipIdx k).map Prod.swap := by
  induction l generalizing k with
  | nil => rfl
  | cons v l ih => simp [putsFrom, ih]

/-- The puts of some nybbles from index 0 on: nybble `i` of them at index `i`. -/
theorem mem_putsFrom_zero (l : List Nybble) (i : Nat) (v : Nybble) : (i, v) ∈ putsFrom 0 l ↔ l[i]? = some v := by
  rw [← List.mk_mem_zipIdx_iff_getElem?, putsFrom_eq_zipIdx]
  exact List.mem_map_of_injective Prod.swap_injective (a := (v, i))

/-- Every put of a well-formed record is within the container, and no later one overwrites it. -/
theorem nyb_encodeRecord_of_mem (p : PackedRecord) (h : packedWF p = true) {i : Nat} {v : Nybble}
    (hput : (i, v) ∈ emissions p) : nyb (encodeRecord p).nybbleData i = v := by
  rw [emissions_eq, mem_putsFrom_zero] at hput
  have hi : i < 16 := by
    have hlt := (List.getElem?_eq_some_iff.1 hput).1
    rw [groupNybbles_length] at hlt
    exact Nat.lt_of_lt_of_le hlt (totalNybbles_le p h)
  rw [encodeRecord, emissions_eq, nyb_putAll_putsFrom_zero _ i hi, hput, Option.getD_some]

/-! ## Each group at its offset (R87 to R90) -/

theorem nyb_encodeRecord_seq (p : PackedRecord) (h : packedWF p = true) (hv : p.seqValid = true) :
    nyb (encodeRecord p).nybbleData 0 = 0b0#1 ++ p.seq :=
  nyb_encodeRecord_of_mem p h (by simp [emissions, emitSeq, hv])

theorem nyb_encodeRecord_nonseq (p : PackedRecord) (h : packedWF p = true) (hv : p.nonseqValid = true) :
    nyb (encodeRecord p).nybbleData (offsetNonseq p) = 0b10#2 ++ p.nonseq :=
  nyb_encodeRecord_of_mem p h (by simp [emissions, emitNonseq, hv])

theorem nyb_encodeRecord_bkpt (p : PackedRecord) (h : packedWF p = true) (hv : p.bkptValid = true) :
    nyb (encodeRecord p).nybbleData (offsetBkpt p) = 0b1101#4 ∧
      nyb (encodeRecord p).nybbleData (offsetBkpt p + 1) = p.bkpt :=
  ⟨nyb_encodeRecord_of_mem p h (by simp [emissions, emitBkpt, hv]),
    nyb_encodeRecord_of_mem p h (by simp [emissions, emitBkpt, hv])⟩

theorem mem_emitData_payload (p : PackedRecord) (hv : p.dataValid = true) {j : Nat}
    (hj : j < 2 * p.compressedDataNumBytes.toNat) :
    (offsetData p + 2 + j, p.data.extractLsb' (4 * j) 4) ∈ emitData p := by
  rw [emitData, if_pos hv]
  exact List.mem_cons_of_mem _ (List.mem_cons_of_mem _ (List.mem_map.2 ⟨j, List.mem_range.2 hj, rfl⟩))

theorem nyb_encodeRecord_data (p : PackedRecord) (h : packedWF p = true) (hv : p.dataValid = true) :
    nyb (encodeRecord p).nybbleData (offsetData p) = 0b1100#4 ∧
      nyb (encodeRecord p).nybbleData (offsetData p + 1) = dataHeader p.dataReason p.compressedDataNumBytes ∧
      ∀ j, j < 2 * p.compressedDataNumBytes.toNat →
        nyb (encodeRecord p).nybbleData (offsetData p + 2 + j) = p.data.extractLsb' (4 * j) 4 :=
  ⟨nyb_encodeRecord_of_mem p h (by simp [emissions, emitData, hv]),
    nyb_encodeRecord_of_mem p h (by simp [emissions, emitData, hv]),
    fun _ hj => nyb_encodeRecord_of_mem p h (List.mem_append_right _ (mem_emitData_payload p hv hj))⟩

/-! ## The emission order (R54) -/

theorem inEmissionOrder_mono {stage stage' : Nat} (hle : stage ≤ stage') (groups : List Instr)
    (h : inEmissionOrder stage' groups = true) : inEmissionOrder stage groups = true := by
  cases groups with
  | nil => rfl
  | cons i rest =>
    cases ho : orderIndex i.tagClass with
    | none => simp [inEmissionOrder, ho] at h
    | some o =>
      simp only [inEmissionOrder, ho, Bool.and_eq_true, decide_eq_true_eq] at h ⊢
      exact ⟨Nat.le_trans hle h.1, h.2⟩

/-- A group, carried or not, may stand before groups of later classes. -/
theorem inEmissionOrder_guarded_append {stage o : Nat} {i : Instr} (valid : Bool) {rest : List Instr}
    (ho : orderIndex i.tagClass = some o) (hle : stage ≤ o) (hrest : inEmissionOrder (o + 1) rest = true) :
    inEmissionOrder stage (guarded valid i ++ rest) = true := by
  cases valid with
  | false => exact inEmissionOrder_mono (Nat.le_succ_of_le hle) rest hrest
  | true => simp [guarded, inEmissionOrder, ho, hle, hrest]

theorem instrsOfPacked_inEmissionOrder (p : PackedRecord) : inEmissionOrder 0 (instrsOfPacked p) = true := by
  have hnseq : orderIndex (nseqOfReason p.nonseq).tagClass = some 1 := by rw [tagClass_nseqOfReason]; rfl
  have hdata : orderIndex (dataOfReason p.dataReason p.compressedDataNumBytes p.data).tagClass = some 3 := by
    rw [tagClass_dataOfReason]; rfl
  rw [instrsOfPacked_eq, List.append_assoc, List.append_assoc, ← List.append_nil (guarded p.dataValid _)]
  exact inEmissionOrder_guarded_append _ (o := 0) rfl (by decide) <|
    inEmissionOrder_guarded_append _ hnseq (by decide) <|
    inEmissionOrder_guarded_append _ (o := 2) rfl (by decide) <|
    inEmissionOrder_guarded_append _ hdata (by decide) rfl

/-! ## The room a record takes (R93) -/

/-- A record that carries all four groups, the data group with the longest payload: a writeback of the highest register and
value. -/
def fullestRecord : PackedRecord :=
  { seqValid := true, seq := 7, nonseqValid := true, nonseq := 3, bkptValid := true, bkpt := 15, dataValid := true,
    dataReason := 1, data := 0x1FFFFFFFFF, compressedDataNybble := 6, compressedDataNumBytes := 5 }

/-- A length hint above 5 breaks clause 5 of PackedWF (R15). -/
theorem packedWF_eq_false_of_pairs (p : PackedRecord) (hv : p.dataValid = true)
    (hk : 6 ≤ p.compressedDataNumBytes.toNat) : packedWF p = false := by
  rw [Bool.eq_false_iff]
  intro h
  have hle := ((packedWF_iff p).1 h).pairs_le hv
  omega

end Sys2Proof.Machine

namespace Sys2Proof.Proofs

/-- Settles O47: every put of a group is read back at its offset, and the classes of a record's groups rise. -/
theorem encodedGroupsStandInOrder : Obligations.EncodedGroupsStandInOrder := fun p h =>
  ⟨Machine.nyb_encodeRecord_seq p h, Machine.nyb_encodeRecord_nonseq p h, Machine.nyb_encodeRecord_bkpt p h,
    Machine.nyb_encodeRecord_data p h, Machine.validNybbles_encodeRecord p h, Machine.instrsOfPacked_inEmissionOrder p⟩

/-- Settles O48: the fullest record takes 1 + 1 + 2 + 12 nybbles, and no hint above 5 is well-formed. -/
theorem recordFitsTheContainer : Obligations.RecordFitsTheContainer :=
  ⟨Machine.totalNybbles_le, ⟨Machine.fullestRecord, by decide, by decide⟩, Machine.packedWF_eq_false_of_pairs⟩

end Sys2Proof.Proofs
end

section
/-!
PROOFS. A decode call by its first nybble, and a call whose first group ends the record (R101 to R105, R109, R111).
-/

namespace Sys2Proof.Machine

/-! ## The first nybble of a call -/

/-- A class has no order index exactly where it is no group of a record (R54). -/
theorem orderIndex_eq_none (c : TagClass) : orderIndex c = none ↔ c = .skip ∨ c = .rsvd := by
  cases c <;> simp [orderIndex]

theorem orderIndex_lt_four (c : TagClass) (o : Nat) (h : orderIndex c = some o) : o < 4 := by
  cases c <;> cases h <;> decide

/-- A call within the stream is in its domain (R100). -/
theorem decodeCall_of_le {stream : NybbleStream} {c : Nat} (h : c ≤ stream.length) :
    decodeCall stream c = some (decodeOutcome stream c) := if_pos h

theorem decodeCall_of_getElem? {stream : NybbleStream} {c : Nat} {t : Nybble} (ht : stream[c]? = some t) :
    decodeCall stream c = some (decodeOutcome stream c) :=
  decodeCall_of_le (Nat.le_of_lt (List.getElem?_eq_some_iff.1 ht).1)

theorem decodeOutcome_of_end {stream : NybbleStream} {c : Nat} (ht : stream[c]? = none) :
    decodeOutcome stream c = .exhausted := by
  simp only [decodeOutcome, ht]

theorem decodeOutcome_of_skip {stream : NybbleStream} {c : Nat} {t : Nybble} (ht : stream[c]? = some t)
    (hskip : tagClass t = .skip) : decodeOutcome stream c = .ok DecompressedRecord.empty 1 := by
  simp only [decodeOutcome, ht, hskip]

theorem decodeOutcome_of_rsvd {stream : NybbleStream} {c : Nat} {t : Nybble} (ht : stream[c]? = some t)
    (hrsvd : tagClass t = .rsvd) : decodeOutcome stream c = .fault .reservedTagEncountered := by
  simp only [decodeOutcome, ht, hrsvd]

/-- A call whose first nybble has an order index is the greedy parse from there (R104). -/
theorem decodeOutcome_of_group {stream : NybbleStream} {c o : Nat} {t : Nybble} (ht : stream[c]? = some t)
    (ho : orderIndex (tagClass t) = some o) :
    decodeOutcome stream c = outcomeOfParse c (parseLoop stream Config.groupsPerRecord (Parse.start c)) := by
  cases hc : tagClass t with
  | skip => simp [hc, orderIndex] at ho
  | rsvd => simp [hc, orderIndex] at ho
  | seq => simp only [decodeOutcome, ht, hc]
  | nseq => simp only [decodeOutcome, ht, hc]
  | bkpt => simp only [decodeOutcome, ht, hc]
  | data => simp only [decodeOutcome, ht, hc]

/-! ## The group at the parse's index -/

theorem drop_of_getElem? {stream : NybbleStream} {i : Nat} {t : Nybble} (ht : stream[i]? = some t) :
    stream.drop i = t :: stream.drop (i + 1) := by
  obtain ⟨hi, rfl⟩ := List.getElem?_eq_some_iff.1 ht
  exact List.drop_eq_getElem_cons hi

theorem parseGroup_of_decodeGroup {stream : NybbleStream} {p : Parse} {i : Instr} {rest : List Nybble}
    (h : decodeGroup (stream.drop p.idx) = .ok (i, rest)) :
    parseGroup stream p = applyGroup stream.length i p := by
  rw [parseGroup, h]

/-- A nybble of class SEQ at the parse's index is parsed as SEQ with its low three bits (R105). -/
theorem parseGroup_seq {stream : NybbleStream} {p : Parse} {t : Nybble} (ht : stream[p.idx]? = some t)
    (hseq : tagClass t = .seq) : parseGroup stream p = .ok (parseSeq (t.extractLsb' 0 3) p) := by
  obtain ⟨-, hdecode, -⟩ := decodeGroup_by_class t (stream.drop (p.idx + 1))
  rw [parseGroup_of_decodeGroup ((congrArg decodeGroup (drop_of_getElem? ht)).trans (hdecode hseq))]
  rfl

/-- The count in a nybble 1 to 7 is not 0 (R105). -/
theorem seqCount_pos : ∀ t : Nybble, 1 ≤ t.toNat → t.toNat ≤ 7 → 1 ≤ (t.extractLsb' 0 3 : BitVec 3).toNat := by decide

/-! ## A call whose first group ends the record -/

/-- After a DATA group every record ends: no class has an order index above its own (R54, R111). -/
theorem recordEndsAt_four (stream : NybbleStream) (idx : Nat) : recordEndsAt stream idx 4 = true := by
  unfold recordEndsAt
  split
  · rfl
  · split
    · rfl
    · next ho => exact decide_eq_true (orderIndex_lt_four _ _ ho)

/-- A call whose first group took `n` nybbles and ends the record delivers that group alone (R111, R112, R116). -/
theorem runCall_of_ends (s : State) (p : Parse) (n : Nat) (hidx : p.idx = s.cursor + n)
    (hends : recordEndsAt s.mem.stream p.idx p.stage = true) :
    runCall (.ok p) s = .next { s with cursor := s.cursor + n, outcomes := s.outcomes ++ [.ok p.record n] } := by
  have hconsumed : p.idx - s.cursor = n := by omega
  rw [runCall_eq, continueParse_ok, parseLoop_of_ends _ _ _ hends, outcomeOfParse, hconsumed]
  rfl

end Sys2Proof.Machine

namespace Sys2Proof.Proofs
open Machine

/-- Settles O8: a nybble `0000` is of class SKIP. -/
theorem skipDeliversEmptyRecord : Obligations.SkipDeliversEmptyRecord := by
  refine ⟨fun s => rfl, fun stream c ht => ?_⟩
  rw [decodeCall_of_getElem? ht, decodeOutcome_of_skip ht ((tagClass_eq_skip _).2 rfl)]

/-- Settles O16: a nybble with bits 3 to 1 all set is of the reserved class. -/
theorem reservedTagIsAFault : Obligations.ReservedTagIsAFault := by
  refine ⟨fun s x => rfl, fun stream c t ht htag => ?_⟩
  rw [decodeCall_of_getElem? ht, decodeOutcome_of_rsvd ht ((tagClass_eq_rsvd t).2 htag)]

/-- Settles O9: the group is parsed by its class, and a record that ends after it holds the count alone. -/
theorem seqDeliversItsCount : Obligations.SeqDeliversItsCount := by
  refine ⟨fun len n p => rfl, fun stream p t ht hlo hhi => ?_, fun s n hends => ?_⟩
  · exact ⟨parseGroup_seq ht ((tagClass_eq_seq t).2 ⟨hlo, hhi⟩), seqCount_pos t hlo hhi⟩
  · exact runCall_of_ends s (parseSeq n (Parse.start s.cursor)) 1 rfl hends

/-- Settles O12: the checks pass, so the fields are set; and no record goes on after a DATA group. -/
theorem dataPcDeliversProgramCounter : Obligations.DataPcDeliversProgramCounter := by
  refine ⟨fun len pairs data p hk hl => ?_, fun s pairs data hk hl => ?_⟩
  · exact ⟨_, (parsePc_eq_ok len pairs data p _).2 ⟨⟨hk, hl⟩, rfl⟩, rfl, rfl⟩
  · have hparse := (parsePc_eq_ok _ pairs data (Parse.start s.cursor) _).2 ⟨⟨hk, hl⟩, rfl⟩
    have hexec : exec (.dataPc pairs data) s =
        runCall (parsePc s.mem.stream.length pairs data (Parse.start s.cursor)) s := rfl
    rw [hexec, hparse]
    exact runCall_of_ends s _ _ (Nat.add_assoc _ _ _) (recordEndsAt_four _ _)

end Sys2Proof.Proofs
end

section
/-!
PROOFS. A decode call uses only the nybbles from its cursor on (R120): with nybbles put before the stream, every part of the
call does as before, with its index moved along.
-/

namespace Sys2Proof.Machine

/-- A parse with its index moved up by `k`. -/
def Parse.shift (k : Nat) (p : Parse) : Parse := { p with idx := k + p.idx }

theorem Parse.shift_start (k c : Nat) : (Parse.start c).shift k = Parse.start (k + c) := rfl

/-! ## The reads -/

theorem getElem?_append_length_add (before stream : NybbleStream) (i : Nat) :
    (before ++ stream)[before.length + i]? = stream[i]? := by
  rw [List.getElem?_append_right (Nat.le_add_right _ _), Nat.add_sub_cancel_left]

theorem recordEndsAt_append (before stream : NybbleStream) (idx stage : Nat) :
    recordEndsAt (before ++ stream) (before.length + idx) stage = recordEndsAt stream idx stage := by
  simp only [recordEndsAt, getElem?_append_length_add]

/-! ## One group -/

theorem checkData_shift (k len : Nat) (pairs : BitVec 3) (p : Parse) :
    checkData (k + len) pairs (p.shift k) = checkData len pairs p := by
  simp only [checkData, Parse.shift, Nat.add_assoc, Nat.add_le_add_iff_left, Nat.add_lt_add_iff_left]

/-- What a group does to a parse depends on the index and the length by what lies between them (R105 to R110). -/
theorem applyGroup_shift (k len : Nat) (i : Instr) (p : Parse) :
    applyGroup (k + len) i (p.shift k) = (applyGroup len i p).map (Parse.shift k) := by
  cases i with
  | skip => rfl
  | seq n => rfl
  | nseqTrap => rfl
  | nseqRet => rfl
  | nseqJump => rfl
  | nseqBranch => rfl
  | bkpt reason =>
    simp only [applyGroup, parseBkpt, Parse.shift, Nat.add_assoc, Nat.add_le_add_iff_left]
    split <;> rfl
  | dataPc pairs data =>
    simp only [applyGroup, parsePc, checkData_shift]
    cases checkData len pairs p with
    | error e => rfl
    | ok u => simp [Except.map, Parse.shift, Nat.add_assoc]
  | dataWb pairs data =>
    simp only [applyGroup, parseWb, checkData_shift]
    cases checkData len pairs p with
    | error e => rfl
    | ok u => simp [Except.map, Parse.shift, Nat.add_assoc]
  | dataBadlen r n =>
    simp only [applyGroup, parseBadlen_eq, Parse.shift, Nat.add_assoc, Nat.add_le_add_iff_left]
    rfl
  | rsvd x => rfl

theorem parseGroup_append (before stream : NybbleStream) (p : Parse) :
    parseGroup (before ++ stream) (p.shift before.length) = (parseGroup stream p).map (Parse.shift before.length) := by
  have hdrop : (before ++ stream).drop (p.shift before.length).idx = stream.drop p.idx :=
    List.drop_length_add_append p.idx
  obtain ⟨i, rest, hdecode, hparse⟩ | ⟨e, hdecode, hparse⟩ := parseGroup_cases stream p
  · rw [hparse, parseGroup_of_decodeGroup (hdrop ▸ hdecode), List.length_append, applyGroup_shift]
  · rw [hparse, parseGroup, hdrop, hdecode]
    rfl

/-! ## The whole call -/

theorem parseLoop_append (before stream : NybbleStream) (fuel : Nat) (p : Parse) :
    parseLoop (before ++ stream) fuel (p.shift before.length) =
      (parseLoop stream fuel p).map (Parse.shift before.length) := by
  induction fuel generalizing p with
  | zero => rfl
  | succ fuel ih =>
    have hsame := recordEndsAt_append before stream p.idx p.stage
    cases hends : recordEndsAt stream p.idx p.stage with
    | true =>
      rw [parseLoop_of_ends stream _ p hends]
      exact parseLoop_of_ends _ _ _ (hsame.trans hends)
    | false =>
      rw [parseLoop_of_not_ends stream fuel p hends,
        parseLoop_of_not_ends (before ++ stream) fuel (p.shift before.length) (hsame.trans hends), parseGroup_append]
      cases parseGroup stream p with
      | error k => rfl
      | ok p' => exact ih p'

/-- A call reports what lies between the cursor and the index it ends at (R112). -/
theorem outcomeOfParse_shift (k cursor : Nat) (ended : Except Fault Parse) :
    outcomeOfParse (k + cursor) (ended.map (Parse.shift k)) = outcomeOfParse cursor ended := by
  cases ended with
  | error e => rfl
  | ok p => exact congrArg (DecodeOutcome.ok p.record) (Nat.add_sub_add_left k p.idx cursor)

theorem decodeOutcome_append (before stream : NybbleStream) (c : Nat) :
    decodeOutcome (before ++ stream) (before.length + c) = decodeOutcome stream c := by
  have hread := getElem?_append_length_add before stream c
  cases ht : stream[c]? with
  | none => rw [decodeOutcome_of_end ht, decodeOutcome_of_end (hread.trans ht)]
  | some t =>
    cases ho : orderIndex (tagClass t) with
    | none =>
      obtain hskip | hrsvd := (orderIndex_eq_none _).1 ho
      · rw [decodeOutcome_of_skip ht hskip, decodeOutcome_of_skip (hread.trans ht) hskip]
      · rw [decodeOutcome_of_rsvd ht hrsvd, decodeOutcome_of_rsvd (hread.trans ht) hrsvd]
    | some o =>
      rw [decodeOutcome_of_group ht ho, decodeOutcome_of_group (hread.trans ht) ho, ← Parse.shift_start,
        parseLoop_append, outcomeOfParse_shift]

end Sys2Proof.Machine

namespace Sys2Proof.Proofs
open Machine

/-- Settles O29: `decode` is total within the stream, and moving the cursor along with the stream changes neither its domain nor
its outcome. -/
theorem decodeUsesOnlyWhatFollows : Obligations.DecodeUsesOnlyWhatFollows := by
  refine ⟨fun stream c h => ⟨_, decodeCall_of_le h⟩, fun before stream c => ?_⟩
  simp only [decodeCall, List.length_append, Nat.add_le_add_iff_left, decodeOutcome_append]

end Sys2Proof.Proofs
end

section
/-!
PROOFS. A DATA header with a reserved length: `BadDataLength` wherever the decoder reads it, and never written by the encoder
(R56, R128).
-/

namespace Sys2Proof.Machine

/-! ## The group at the parse's index -/

/-- Where the header is in the stream, its reserved length is the fault (R128). -/
theorem parseBadlen_of_header (len : Nat) (n : BitVec 1) (p : Parse) (h : p.idx + 2 ≤ len) :
    parseBadlen len n p = .error .badDataLength := by
  rw [parseBadlen_eq, if_neg (by omega)]

/-- A header read behind the tag puts both nybbles within the stream. -/
theorem add_two_le_length_of_getElem? {stream : NybbleStream} {i : Nat} {header : Nybble}
    (hheader : stream[i + 1]? = some header) : i + 2 ≤ stream.length :=
  (List.getElem?_eq_some_iff.1 hheader).1

/-- A DATA tag and a reserved length at the parse's index, whatever `R` is and whatever follows (R128). -/
theorem parseGroup_badlen {stream : NybbleStream} {p : Parse} {t header : Nybble} (ht : stream[p.idx]? = some t)
    (htag : tagClass t = .data) (hheader : stream[p.idx + 1]? = some header)
    (hk : 5 < (header.extractLsb' 0 3 : BitVec 3).toNat) : parseGroup stream p = .error .badDataLength := by
  have hdrop : stream.drop p.idx = t :: header :: stream.drop (p.idx + 1 + 1) := by
    rw [drop_of_getElem? ht, drop_of_getElem? hheader]
  rw [parseGroup_of_decodeGroup ((congrArg decodeGroup hdrop).trans (decodeGroup_badlen t header _ htag hk))]
  exact parseBadlen_of_header _ _ p (add_two_le_length_of_getElem? hheader)

/-! ## The call -/

/-- A record goes on where a tag of its stage or above stands (R54, R111). -/
theorem recordEndsAt_of_order {stream : NybbleStream} {idx stage o : Nat} {t : Nybble} (ht : stream[idx]? = some t)
    (ho : orderIndex (tagClass t) = some o) (hle : stage ≤ o) : recordEndsAt stream idx stage = false := by
  simp only [recordEndsAt, ht, ho]
  exact decide_eq_false (Nat.not_lt.2 hle)

/-- A call that starts on a group with a fault takes that fault (R104, R130). -/
theorem decodeOutcome_of_parseGroup_error {stream : NybbleStream} {c o : Nat} {t : Nybble} {k : Fault}
    (ht : stream[c]? = some t) (ho : orderIndex (tagClass t) = some o)
    (hfault : parseGroup stream (Parse.start c) = .error k) : decodeOutcome stream c = .fault k := by
  have hgoes : recordEndsAt stream c 0 = false := recordEndsAt_of_order ht ho (Nat.zero_le o)
  rw [decodeOutcome_of_group ht ho, parseLoop_of_not_ends stream 3 (Parse.start c) hgoes, hfault]
  rfl

/-- A decode call on a reserved length reports the fault and leaves the rest of the state alone (R128, R130). -/
theorem exec_dataBadlen (s : State) (r n : BitVec 1) (h : s.cursor + 2 ≤ s.mem.stream.length) :
    exec (.dataBadlen r n) s = .next (s.pushOutcome (.fault .badDataLength)) := by
  have hexec : exec (.dataBadlen r n) s = runCall (parseBadlen s.mem.stream.length n (Parse.start s.cursor)) s := rfl
  rw [hexec, parseBadlen_of_header _ n (Parse.start s.cursor) h, runCall_eq]
  rfl

/-! ## The encoder -/

theorem opcode_nseqOfReason_ne_dataBadlen : ∀ rr : BitVec 2, (nseqOfReason rr).opcode ≠ .dataBadlen := by decide

theorem opcode_dataOfReason_ne_dataBadlen (r : BitVec 1) (pairs : BitVec 3) (data : DataValue) :
    (dataOfReason r pairs data).opcode ≠ .dataBadlen := by
  obtain h | h := dataOfReason_eq r pairs data <;> simp [h, Instr.opcode]

/-- No record has a group of a reserved length (R56). -/
theorem instrsOfPacked_opcode_ne_dataBadlen (p : PackedRecord) (i : Instr) (hi : i ∈ instrsOfPacked p) :
    i.opcode ≠ .dataBadlen := by
  simp only [instrsOfPacked_eq, List.mem_append, mem_guarded, or_assoc] at hi
  obtain ⟨-, rfl⟩ | ⟨-, rfl⟩ | ⟨-, rfl⟩ | ⟨-, rfl⟩ := hi
  · simp [Instr.opcode]
  · exact opcode_nseqOfReason_ne_dataBadlen p.nonseq
  · simp [Instr.opcode]
  · exact opcode_dataOfReason_ne_dataBadlen _ _ _

end Sys2Proof.Machine

namespace Sys2Proof.Proofs
open Machine

/-- Settles O15: the header is read before the payload, so its fault comes first; and a record's groups are of other
instructions. -/
theorem reservedLengthIsBadDataLength : Obligations.ReservedLengthIsBadDataLength := by
  have htag : tagClass 0b1100#4 = .data := (tagClass_eq_data _).2 rfl
  have horder : orderIndex (tagClass 0b1100#4) = some 3 := congrArg orderIndex htag
  refine ⟨exec_dataBadlen, fun stream p header ht hheader hk => ?_,
    fun stream c header ht hheader hk => ?_, fun p i hp hi => ?_⟩
  · exact parseGroup_badlen ht htag hheader hk
  · rw [decodeCall_of_getElem? ht,
      decodeOutcome_of_parseGroup_error ht horder (parseGroup_badlen (p := Parse.start c) ht htag hheader hk)]
  · exact ⟨instrsOfPacked_wf p hp i hi, instrsOfPacked_opcode_ne_dataBadlen p i hi⟩

end Sys2Proof.Proofs
end

section
/-!
PROOFS. Encoding inverts decoding for one group: what was decoded is well-formed and stood there, and so its tag nybble gives its
class and its length (R45 to R57).
-/

namespace Sys2Proof

/-! ## The nybble of a tag is rebuilt from its class and its low bits -/

theorem seqNybble_of_tagClass : ∀ t : Nybble, tagClass t = .seq →
    seqCountLegal (t.extractLsb' 0 3) = true ∧ 0b0#1 ++ t.extractLsb' 0 3 = t := by decide

theorem nseqNybble_of_tagClass : ∀ t : Nybble, tagClass t = .nseq → 0b10#2 ++ t.extractLsb' 0 2 = t := by decide

theorem rsvdNybble_of_tagClass : ∀ t : Nybble, tagClass t = .rsvd → 0b111#3 ++ t.extractLsb' 0 1 = t := by decide

theorem dataHeader_extract : ∀ header : Nybble,
    dataHeader (header.extractLsb' 3 1) (header.extractLsb' 0 3) = header := by decide

/-- A reserved length is `11n`, so its last bit rebuilds it (R56). -/
theorem dataHeader_extract_badlen : ∀ header : Nybble, 5 < (header.extractLsb' 0 3 : BitVec 3).toNat →
    dataHeader (header.extractLsb' 3 1) (0b11#2 ++ header.extractLsb' 0 1) = header := by decide

/-! ## The payload of an assembled value -/

/-- The nybbles of an assembled value are the payload it was assembled from (R52). -/
theorem payloadNybbles_assemblePayload (payload : List Nybble) (h : payload.length ≤ 10) :
    payloadNybbles (assemblePayload payload) payload.length = payload := by
  apply List.ext_getElem (payloadNybbles_length _ _)
  intro j _ hj
  simp [payloadNybbles, assemblePayload_nybble payload h j hj]

theorem assemblePayload_lt (payload : List Nybble) (h : payload.length ≤ 10) :
    (assemblePayload payload).toNat < 16 ^ payload.length := by
  rw [assemblePayload_toNat payload h]
  exact nybblesToNat_lt payload

/-- A payload of `2 * k` nybbles gives a well-formed group that is written with that payload (R51, R52). -/
theorem encode_dataOfReason_assemblePayload (r : BitVec 1) (pairs : BitVec 3) (payload : List Nybble)
    (hk : pairs.toNat ≤ 5) (hl : payload.length = 2 * pairs.toNat) :
    (dataOfReason r pairs (assemblePayload payload)).wf = true ∧
      encode (dataOfReason r pairs (assemblePayload payload)) = 0b1100#4 :: dataHeader r pairs :: payload := by
  have h10 : payload.length ≤ 10 := by omega
  constructor
  · have hlt := assemblePayload_lt payload h10
    rw [hl, show (16 : Nat) = 2 ^ 4 from rfl, ← Nat.pow_mul, ← Nat.mul_assoc] at hlt
    exact (dataOfReason_wf _ _ _).2 ⟨hk, hlt⟩
  · rw [encode_dataOfReason, ← hl, payloadNybbles_assemblePayload payload h10]

/-! ## The group that was decoded is the one that stood there -/

/-- A whole group read behind a DATA tag (R51, R52, R56). -/
theorem encode_of_decodeGroup_data {header : Nybble} {tail rest : List Nybble} {i : Instr}
    (h : decodeGroup (0b1100#4 :: header :: tail) = .ok (i, rest)) :
    i.wf = true ∧ encode i ++ rest = 0b1100#4 :: header :: tail := by
  have htag : tagClass 0b1100#4 = .data := (tagClass_eq_data _).2 rfl
  by_cases hk : (header.extractLsb' 0 3 : BitVec 3).toNat ≤ 5
  · by_cases hl : 2 * (header.extractLsb' 0 3 : BitVec 3).toNat ≤ tail.length
    · obtain ⟨payload, rest', rfl, hpayload⟩ : ∃ payload rest', tail = payload ++ rest' ∧
          payload.length = 2 * (header.extractLsb' 0 3 : BitVec 3).toNat :=
        ⟨_, _, (List.take_append_drop _ tail).symm, List.length_take_of_le hl⟩
      rw [decodeGroup_data_append header payload rest' hk hpayload] at h
      cases h
      obtain ⟨hwf, hencode⟩ := encode_dataOfReason_assemblePayload (header.extractLsb' 3 1) _ payload hk hpayload
      exact ⟨hwf, by rw [hencode, dataHeader_extract]; rfl⟩
    · rw [decodeGroup_data_short _ header tail htag hk (by omega)] at h
      cases h
  · rw [decodeGroup_badlen _ header tail htag (by omega)] at h
    cases h
    exact ⟨rfl, by simp only [encode, dataHeader_extract_badlen header (by omega)]; rfl⟩

/-- Whatever nybbles decode to a group are its encoding and what was left; the group is well-formed (R45 to R57). -/
theorem encode_of_decodeGroup {nybbles rest : List Nybble} {i : Instr} (h : decodeGroup nybbles = .ok (i, rest)) :
    i.wf = true ∧ encode i ++ rest = nybbles := by
  cases nybbles with
  | nil => cases h
  | cons t tail =>
    obtain ⟨hskip, hseq, hnseq, hrsvd, hbkpt, hcut⟩ := decodeGroup_by_class t tail
    cases htag : tagClass t with
    | skip =>
      obtain rfl := (tagClass_eq_skip t).1 htag
      cases (hskip htag).symm.trans h
      exact ⟨rfl, rfl⟩
    | seq =>
      cases (hseq htag).symm.trans h
      obtain ⟨hwf, ht⟩ := seqNybble_of_tagClass t htag
      exact ⟨hwf, by rw [encode, ht]; rfl⟩
    | nseq =>
      cases (hnseq htag).symm.trans h
      exact ⟨nseqOfReason_wf _, by rw [encode_nseqOfReason, nseqNybble_of_tagClass t htag]; rfl⟩
    | rsvd =>
      cases (hrsvd htag).symm.trans h
      exact ⟨rfl, by rw [encode, rsvdNybble_of_tagClass t htag]; rfl⟩
    | bkpt =>
      obtain rfl := (tagClass_eq_bkpt t).1 htag
      cases tail with
      | nil => cases (hcut (.inl htag)).symm.trans h
      | cons reason tail => cases h; exact ⟨rfl, rfl⟩
    | data =>
      obtain rfl := (tagClass_eq_data t).1 htag
      cases tail with
      | nil => cases (hcut (.inr htag)).symm.trans h
      | cons header tail => exact encode_of_decodeGroup_data h

/-! ## The class and the length of a group from its tag -/

theorem encodedShape (i : Instr) : Laws.EncodedShape.Statement i := by
  cases i with
  | skip => exact Laws.EncodedShape.skip
  | seq n => exact Laws.EncodedShape.seq n
  | nseqTrap => exact Laws.EncodedShape.nseqTrap
  | nseqRet => exact Laws.EncodedShape.nseqRet
  | nseqJump => exact Laws.EncodedShape.nseqJump
  | nseqBranch => exact Laws.EncodedShape.nseqBranch
  | bkpt reason => exact Laws.EncodedShape.bkpt reason
  | dataPc pairs data => exact Laws.EncodedShape.dataPc pairs data
  | dataWb pairs data => exact Laws.EncodedShape.dataWb pairs data
  | dataBadlen r n => exact Laws.EncodedShape.dataBadlen r n
  | rsvd x => exact Laws.EncodedShape.rsvd x

theorem encode_length (i : Instr) (h : i.wf = true) : (encode i).length = groupLength i := (encodedShape i h).1

/-- A decoded group is of its tag nybble's class, and takes its group length (R45). -/
theorem class_and_length_of_decodeGroup {t : Nybble} {tail rest : List Nybble} {i : Instr}
    (h : decodeGroup (t :: tail) = .ok (i, rest)) :
    i.tagClass = tagClass t ∧ tail.length + 1 = groupLength i + rest.length := by
  obtain ⟨hwf, hencode⟩ := encode_of_decodeGroup h
  obtain ⟨hlength, t', tail', hshape, hclass⟩ := encodedShape i hwf
  have hsum := congrArg List.length hencode
  rw [hshape] at hencode
  obtain ⟨rfl, -⟩ := List.cons.inj hencode
  refine ⟨hclass.symm, ?_⟩
  rw [← hlength, ← List.length_append, hsum, List.length_cons]

/-- The classes of one nybble, and of two (R45). -/
theorem groupLength_of_tagClass (i : Instr) :
    (i.tagClass = .skip ∨ i.tagClass = .seq ∨ i.tagClass = .nseq → groupLength i = 1) ∧
      (i.tagClass = .bkpt → groupLength i = 2) := by
  cases i <;> simp [Instr.tagClass, groupLength]

/-- A DATA group of a legal length: its reason bit tells which, and its header gives its length (R45, R51). -/
theorem opcode_and_length_of_decodeGroup_data {header : Nybble} {tail rest : List Nybble} {i : Instr}
    (h : decodeGroup (0b1100#4 :: header :: tail) = .ok (i, rest))
    (hk : (header.extractLsb' 0 3 : BitVec 3).toNat ≤ 5) :
    groupLength i = 2 + 2 * (header.extractLsb' 0 3 : BitVec 3).toNat ∧
      i.opcode = if header.extractLsb' 3 1 = 0#1 then .dataPc else .dataWb := by
  have htag : tagClass 0b1100#4 = .data := (tagClass_eq_data _).2 rfl
  by_cases hl : 2 * (header.extractLsb' 0 3 : BitVec 3).toNat ≤ tail.length
  · rw [decodeGroup_data _ header tail htag hk hl] at h
    cases h
    by_cases hr : header.extractLsb' 3 1 = 0#1 <;> simp [hr, groupLength, Instr.opcode]
  · rw [decodeGroup_data_short _ header tail htag hk (by omega)] at h
    cases h

/-! ## The least length (R60, R75) -/

/-- Every data value is held by five pairs, so the search for the least number ends: the number found holds the value, and no
smaller one does. -/
theorem minPairs_spec (data : DataValue) :
    (minPairs data).toNat ≤ 5 ∧ data.toNat < 2 ^ (8 * (minPairs data).toNat) ∧
      ∀ j, j < (minPairs data).toNat → 2 ^ (8 * j) ≤ data.toNat := by
  cases hfind : (List.range 6).find? fun k => decide (data.toNat < 2 ^ (8 * k)) with
  | none =>
    have hfive := List.find?_eq_none.1 hfind 5 (by decide)
    exact absurd data.isLt (by simpa using hfive)
  | some k =>
    obtain ⟨hfits, hmem, hleast⟩ := List.find?_range_eq_some.1 hfind
    have hk : k < 6 := List.mem_range.1 hmem
    have hmin : (minPairs data).toNat = k := by
      simp only [minPairs, Config.maxPayloadPairs, hfind, Option.getD_some, BitVec.toNat_ofNat]
      omega
    rw [hmin]
    exact ⟨by omega, of_decide_eq_true hfits, fun j hj => by simpa using hleast j hj⟩

/-- The least number of pairs is at most any that holds the value. -/
theorem minPairs_le (data : DataValue) (k : Nat) (h : data.toNat < 2 ^ (8 * k)) : (minPairs data).toNat ≤ k := by
  obtain ⟨-, -, hleast⟩ := minPairs_spec data
  by_contra hlt
  exact absurd (hleast k (by omega)) (by omega)

/-- A data group written with the least length is well-formed, and no well-formed one is shorter. -/
theorem dataOfReason_minPairs (r : BitVec 1) (data : DataValue) :
    (dataOfReason r (minPairs data) data).wf = true ∧
      ∀ j, (dataOfReason r j data).wf = true → (minPairs data).toNat ≤ j.toNat := by
  obtain ⟨hk, hfits, -⟩ := minPairs_spec data
  exact ⟨(dataOfReason_wf _ _ _).2 ⟨hk, hfits⟩,
    fun j hj => minPairs_le data _ ((dataOfReason_wf _ _ _).1 hj).2⟩

/-! ## The opcode table (R61) -/

/-- A row matches a word by its two nybbles: exactly one row does, and the decoder reads its instruction from them. -/
theorem matchingRows_append : ∀ hi lo : Nybble,
    (decodeTableWord 8 (hi ++ lo : BitVec 8).toNat).map (fun i => [i.opcode]) = some (matchingRows (hi ++ lo)) := by
  decide

end Sys2Proof

namespace Sys2Proof.Proofs

/-- Settles O1. -/
theorem decodeInvertsEncode : Obligations.DecodeInvertsEncode := decodeGroup_encode

/-- Settles O2. -/
theorem encodeInvertsDecode : Obligations.EncodeInvertsDecode := fun _ _ _ => encode_of_decodeGroup

/-- Settles O3: each word is run through the decoder. -/
theorem writtenWordsDecode : Obligations.WrittenWordsDecode := by
  unfold Obligations.WrittenWordsDecode
  decide

/-- Settles O4: the class is the encoding's first nybble's, and the length is what the encoding took. -/
theorem tagNybbleDecidesClassAndLength : Obligations.TagNybbleDecidesClassAndLength := by
  refine ⟨by decide, fun t rest after i h => ?_⟩
  obtain ⟨hclass, hlength⟩ := class_and_length_of_decodeGroup h
  obtain ⟨hone, htwo⟩ := groupLength_of_tagClass i
  rw [hclass] at hone htwo
  refine ⟨hclass, fun ht => ?_, fun ht => ?_, fun header tail ht hrest hk => ?_⟩
  · have := hone ht
    omega
  · have := htwo ht
    omega
  · obtain rfl := (tagClass_eq_data t).1 ht
    subst hrest
    obtain ⟨hdata, hopcode⟩ := opcode_and_length_of_decodeGroup_data h hk
    exact ⟨by omega, hopcode⟩

/-- Settles O5: a word is two nybbles. -/
theorem opcodeRowsPartitionWords : Obligations.OpcodeRowsPartitionWords := by
  intro w
  obtain ⟨hi, lo, rfl⟩ : ∃ hi lo : Nybble, w = hi ++ lo :=
    ⟨w.extractLsb' 4 4, w.extractLsb' 0 4, by revert w; decide⟩
  have hrows := matchingRows_append hi lo
  cases hread : decodeTableWord 8 (hi ++ lo : BitVec 8).toNat with
  | none => simp [hread] at hrows
  | some i => exact ⟨i.opcode, by simpa [hread] using hrows.symm, rfl⟩

/-- Settles O7: both are data groups written with the least length. -/
theorem pseudoFormsTakeLeastLength : Obligations.PseudoFormsTakeLeastLength := by
  refine ⟨fun v => ?_, fun rd v => ?_⟩
  · obtain ⟨hwf, hleast⟩ := dataOfReason_minPairs 0 (v.setWidth 40)
    exact ⟨hwf, _, rfl, hleast⟩
  · obtain ⟨hwf, hleast⟩ := dataOfReason_minPairs 1 (writebackData v rd)
    exact ⟨hwf, _, rfl, hleast⟩

end Sys2Proof.Proofs
end

section
/-!
PROOFS. The greedy parse, said once: the groups that stand in emission order at an index, what they make of a record, and
everything a decode call can do with them (R104 to R112).
-/

namespace Sys2Proof.Machine

/-! ## What a group adds to a parse -/

/-- What a group of a record sets in it (R105 to R110). A skip, a reserved length and a reserved tag set nothing. -/
def addGroup (i : Instr) (r : DecompressedRecord) : DecompressedRecord :=
  match i with
  | .skip => r
  | .seq n => { r with seqValid := true, seq := n }
  | .nseqTrap => setReasonFlag 0 r
  | .nseqRet => setReasonFlag 1 r
  | .nseqJump => setReasonFlag 2 r
  | .nseqBranch => setReasonFlag 3 r
  | .bkpt reason => { r with breakpointValid := true, breakpointReason := reason }
  | .dataPc _ data => { r with pcValid := true, programCounter := pcOfData data }
  | .dataWb _ data =>
    { r with writebackValid := true, writebackRegister := registerOfData data, writebackValue := valueOfData data }
  | .dataBadlen _ _ => r
  | .rsvd _ => r

/-- The stage after a group: one above its order index (R104). -/
def stageStep (stage : Nat) (i : Instr) : Nat := (orderIndex i.tagClass).elim stage (· + 1)

theorem stageStep_of_order {stage o : Nat} {i : Instr} (ho : orderIndex i.tagClass = some o) :
    stageStep stage i = o + 1 := by rw [stageStep, ho]; rfl

/-- The parse behind a group that was applied (R104). -/
def Parse.add (p : Parse) (i : Instr) : Parse :=
  { record := addGroup i p.record, idx := p.idx + groupLength i, stage := stageStep p.stage i }

/-- The parse behind some groups that were applied one after the other. -/
def Parse.addAll (p : Parse) (groups : List Instr) : Parse := groups.foldl Parse.add p

@[simp] theorem Parse.addAll_cons (p : Parse) (i : Instr) (groups : List Instr) :
    p.addAll (i :: groups) = (p.add i).addAll groups := rfl

theorem Parse.addAll_idx (p : Parse) (groups : List Instr) :
    (p.addAll groups).idx = p.idx + (groups.map groupLength).sum := by
  induction groups generalizing p with
  | nil => rfl
  | cons i groups ih => simp [ih, Parse.add, Nat.add_assoc]

theorem Parse.addAll_stage (p : Parse) (groups : List Instr) :
    (p.addAll groups).stage = groups.foldl stageStep p.stage := by
  induction groups generalizing p with
  | nil => rfl
  | cons i groups ih => simp [ih, Parse.add]

theorem stageAfter_eq (groups : List Instr) : stageAfter groups = groups.foldl stageStep 0 := by
  unfold stageAfter
  congr
  funext stage i
  rw [stageStep]
  cases orderIndex i.tagClass <;> rfl

theorem Parse.start_addAll_stage (c : Nat) (groups : List Instr) :
    ((Parse.start c).addAll groups).stage = stageAfter groups :=
  (Parse.addAll_stage _ _).trans (stageAfter_eq groups).symm

theorem applyGroup_record {len : Nat} {i : Instr} {p p' : Parse} (h : applyGroup len i p = .ok p') :
    p'.record = addGroup i p.record := by
  cases i with
  | skip | seq | nseqTrap | nseqRet | nseqJump | nseqBranch | rsvd => cases h; rfl
  | bkpt reason => obtain ⟨-, rfl⟩ := (parseBkpt_eq_ok _ _ _ _).1 h; rfl
  | dataPc pairs data => obtain ⟨-, rfl⟩ := (parsePc_eq_ok _ _ _ _ _).1 h; rfl
  | dataWb pairs data => obtain ⟨-, rfl⟩ := (parseWb_eq_ok _ _ _ _ _).1 h; rfl
  | dataBadlen r n => simp [applyGroup, parseBadlen_eq] at h

/-- A group that is applied is added. -/
theorem applyGroup_ok_eq {len o : Nat} {i : Instr} {p p' : Parse} (h : applyGroup len i p = .ok p')
    (ho : orderIndex i.tagClass = some o) : p' = p.add i := by
  obtain ⟨hidx, hstage, -⟩ := applyGroup_ok len i p p' h o ho
  obtain ⟨record, idx, stage⟩ := p'
  obtain rfl : record = addGroup i p.record := applyGroup_record h
  obtain rfl : idx = p.idx + groupLength i := hidx
  obtain rfl : stage = o + 1 := hstage
  rw [Parse.add, stageStep_of_order ho]

/-- A group that a record can hold: one of the format, and not of a reserved length. -/
abbrev LegalGroup (i : Instr) : Prop := i.wf = true ∧ i.opcode ≠ .dataBadlen

/-- A legal group is added where it is whole in the stream (R105 to R110). -/
theorem applyGroup_of_fits {len o : Nat} {i : Instr} {p : Parse} (ho : orderIndex i.tagClass = some o)
    (hlegal : LegalGroup i) (hl : p.idx + groupLength i ≤ len) : applyGroup len i p = .ok (p.add i) := by
  obtain ⟨p', hp'⟩ : ∃ p', applyGroup len i p = .ok p' := by
    cases i with
    | bkpt reason => exact ⟨_, (parseBkpt_eq_ok _ _ _ _).2 ⟨hl, rfl⟩⟩
    | dataPc pairs data =>
      obtain ⟨hk, -⟩ := (dataOfReason_wf 0 pairs data).1 hlegal.1
      exact ⟨_, (parsePc_eq_ok _ _ _ _ _).2 ⟨⟨hk, (Nat.add_assoc _ _ _).trans_le hl⟩, rfl⟩⟩
    | dataWb pairs data =>
      obtain ⟨hk, -⟩ := (dataOfReason_wf 1 pairs data).1 hlegal.1
      exact ⟨_, (parseWb_eq_ok _ _ _ _ _).2 ⟨⟨hk, (Nat.add_assoc _ _ _).trans_le hl⟩, rfl⟩⟩
    | dataBadlen r n => exact absurd rfl hlegal.2
    | _ => exact ⟨_, rfl⟩
  rw [hp', applyGroup_ok_eq hp' ho]

/-- A group of the format is truncated only where the stream ends inside it (R127). -/
theorem lt_of_applyGroup_truncated {len : Nat} {i : Instr} {p : Parse} (hwf : i.wf = true)
    (h : applyGroup len i p = .error .truncatedStream) : len < p.idx + groupLength i := by
  cases i with
  | bkpt reason =>
    obtain ⟨hl, -⟩ := (parseBkpt_eq_error _ _ _ _).1 h
    exact Nat.lt_succ_of_le hl
  | dataPc pairs data =>
    have hcut := (checkData_eq_truncated _ _ _).1 ((parsePc_eq_error _ _ _ _ _).1 h)
    simp only [groupLength]
    omega
  | dataWb pairs data =>
    have hcut := (checkData_eq_truncated _ _ _).1 ((parseWb_eq_error _ _ _ _ _).1 h)
    simp only [groupLength]
    omega
  | dataBadlen r n =>
    have h := (parseBadlen_eq len n p).symm.trans h
    simp only [groupLength]
    split at h
    · omega
    · cases h
  | _ => cases h

/-! ## Where a record goes on -/

/-- A record goes on exactly where a tag of its stage or above stands (R111). -/
theorem recordEndsAt_eq_false (stream : NybbleStream) (idx stage : Nat) :
    recordEndsAt stream idx stage = false ↔
      ∃ t o, stream[idx]? = some t ∧ orderIndex (tagClass t) = some o ∧ stage ≤ o := by
  constructor
  · intro h
    unfold recordEndsAt at h
    split at h
    · cases h
    · next t ht =>
      split at h
      · cases h
      · next o ho => exact ⟨t, o, ht, ho, Nat.not_lt.1 (of_decide_eq_false h)⟩
  · rintro ⟨t, o, ht, ho, hle⟩
    exact recordEndsAt_of_order ht ho hle

/-- No group follows a DATA group (R54, R111). -/
theorem stage_lt_four {stream : NybbleStream} {idx stage : Nat} (h : recordEndsAt stream idx stage = false) : stage < 4 := by
  obtain ⟨t, o, -, ho, hle⟩ := (recordEndsAt_eq_false _ _ _).1 h
  exact Nat.lt_of_le_of_lt hle (orderIndex_lt_four _ _ ho)

theorem recordEndsAt_of_four_le (stream : NybbleStream) (idx : Nat) {stage : Nat} (h : 4 ≤ stage) :
    recordEndsAt stream idx stage = true := by
  by_contra hgoes
  rw [Bool.not_eq_true] at hgoes
  exact absurd (stage_lt_four hgoes) (Nat.not_lt.2 h)

theorem lt_length_of_not_ends {stream : NybbleStream} {idx stage : Nat} (h : recordEndsAt stream idx stage = false) :
    idx < stream.length := by
  obtain ⟨t, -, ht, -⟩ := (recordEndsAt_eq_false _ _ _).1 h
  exact (List.getElem?_eq_some_iff.1 ht).1

/-! ## Groups that stand in a stream -/

/-- Legal groups in emission order, from a stage on, stand in a row at an index of the stream. -/
structure StandsInOrder (stream : NybbleStream) (idx stage : Nat) (groups : List Instr) : Prop where
  order : inEmissionOrder stage groups = true
  legal : ∀ i ∈ groups, LegalGroup i
  stands : groups.flatMap encode <+: stream.drop idx

theorem StandsInOrder.nil (stream : NybbleStream) (idx stage : Nat) : StandsInOrder stream idx stage [] :=
  ⟨rfl, by simp, by simp⟩

theorem inEmissionOrder_cons (stage : Nat) (i : Instr) (groups : List Instr) :
    inEmissionOrder stage (i :: groups) = true ↔
      ∃ o, orderIndex i.tagClass = some o ∧ stage ≤ o ∧ inEmissionOrder (o + 1) groups = true := by
  cases ho : orderIndex i.tagClass <;> simp [inEmissionOrder, ho]

theorem drop_groupLength {l after : List Nybble} {i : Instr} (hwf : i.wf = true) (h : encode i ++ after = l) :
    l.drop (groupLength i) = after := by
  rw [← h, ← encode_length i hwf, List.drop_left]

/-- What follows a group that stands at an index stands behind it. -/
theorem append_prefix_drop_iff {stream : NybbleStream} {idx : Nat} {i : Instr} (more : List Nybble) (hwf : i.wf = true) :
    encode i ++ more <+: stream.drop idx ↔
      encode i <+: stream.drop idx ∧ more <+: stream.drop (idx + groupLength i) := by
  rw [← List.drop_drop]
  constructor
  · rintro ⟨after, h⟩
    rw [List.append_assoc] at h
    exact ⟨⟨_, h⟩, ⟨after, (drop_groupLength hwf h).symm⟩⟩
  · rintro ⟨⟨after, h⟩, hmore⟩
    rw [drop_groupLength hwf h] at hmore
    rwa [← h, List.prefix_append_right_inj]

theorem standsInOrder_cons (stream : NybbleStream) (idx stage : Nat) (i : Instr) (groups : List Instr) :
    StandsInOrder stream idx stage (i :: groups) ↔
      ∃ o, orderIndex i.tagClass = some o ∧ stage ≤ o ∧ LegalGroup i ∧ encode i <+: stream.drop idx ∧
        StandsInOrder stream (idx + groupLength i) (o + 1) groups := by
  constructor
  · rintro ⟨horder, hlegal, hstands⟩
    obtain ⟨o, ho, hle, hrest⟩ := (inEmissionOrder_cons _ _ _).1 horder
    obtain ⟨hi, hgroups⟩ := List.forall_mem_cons.1 hlegal
    obtain ⟨hfirst, hlater⟩ := (append_prefix_drop_iff _ hi.1).1 hstands
    exact ⟨o, ho, hle, hi, hfirst, hrest, hgroups, hlater⟩
  · rintro ⟨o, ho, hle, hi, hfirst, hrest, hgroups, hlater⟩
    exact ⟨(inEmissionOrder_cons _ _ _).2 ⟨o, ho, hle, hrest⟩, List.forall_mem_cons.2 ⟨hi, hgroups⟩,
      (append_prefix_drop_iff _ hi.1).2 ⟨hfirst, hlater⟩⟩

/-- A group that stands at an index is whole in the stream. -/
theorem groupLength_le_of_prefix {stream : NybbleStream} {idx : Nat} {i : Instr} (hwf : i.wf = true)
    (hidx : idx ≤ stream.length) (h : encode i <+: stream.drop idx) : idx + groupLength i ≤ stream.length := by
  have hle := h.length_le
  rw [encode_length i hwf, List.length_drop] at hle
  omega

/-- The tag of a group that stands at an index is there. -/
theorem tag_of_prefix {stream : NybbleStream} {idx : Nat} {i : Instr} (hwf : i.wf = true)
    (h : encode i <+: stream.drop idx) : ∃ t, stream[idx]? = some t ∧ tagClass t = i.tagClass := by
  obtain ⟨-, t, tail, hshape, hclass⟩ := encodedShape i hwf
  obtain ⟨after, h⟩ := h
  refine ⟨t, ?_, hclass⟩
  rw [← Nat.add_zero idx, ← List.getElem?_drop, ← h, hshape]
  rfl

theorem decodeGroup_of_prefix {l : List Nybble} {i : Instr} (hwf : i.wf = true) (h : encode i <+: l) :
    ∃ rest, decodeGroup l = .ok (i, rest) := by
  obtain ⟨rest, rfl⟩ := h
  exact ⟨rest, decodeGroup_encode i rest hwf⟩

/-- Where a group of a record's stage or above stands, the record goes on. -/
theorem not_ends_of_prefix {stream : NybbleStream} {idx stage o : Nat} {i : Instr} (hwf : i.wf = true)
    (h : encode i <+: stream.drop idx) (ho : orderIndex i.tagClass = some o) (hle : stage ≤ o) :
    recordEndsAt stream idx stage = false := by
  obtain ⟨t, ht, hclass⟩ := tag_of_prefix hwf h
  exact recordEndsAt_of_order ht (hclass ▸ ho) hle

/-- The legal group that stands at the parse's index is added to the parse (R104). -/
theorem parseGroup_of_prefix {stream : NybbleStream} {p : Parse} {i : Instr} {o : Nat} (hlegal : LegalGroup i)
    (ho : orderIndex i.tagClass = some o) (h : encode i <+: stream.drop p.idx) : parseGroup stream p = .ok (p.add i) := by
  obtain ⟨rest, hdecode⟩ := decodeGroup_of_prefix hlegal.1 h
  have hidx : p.idx < stream.length := lt_length_of_not_ends (not_ends_of_prefix hlegal.1 h ho (Nat.zero_le o))
  rw [parseGroup_of_decodeGroup hdecode]
  exact applyGroup_of_fits ho hlegal (groupLength_le_of_prefix hlegal.1 (Nat.le_of_lt hidx) h)

/-- Everything one round of the parse can do where the record goes on: a legal group of its stage or above stands there and is
added, or a fault is taken. -/
theorem parseGroup_of_not_ends {stream : NybbleStream} {p : Parse} (h : recordEndsAt stream p.idx p.stage = false) :
    (∃ i o, orderIndex i.tagClass = some o ∧ p.stage ≤ o ∧ LegalGroup i ∧ encode i <+: stream.drop p.idx ∧
        parseGroup stream p = .ok (p.add i)) ∨
      ∃ k, parseGroup stream p = .error k := by
  obtain ⟨t, o, ht, ho, hle⟩ := (recordEndsAt_eq_false _ _ _).1 h
  cases hparse : parseGroup stream p with
  | error k => exact .inr ⟨k, rfl⟩
  | ok p' =>
    obtain ⟨i, rest, hdecode, happly⟩ | ⟨e, -, herror⟩ := parseGroup_cases stream p
    · obtain ⟨hwf, hencode⟩ := encode_of_decodeGroup hdecode
      rw [drop_of_getElem? ht] at hdecode
      obtain ⟨hclass, -⟩ := class_and_length_of_decodeGroup hdecode
      have hadd := happly.symm.trans hparse
      have hbad : i.opcode ≠ .dataBadlen := by
        rintro hbad
        cases i <;> simp [Instr.opcode] at hbad
        simp [applyGroup, parseBadlen_eq] at hadd
      rw [← hclass] at ho
      exact .inl ⟨i, o, ho, hle, ⟨hwf, hbad⟩, ⟨rest, hencode⟩, congrArg _ (applyGroup_ok_eq hadd ho)⟩
    · cases herror.symm.trans hparse

/-! ## The greedy parse -/

/-- Enough rounds for a parse at a stage: every group raises the stage, and no group follows stage 4. -/
theorem parseLoop_of_stage {stream : NybbleStream} {p : Parse} (fuel : Nat) (h : 4 ≤ p.stage) :
    parseLoop stream fuel p = .ok p :=
  parseLoop_of_ends _ _ _ (recordEndsAt_of_four_le _ _ h)

theorem parseLoop_of_parseGroup {stream : NybbleStream} {p p' : Parse} (fuel : Nat)
    (hends : recordEndsAt stream p.idx p.stage = false) (h : parseGroup stream p = .ok p') :
    parseLoop stream (fuel + 1) p = parseLoop stream fuel p' := by
  rw [parseLoop_of_not_ends stream fuel p hends, h]

theorem parseLoop_of_parseGroup_error {stream : NybbleStream} {p : Parse} {k : Fault} (fuel : Nat)
    (hends : recordEndsAt stream p.idx p.stage = false) (h : parseGroup stream p = .error k) :
    parseLoop stream (fuel + 1) p = .error k := by
  rw [parseLoop_of_not_ends stream fuel p hends, h]

/-- Everything the greedy parse can do: it adds legal groups in emission order, and behind them the record ends or a fault is
taken (R104, R111). -/
theorem parseLoop_cases (stream : NybbleStream) (fuel : Nat) (p : Parse) (hfuel : 4 ≤ fuel + p.stage) :
    ∃ groups, StandsInOrder stream p.idx p.stage groups ∧
      ((recordEndsAt stream (p.addAll groups).idx (p.addAll groups).stage = true ∧
          parseLoop stream fuel p = .ok (p.addAll groups)) ∨
        ∃ k, recordEndsAt stream (p.addAll groups).idx (p.addAll groups).stage = false ∧
          parseGroup stream (p.addAll groups) = .error k ∧ parseLoop stream fuel p = .error k) := by
  induction fuel generalizing p with
  | zero =>
    have hstage : 4 ≤ p.stage := by omega
    exact ⟨[], .nil _ _ _, .inl ⟨recordEndsAt_of_four_le _ _ hstage, parseLoop_of_stage 0 hstage⟩⟩
  | succ fuel ih =>
    cases hends : recordEndsAt stream p.idx p.stage with
    | true => exact ⟨[], .nil _ _ _, .inl ⟨hends, parseLoop_of_ends _ _ _ hends⟩⟩
    | false =>
      obtain ⟨i, o, ho, hle, hlegal, hstands, hparse⟩ | ⟨k, hfault⟩ := parseGroup_of_not_ends hends
      · have hstage : (p.add i).stage = o + 1 := stageStep_of_order ho
        obtain ⟨groups, hgroups, hend⟩ := ih (p.add i) (by omega)
        rw [hstage] at hgroups
        exact ⟨i :: groups, (standsInOrder_cons _ _ _ _ _).2 ⟨o, ho, hle, hlegal, hstands, hgroups⟩,
          by rwa [parseLoop_of_parseGroup fuel hends hparse]⟩
      · exact ⟨[], .nil _ _ _, .inr ⟨k, hends, hfault, parseLoop_of_parseGroup_error fuel hends hfault⟩⟩

/-- Groups that stand in emission order are added one by one, and enough rounds are left for what follows. -/
theorem parseLoop_of_standsInOrder {stream : NybbleStream} {groups : List Instr} (p : Parse) (fuel : Nat)
    (hfuel : 4 ≤ fuel + p.stage) (h : StandsInOrder stream p.idx p.stage groups) :
    ∃ fuel', 4 ≤ fuel' + (p.addAll groups).stage ∧ parseLoop stream fuel p = parseLoop stream fuel' (p.addAll groups) := by
  induction groups generalizing p fuel with
  | nil => exact ⟨fuel, hfuel, rfl⟩
  | cons i groups ih =>
    obtain ⟨o, ho, hle, hlegal, hstands, hgroups⟩ := (standsInOrder_cons _ _ _ _ _).1 h
    have hends := not_ends_of_prefix hlegal.1 hstands ho hle
    have hparse := parseGroup_of_prefix hlegal ho hstands
    have hstage : (p.add i).stage = o + 1 := stageStep_of_order ho
    obtain ⟨fuel, rfl⟩ : ∃ n, fuel = n + 1 := Nat.exists_eq_succ_of_ne_zero (by have := stage_lt_four hends; omega)
    rw [parseLoop_of_parseGroup fuel hends hparse]
    exact ih (p.add i) fuel (by omega) (by rwa [hstage])

/-- Four rounds or any other number that is enough: the parse ends alike. -/
theorem parseLoop_fuel (stream : NybbleStream) (fuel fuel' : Nat) (p : Parse) (hfuel : 4 ≤ fuel + p.stage)
    (hfuel' : 4 ≤ fuel' + p.stage) : parseLoop stream fuel p = parseLoop stream fuel' p := by
  induction fuel generalizing p fuel' with
  | zero => rw [parseLoop_of_stage 0 (by omega), parseLoop_of_stage fuel' (by omega)]
  | succ fuel ih =>
    cases hends : recordEndsAt stream p.idx p.stage with
    | true => rw [parseLoop_of_ends _ _ _ hends, parseLoop_of_ends _ _ _ hends]
    | false =>
      obtain ⟨fuel', rfl⟩ : ∃ n, fuel' = n + 1 := Nat.exists_eq_succ_of_ne_zero (by have := stage_lt_four hends; omega)
      obtain ⟨i, o, ho, hle, -, -, hparse⟩ | ⟨k, hfault⟩ := parseGroup_of_not_ends hends
      · have hstage : (p.add i).stage = o + 1 := stageStep_of_order ho
        rw [parseLoop_of_parseGroup _ hends hparse, parseLoop_of_parseGroup _ hends hparse]
        exact ih fuel' (p.add i) (by omega) (by omega)
      · rw [parseLoop_of_parseGroup_error _ hends hfault, parseLoop_of_parseGroup_error _ hends hfault]

/-! ## The call -/

/-- The record that some groups make (R104 to R110). -/
def recordOfGroups (groups : List Instr) : DecompressedRecord :=
  groups.foldl (fun r i => addGroup i r) DecompressedRecord.empty

theorem Parse.addAll_record (p : Parse) (groups : List Instr) :
    (p.addAll groups).record = groups.foldl (fun r i => addGroup i r) p.record := by
  induction groups generalizing p with
  | nil => rfl
  | cons i groups ih => simp [ih, Parse.add]

/-- The outcome of a call whose parse ended behind some groups (R112). -/
theorem outcomeOfParse_addAll (c : Nat) (groups : List Instr) :
    outcomeOfParse c (.ok ((Parse.start c).addAll groups)) =
      .ok (recordOfGroups groups) (groups.map groupLength).sum := by
  have hidx : ((Parse.start c).addAll groups).idx = c + (groups.map groupLength).sum := Parse.addAll_idx _ _
  rw [outcomeOfParse, hidx, Nat.add_sub_cancel_left, Parse.addAll_record]
  rfl

/-- A call that starts where a record can begin is the greedy parse (R104). -/
theorem decodeOutcome_of_not_ends {stream : NybbleStream} {c : Nat} (h : recordEndsAt stream c 0 = false) :
    decodeOutcome stream c = outcomeOfParse c (parseLoop stream 4 (Parse.start c)) := by
  obtain ⟨t, o, ht, ho, -⟩ := (recordEndsAt_eq_false _ _ _).1 h
  exact decodeOutcome_of_group ht ho

/-- How a call can end that starts where a record can begin: groups in emission order stand from the cursor on, and behind them
the record ends and is delivered, or a fault is taken (R104, R111, R112, R130). -/
inductive CallEnds (stream : NybbleStream) (c : Nat) : Prop where
  | delivered (groups : List Instr) (stands : StandsInOrder stream c 0 groups) (nonempty : groups ≠ [])
      (ends : recordEndsAt stream (c + (groups.map groupLength).sum) (stageAfter groups) = true)
      (outcome : decodeOutcome stream c = .ok (recordOfGroups groups) (groups.map groupLength).sum)
  | faulted (groups : List Instr) (k : Fault) (stands : StandsInOrder stream c 0 groups)
      (goes : recordEndsAt stream (c + (groups.map groupLength).sum) (stageAfter groups) = false)
      (fault : parseGroup stream ((Parse.start c).addAll groups) = .error k)
      (outcome : decodeOutcome stream c = .fault k)

theorem callEnds {stream : NybbleStream} {c : Nat} (h : recordEndsAt stream c 0 = false) : CallEnds stream c := by
  have houtcome := decodeOutcome_of_not_ends h
  obtain ⟨groups, hstands, hend⟩ := parseLoop_cases stream 4 (Parse.start c) (Nat.le_add_right 4 _)
  rw [Parse.start_addAll_stage, Parse.addAll_idx] at hend
  obtain ⟨hends, hparse⟩ | ⟨k, hgoes, hfault, hparse⟩ := hend
  · refine .delivered groups hstands ?_ hends (by rw [houtcome, hparse, outcomeOfParse_addAll])
    rintro rfl
    exact absurd hends (by simpa [Parse.start, stageAfter] using h)
  · exact .faulted groups k hstands hgoes hfault (by rw [houtcome, hparse]; rfl)

/-- Everything a decode call can do, by the nybble at the cursor (R101 to R104). -/
theorem decodeOutcome_cases (stream : NybbleStream) (c : Nat) :
    (stream[c]? = none ∧ decodeOutcome stream c = .exhausted) ∨
      (stream[c]? = some 0b0000#4 ∧ decodeOutcome stream c = .ok DecompressedRecord.empty 1) ∨
      (∃ t, stream[c]? = some t ∧ tagClass t = .rsvd ∧ decodeOutcome stream c = .fault .reservedTagEncountered) ∨
      (recordEndsAt stream c 0 = false ∧ CallEnds stream c) := by
  cases ht : stream[c]? with
  | none => exact .inl ⟨rfl, decodeOutcome_of_end ht⟩
  | some t =>
    cases ho : orderIndex (tagClass t) with
    | none =>
      obtain hskip | hrsvd := (orderIndex_eq_none _).1 ho
      · exact .inr (.inl ⟨congrArg _ ((tagClass_eq_skip t).1 hskip), decodeOutcome_of_skip ht hskip⟩)
      · exact .inr (.inr (.inl ⟨t, rfl, hrsvd, decodeOutcome_of_rsvd ht hrsvd⟩))
    | some o =>
      have hgoes := recordEndsAt_of_order ht ho (Nat.zero_le o)
      exact .inr (.inr (.inr ⟨hgoes, callEnds hgoes⟩))

/-- Where groups in emission order stand, a call is the rest of the parse behind them. -/
theorem decodeOutcome_of_standsInOrder {stream : NybbleStream} {c : Nat} {groups : List Instr}
    (hgoes : recordEndsAt stream c 0 = false) (h : StandsInOrder stream c 0 groups) :
    ∃ fuel, 4 ≤ fuel + stageAfter groups ∧
      decodeOutcome stream c = outcomeOfParse c (parseLoop stream fuel ((Parse.start c).addAll groups)) := by
  obtain ⟨fuel, hfuel, hparse⟩ := parseLoop_of_standsInOrder (Parse.start c) 4 (Nat.le_add_right 4 _) h
  rw [Parse.start_addAll_stage] at hfuel
  exact ⟨fuel, hfuel, by rw [decodeOutcome_of_not_ends hgoes, hparse]⟩

theorem not_ends_of_standsInOrder {stream : NybbleStream} {c : Nat} {groups : List Instr} (hne : groups ≠ [])
    (h : StandsInOrder stream c 0 groups) : recordEndsAt stream c 0 = false := by
  cases groups with
  | nil => exact absurd rfl hne
  | cons i groups =>
    obtain ⟨o, ho, hle, hlegal, hstands, -⟩ := (standsInOrder_cons _ _ _ _ _).1 h
    exact not_ends_of_prefix hlegal.1 hstands ho hle

/-- A call on groups in emission order behind which the record ends delivers them (R104, R111, R112). -/
theorem decodeOutcome_of_groups {stream : NybbleStream} {c : Nat} {groups : List Instr} (hne : groups ≠ [])
    (h : StandsInOrder stream c 0 groups)
    (hends : recordEndsAt stream (c + (groups.map groupLength).sum) (stageAfter groups) = true) :
    decodeOutcome stream c = .ok (recordOfGroups groups) (groups.map groupLength).sum := by
  obtain ⟨fuel, -, houtcome⟩ := decodeOutcome_of_standsInOrder (not_ends_of_standsInOrder hne h) h
  rw [houtcome, parseLoop_of_ends _ _ _ (by rwa [Parse.start_addAll_stage, Parse.addAll_idx]), outcomeOfParse_addAll]

end Sys2Proof.Machine
end

section
/-!
PROOFS. The record that groups in emission order make: it carries exactly these groups, it is well-formed, and there is room for
at most 16 nybbles (R20, R54, R112, R118).
-/

namespace Sys2Proof.Machine

/-! ## What is not set before its stage -/

/-- The parts of a record that only groups of a stage or above set are not set yet (R104). -/
structure FreshFrom (stage : Nat) (r : DecompressedRecord) : Prop where
  seq : stage ≤ 0 → r.seqValid = false
  nonseq : stage ≤ 1 → r.trap = false ∧ r.isReturn = false ∧ r.isIndirectJump = false ∧ r.branchTaken = false
  bkpt : stage ≤ 2 → r.breakpointValid = false
  data : stage ≤ 3 → r.pcValid = false ∧ r.writebackValid = false

theorem freshFrom_empty : FreshFrom 0 DecompressedRecord.empty :=
  ⟨fun _ => rfl, fun _ => ⟨rfl, rfl, rfl, rfl⟩, fun _ => rfl, fun _ => ⟨rfl, rfl⟩⟩

theorem FreshFrom.mono {stage stage' : Nat} {r : DecompressedRecord} (h : FreshFrom stage r) (hle : stage ≤ stage') :
    FreshFrom stage' r :=
  ⟨fun h' => h.seq (hle.trans h'), fun h' => h.nonseq (hle.trans h'), fun h' => h.bkpt (hle.trans h'),
    fun h' => h.data (hle.trans h')⟩

/-- A group sets no part of a later stage. -/
theorem FreshFrom.addGroup {o : Nat} {i : Instr} {r : DecompressedRecord} (h : FreshFrom o r)
    (ho : orderIndex i.tagClass = some o) : FreshFrom (o + 1) (addGroup i r) := by
  cases i with
  | skip | rsvd => cases ho
  | seq n => cases ho; exact ⟨by simp, fun _ => h.nonseq (by simp), fun _ => h.bkpt (by simp), fun _ => h.data (by simp)⟩
  | nseqTrap | nseqRet | nseqJump | nseqBranch =>
    cases ho; exact ⟨by simp, by simp, fun _ => h.bkpt (by simp), fun _ => h.data (by simp)⟩
  | bkpt reason => cases ho; exact ⟨by simp, by simp, by simp, fun _ => h.data (by simp)⟩
  | dataPc | dataWb | dataBadlen => cases ho; exact ⟨by simp, by simp, by simp, by simp⟩

/-! ## The groups of the record (R118) -/

/-- A group that is added stands last among the record's groups. -/
theorem groupsOfRecord_addGroup {o : Nat} {i : Instr} {r : DecompressedRecord} (ho : orderIndex i.tagClass = some o)
    (h : FreshFrom o r) : groupsOfRecord (addGroup i r) = groupsOfRecord r ++ groupOfInstr i := by
  obtain ⟨hseq, hnonseq, hbkpt, hdata⟩ := h
  cases i with
  | skip | rsvd => cases ho
  | seq | bkpt | dataPc | dataWb => cases ho; simp_all [groupsOfRecord, reasonOfFlags, addGroup, groupOfInstr]
  | nseqTrap | nseqRet | nseqJump | nseqBranch =>
    cases ho; simp_all [groupsOfRecord, reasonOfFlags, addGroup, setReasonFlag, groupOfInstr]
  | dataBadlen r n => simp [addGroup, groupOfInstr]

theorem groupsOfRecord_foldl {stage : Nat} {groups : List Instr} {r : DecompressedRecord} (h : FreshFrom stage r)
    (horder : inEmissionOrder stage groups = true) :
    groupsOfRecord (groups.foldl (fun r i => addGroup i r) r) = groupsOfRecord r ++ groups.flatMap groupOfInstr := by
  induction groups generalizing stage r with
  | nil => simp
  | cons i groups ih =>
    obtain ⟨o, ho, hle, hrest⟩ := (inEmissionOrder_cons _ _ _).1 horder
    have hfresh := h.mono hle
    rw [List.foldl_cons, ih (hfresh.addGroup ho) hrest, groupsOfRecord_addGroup ho hfresh, List.flatMap_cons,
      List.append_assoc]

/-- A record that groups in emission order make carries exactly these groups. -/
theorem groupsOfRecord_recordOfGroups {groups : List Instr} (horder : inEmissionOrder 0 groups = true) :
    groupsOfRecord (recordOfGroups groups) = groups.flatMap groupOfInstr :=
  groupsOfRecord_foldl freshFrom_empty horder

/-! ## The record is well-formed (R20) -/

/-- A legal group keeps a record well-formed in which its part was not set. -/
theorem decompressedWF_addGroup {o : Nat} {i : Instr} {r : DecompressedRecord} (ho : orderIndex i.tagClass = some o)
    (hwf : i.wf = true) (h : FreshFrom o r) (hr : decompressedWF r = true) : decompressedWF (addGroup i r) = true := by
  obtain ⟨hseq, hnonseq, hbkpt, hdata⟩ := h
  cases i with
  | skip | rsvd | dataBadlen => exact hr
  | seq n => cases ho; simp_all [decompressedWF, addGroup, Instr.wf, seqCountLegal]
  | nseqTrap | nseqRet | nseqJump | nseqBranch =>
    cases ho; simp_all [decompressedWF, atMostOne, addGroup, setReasonFlag]
  | bkpt | dataPc | dataWb => cases ho; simp_all [decompressedWF, addGroup]

theorem decompressedWF_foldl {stage : Nat} {groups : List Instr} {r : DecompressedRecord} (h : FreshFrom stage r)
    (horder : inEmissionOrder stage groups = true) (hlegal : ∀ i ∈ groups, LegalGroup i) (hr : decompressedWF r = true) :
    decompressedWF (groups.foldl (fun r i => addGroup i r) r) = true := by
  induction groups generalizing stage r with
  | nil => exact hr
  | cons i groups ih =>
    obtain ⟨o, ho, hle, hrest⟩ := (inEmissionOrder_cons _ _ _).1 horder
    obtain ⟨hi, hgroups⟩ := List.forall_mem_cons.1 hlegal
    have hfresh := h.mono hle
    exact ih (hfresh.addGroup ho) hrest hgroups (decompressedWF_addGroup ho hi.1 hfresh hr)

theorem decompressedWF_recordOfGroups {groups : List Instr} (horder : inEmissionOrder 0 groups = true)
    (hlegal : ∀ i ∈ groups, LegalGroup i) : decompressedWF (recordOfGroups groups) = true :=
  decompressedWF_foldl freshFrom_empty horder hlegal (by decide)

/-! ## The room for groups (R55, R93) -/

/-- The most nybbles that groups from a stage on can take: 12 of a DATA group, 2 of a BKPT, 1 each of a NSEQ and a SEQ (R45). -/
def roomFrom : Nat → Nat
  | 0 => 16
  | 1 => 15
  | 2 => 14
  | 3 => 12
  | _ + 4 => 0

/-- A legal group takes no more than the room between its stage and the next. -/
theorem groupLength_add_roomFrom {o : Nat} {i : Instr} (ho : orderIndex i.tagClass = some o) (hwf : i.wf = true) :
    1 ≤ groupLength i ∧ groupLength i + roomFrom (o + 1) ≤ roomFrom o := by
  cases i with
  | skip | rsvd => cases ho
  | dataPc pairs data =>
    cases ho
    obtain ⟨hk, -⟩ := (dataOfReason_wf 0 pairs data).1 hwf
    simp only [groupLength, roomFrom]
    omega
  | dataWb pairs data =>
    cases ho
    obtain ⟨hk, -⟩ := (dataOfReason_wf 1 pairs data).1 hwf
    simp only [groupLength, roomFrom]
    omega
  | _ => cases ho; simp [groupLength, roomFrom]

theorem roomFrom_anti {stage stage' : Nat} (h : stage ≤ stage') : roomFrom stage' ≤ roomFrom stage := by
  refine antitone_nat_of_succ_le (fun n => ?_) h
  match n with
  | 0 | 1 | 2 | 3 => decide
  | _ + 4 => exact Nat.le_refl _

/-- Before stage 4 there is room for a DATA group. -/
theorem twelve_le_roomFrom {stage : Nat} (h : stage < 4) : 12 ≤ roomFrom stage := roomFrom_anti (Nat.le_of_lt_succ h)

/-- Groups in emission order leave the room of the stage behind them. -/
theorem sum_groupLength_add_roomFrom {stage : Nat} {groups : List Instr} (horder : inEmissionOrder stage groups = true)
    (hlegal : ∀ i ∈ groups, LegalGroup i) :
    (groups.map groupLength).sum + roomFrom (groups.foldl stageStep stage) ≤ roomFrom stage := by
  induction groups generalizing stage with
  | nil => simp
  | cons i groups ih =>
    obtain ⟨o, ho, hle, hrest⟩ := (inEmissionOrder_cons _ _ _).1 horder
    obtain ⟨hi, hgroups⟩ := List.forall_mem_cons.1 hlegal
    have hlater := ih hrest hgroups
    obtain ⟨-, hroom⟩ := groupLength_add_roomFrom ho hi.1
    have hanti := roomFrom_anti hle
    simp only [List.map_cons, List.sum_cons, List.foldl_cons, stageStep_of_order ho]
    omega

/-- Groups of one record take at most 16 nybbles, and at most 4 where another group can follow. -/
theorem StandsInOrder.sum_add_roomFrom {stream : NybbleStream} {c : Nat} {groups : List Instr}
    (h : StandsInOrder stream c 0 groups) :
    (groups.map groupLength).sum + roomFrom (stageAfter groups) ≤ 16 := by
  rw [stageAfter_eq]
  exact sum_groupLength_add_roomFrom h.order h.legal

theorem length_flatMap_encode {groups : List Instr} (h : ∀ i ∈ groups, i.wf = true) :
    (groups.flatMap encode).length = (groups.map groupLength).sum := by
  induction groups with
  | nil => rfl
  | cons i groups ih =>
    obtain ⟨hi, hgroups⟩ := List.forall_mem_cons.1 h
    simp [encode_length i hi, ih hgroups]

theorem StandsInOrder.length_flatMap {stream : NybbleStream} {c stage : Nat} {groups : List Instr}
    (h : StandsInOrder stream c stage groups) : (groups.flatMap encode).length = (groups.map groupLength).sum :=
  length_flatMap_encode fun i hi => (h.legal i hi).1

/-- Groups that stand at an index within the stream are whole in it. -/
theorem StandsInOrder.sum_le_length {stream : NybbleStream} {c stage : Nat} {groups : List Instr}
    (h : StandsInOrder stream c stage groups) (hc : c ≤ stream.length) :
    c + (groups.map groupLength).sum ≤ stream.length := by
  have hle := h.stands.length_le
  rw [h.length_flatMap, List.length_drop] at hle
  omega

/-- The nybbles of groups that stand at an index are the first ones there. -/
theorem StandsInOrder.take_sum {stream : NybbleStream} {c stage : Nat} {groups : List Instr}
    (h : StandsInOrder stream c stage groups) :
    (stream.drop c).take (groups.map groupLength).sum = groups.flatMap encode := by
  rw [← h.length_flatMap]
  exact (List.prefix_iff_eq_take.1 h.stands).symm

theorem StandsInOrder.sum_pos {stream : NybbleStream} {c stage : Nat} {groups : List Instr} (hne : groups ≠ [])
    (h : StandsInOrder stream c stage groups) : 1 ≤ (groups.map groupLength).sum := by
  cases groups with
  | nil => exact absurd rfl hne
  | cons i groups =>
    obtain ⟨o, ho, -, hlegal, -⟩ := (standsInOrder_cons _ _ _ _ _).1 h
    obtain ⟨hpos, -⟩ := groupLength_add_roomFrom ho hlegal.1
    simp only [List.map_cons, List.sum_cons]
    omega

/-! ## The outcome -/

theorem decodeOutcome_eq_of_decodeCall {stream : NybbleStream} {c : Nat} {o : DecodeOutcome}
    (h : decodeCall stream c = some o) : c ≤ stream.length ∧ decodeOutcome stream c = o := by
  by_cases hc : c ≤ stream.length
  · exact ⟨hc, Option.some.inj ((decodeCall_of_le hc).symm.trans h)⟩
  · simp [decodeCall, hc] at h

/-- How a call delivers a record: a skip, or groups in emission order behind which the record ends (R102, R104, R111, R112). -/
theorem delivered_of_decodeOutcome {stream : NybbleStream} {c n : Nat} {r : DecompressedRecord}
    (h : decodeOutcome stream c = .ok r n) :
    (stream[c]? = some 0b0000#4 ∧ r = DecompressedRecord.empty ∧ n = 1) ∨
      ∃ groups, groups ≠ [] ∧ StandsInOrder stream c 0 groups ∧ r = recordOfGroups groups ∧
        n = (groups.map groupLength).sum ∧ recordEndsAt stream (c + n) (stageAfter groups) = true := by
  obtain ⟨-, hout⟩ | ⟨ht, hout⟩ | ⟨t, -, -, hout⟩ | ⟨-, hcall⟩ := decodeOutcome_cases stream c
  · cases h.symm.trans hout
  · cases h.symm.trans hout
    exact .inl ⟨ht, rfl, rfl⟩
  · cases h.symm.trans hout
  · cases hcall with
    | delivered groups stands nonempty ends outcome =>
      cases h.symm.trans outcome
      exact .inr ⟨groups, nonempty, stands, rfl, rfl, ends⟩
    | faulted groups k stands goes fault outcome => cases h.symm.trans outcome

/-- A delivered record is well-formed, and took 1 to 16 nybbles of the stream (R20, R112). -/
theorem wf_of_decodeOutcome {stream : NybbleStream} {c n : Nat} {r : DecompressedRecord}
    (h : decodeOutcome stream c = .ok r n) : decompressedWF r = true ∧ 1 ≤ n ∧ n ≤ 16 ∧ c + n ≤ stream.length := by
  obtain ⟨ht, rfl, rfl⟩ | ⟨groups, hne, hstands, rfl, rfl, -⟩ := delivered_of_decodeOutcome h
  · exact ⟨by decide, Nat.le_refl 1, by decide, (List.getElem?_eq_some_iff.1 ht).1⟩
  · have hc := lt_length_of_not_ends (not_ends_of_standsInOrder hne hstands)
    exact ⟨decompressedWF_recordOfGroups hstands.order hstands.legal, hstands.sum_pos hne,
      (Nat.le_add_right _ _).trans hstands.sum_add_roomFrom, hstands.sum_le_length (Nat.le_of_lt hc)⟩

end Sys2Proof.Machine

namespace Sys2Proof.Proofs
open Machine

/-- Settles O27: a skip is the empty record, and groups in emission order set each part of a record at most once and have room for
16 nybbles. -/
theorem decodedRecordsAreWellFormed : Obligations.DecodedRecordsAreWellFormed := fun _ _ _ _ h =>
  wf_of_decodeOutcome (decodeOutcome_eq_of_decodeCall h).2

/-- Settles O28: the groups are the ones the greedy parse added. -/
theorem recordIsTheGreedyCut : Obligations.RecordIsTheGreedyCut := by
  intro stream c r n h
  obtain hskip | ⟨groups, hne, hstands, rfl, rfl, hends⟩ :=
    delivered_of_decodeOutcome (decodeOutcome_eq_of_decodeCall h).2
  · exact .inl hskip
  · exact .inr ⟨groups, hne, hstands.order, hstands.legal, hstands.take_sum, rfl,
      groupsOfRecord_recordOfGroups hstands.order, hends⟩

end Sys2Proof.Proofs
end

section
/-!
PROOFS. A step with no input waiting is the decoder's call: where a group stands its instruction is run, and where the stream ends
inside one the call is truncated (R100 to R104, R116, R127).
-/

namespace Sys2Proof.Machine

/-! ## A group that the stream cuts (R127) -/

/-- The stream ends inside the group whose tag stands at an index: a BKPT without its reason, a DATA without its header, a DATA of
a legal length without all its payload (R127). -/
def CutAt (stream : NybbleStream) (i : Nat) : Prop :=
  (stream[i]? = some 0b1101#4 ∧ stream.length ≤ i + 1) ∨
    (stream[i]? = some 0b1100#4 ∧ stream.length ≤ i + 1) ∨
    (stream[i]? = some 0b1100#4 ∧ ∃ header, stream[i + 1]? = some header ∧
      (header.extractLsb' 0 3 : BitVec 3).toNat ≤ 5 ∧
      stream.length < i + 2 + 2 * (header.extractLsb' 0 3 : BitVec 3).toNat)

/-- The same of the nybbles from a tag on. -/
theorem decodeGroup_eq_truncated (t : Nybble) (tail : List Nybble) :
    decodeGroup (t :: tail) = .error .truncated ↔
      (t = 0b1101#4 ∧ tail = []) ∨ (t = 0b1100#4 ∧ tail = []) ∨
        (t = 0b1100#4 ∧ ∃ header payload, tail = header :: payload ∧ (header.extractLsb' 0 3 : BitVec 3).toNat ≤ 5 ∧
          payload.length < 2 * (header.extractLsb' 0 3 : BitVec 3).toNat) := by
  obtain ⟨hskip, hseq, hnseq, hrsvd, hbkpt, hcut⟩ := decodeGroup_by_class t tail
  rw [← tagClass_eq_bkpt, ← tagClass_eq_data]
  cases htag : tagClass t with
  | skip => simp [hskip htag]
  | seq => simp [hseq htag]
  | nseq => simp [hnseq htag]
  | rsvd => simp [hrsvd htag]
  | bkpt =>
    cases tail with
    | nil => simp [hcut (.inl htag)]
    | cons reason tail =>
      obtain ⟨-, -, -, -, hread, -⟩ := decodeGroup_by_class t tail
      simp [hread reason htag]
  | data =>
    cases tail with
    | nil => simp [hcut (.inr htag)]
    | cons header payload =>
      by_cases hk : (header.extractLsb' 0 3 : BitVec 3).toNat ≤ 5
      · by_cases hl : payload.length < 2 * (header.extractLsb' 0 3 : BitVec 3).toNat
        · rw [decodeGroup_data_short t header payload htag hk hl]
          simpa using ⟨hk, hl⟩
        · rw [decodeGroup_data t header payload htag hk (Nat.not_lt.1 hl)]
          simpa using fun _ => Nat.not_lt.1 hl
      · rw [decodeGroup_badlen t header payload htag (Nat.not_le.1 hk)]
        simpa using fun h => absurd h hk

/-- A header and what follows it, as the nybbles from an index on. -/
theorem drop_eq_cons_iff (stream : NybbleStream) (i : Nat) (x : Nybble) (tail : List Nybble) :
    stream.drop i = x :: tail ↔ stream[i]? = some x ∧ tail = stream.drop (i + 1) := by
  constructor
  · intro h
    have hx : stream[i]? = some x := by rw [← Nat.add_zero i, ← List.getElem?_drop, h]; rfl
    rw [drop_of_getElem? hx] at h
    exact ⟨hx, (List.cons.inj h).2.symm⟩
  · rintro ⟨hx, rfl⟩
    exact drop_of_getElem? hx

/-- Reading a group from an index is truncated exactly where the stream cuts the group there (R127). -/
theorem decodeGroup_drop_eq_truncated (stream : NybbleStream) (i : Nat) :
    decodeGroup (stream.drop i) = .error .truncated ↔ CutAt stream i := by
  cases ht : stream[i]? with
  | none =>
    have hdrop : stream.drop i = [] := List.drop_eq_nil_iff.2 (List.getElem?_eq_none_iff.1 ht)
    simp [CutAt, hdrop, ht, decodeGroup]
  | some t =>
    have hi : i < stream.length := (List.getElem?_eq_some_iff.1 ht).1
    rw [drop_of_getElem? ht, decodeGroup_eq_truncated, CutAt, ht, List.drop_eq_nil_iff]
    simp only [Option.some.injEq, drop_eq_cons_iff]
    refine or_congr_right (or_congr_right (and_congr_right fun _ => exists_congr fun header => ?_))
    constructor
    · rintro ⟨_, ⟨hheader, rfl⟩, hk, hl⟩
      rw [List.length_drop] at hl
      have := add_two_le_length_of_getElem? hheader
      exact ⟨hheader, hk, by omega⟩
    · rintro ⟨hheader, hk, hl⟩
      refine ⟨_, ⟨hheader, rfl⟩, hk, ?_⟩
      rw [List.length_drop]
      have := add_two_le_length_of_getElem? hheader
      omega

theorem decodeGroup_eq_exhausted (l : List Nybble) : decodeGroup l = .error .exhausted ↔ l = [] := by
  constructor
  · intro h
    cases l with
    | nil => rfl
    | cons t tail =>
      obtain ⟨hskip, hseq, hnseq, hrsvd, hbkpt, hcut⟩ := decodeGroup_by_class t tail
      cases htag : tagClass t with
      | skip => cases (hskip htag).symm.trans h
      | seq => cases (hseq htag).symm.trans h
      | nseq => cases (hnseq htag).symm.trans h
      | rsvd => cases (hrsvd htag).symm.trans h
      | bkpt =>
        cases tail with
        | nil => cases (hcut (.inl htag)).symm.trans h
        | cons reason tail => simp [decodeGroup, htag] at h
      | data =>
        cases tail with
        | nil => cases (hcut (.inr htag)).symm.trans h
        | cons header tail =>
          simp only [decodeGroup, htag] at h
          split at h
          · cases h
          · split at h <;> cases h
  · rintro rfl
    rfl

/-- A group within the stream is whole in it where it is decoded. -/
theorem groupLength_le_of_decodeGroup {stream : NybbleStream} {idx : Nat} {i : Instr} {rest : List Nybble}
    (h : decodeGroup (stream.drop idx) = .ok (i, rest)) : i.wf = true ∧ idx + groupLength i ≤ stream.length := by
  obtain ⟨hwf, hencode⟩ := encode_of_decodeGroup h
  refine ⟨hwf, groupLength_le_of_prefix hwf ?_ ⟨rest, hencode⟩⟩
  by_contra hidx
  rw [List.drop_eq_nil_of_le (by omega)] at h
  cases h

/-- A group of a parse is truncated exactly where the stream cuts it (R127). -/
theorem parseGroup_eq_truncated {stream : NybbleStream} {p : Parse} (hidx : p.idx < stream.length) :
    parseGroup stream p = .error .truncatedStream ↔ CutAt stream p.idx := by
  rw [← decodeGroup_drop_eq_truncated]
  obtain ⟨i, rest, hdecode, happly⟩ | ⟨e, hdecode, herror⟩ := parseGroup_cases stream p
  · obtain ⟨hwf, hl⟩ := groupLength_le_of_decodeGroup hdecode
    rw [happly, hdecode]
    refine ⟨fun h => ?_, fun h => by cases h⟩
    have := lt_of_applyGroup_truncated hwf h
    omega
  · rw [herror, hdecode]
    refine ⟨fun _ => ?_, fun _ => rfl⟩
    cases e with
    | truncated => rfl
    | exhausted =>
      have hnil := List.drop_eq_nil_iff.1 ((decodeGroup_eq_exhausted _).1 hdecode)
      omega

/-- Only the groups of two nybbles and more can be cut, so a record can begin there. -/
theorem not_ends_of_cutAt {stream : NybbleStream} {i : Nat} (h : CutAt stream i) : recordEndsAt stream i 0 = false := by
  obtain ⟨ht, -⟩ | ⟨ht, -⟩ | ⟨ht, -⟩ := h
  · exact recordEndsAt_of_order ht (by decide : orderIndex (tagClass 0b1101#4) = some 2) (Nat.zero_le 2)
  · exact recordEndsAt_of_order ht (by decide : orderIndex (tagClass 0b1100#4) = some 3) (Nat.zero_le 3)
  · exact recordEndsAt_of_order ht (by decide : orderIndex (tagClass 0b1100#4) = some 3) (Nat.zero_le 3)

/-- A call whose groups lead to a cut group of the same record is truncated (R127, R130). -/
theorem decodeOutcome_of_groups_cut {stream : NybbleStream} {c : Nat} {groups : List Instr}
    (hgoes : recordEndsAt stream c 0 = false) (h : StandsInOrder stream c 0 groups)
    (hlater : recordEndsAt stream (c + (groups.map groupLength).sum) (stageAfter groups) = false)
    (hcut : CutAt stream (c + (groups.map groupLength).sum)) : decodeOutcome stream c = .fault .truncatedStream := by
  obtain ⟨fuel, hfuel, houtcome⟩ := decodeOutcome_of_standsInOrder hgoes h
  have hidx : ((Parse.start c).addAll groups).idx = c + (groups.map groupLength).sum := Parse.addAll_idx _ _
  have hstage := Parse.start_addAll_stage c groups
  obtain ⟨fuel, rfl⟩ : ∃ n, fuel = n + 1 := Nat.exists_eq_succ_of_ne_zero (by have := stage_lt_four hlater; omega)
  rw [← hidx] at hlater hcut
  rw [← hstage] at hlater
  rw [houtcome, parseLoop_of_parseGroup_error fuel hlater
    ((parseGroup_eq_truncated (lt_length_of_not_ends hlater)).2 hcut)]
  rfl

/-- A call that starts on a cut group is truncated (R127). -/
theorem decodeOutcome_of_cutAt {stream : NybbleStream} {c : Nat} (h : CutAt stream c) :
    decodeOutcome stream c = .fault .truncatedStream :=
  decodeOutcome_of_groups_cut (not_ends_of_cutAt h) (.nil stream c 0) (not_ends_of_cutAt h) h

/-! ## The instruction at the cursor (R104) -/

/-- The instruction of a group that a record can begin with is the rest of the call behind that group. -/
theorem exec_eq_runCall {i : Instr} {o : Nat} (s : State) (ho : orderIndex i.tagClass = some o) :
    exec i s = runCall (applyGroup s.mem.stream.length i (Parse.start s.cursor)) s := by
  cases i with
  | skip | rsvd => cases ho
  | _ => rfl

/-- Applying the group at the cursor first leaves a round more than enough. -/
theorem continueParse_parseGroup {stream : NybbleStream} {c : Nat} (hgoes : recordEndsAt stream c 0 = false) :
    continueParse stream (parseGroup stream (Parse.start c)) = parseLoop stream 4 (Parse.start c) := by
  have hends : recordEndsAt stream (Parse.start c).idx (Parse.start c).stage = false := hgoes
  obtain ⟨i, o, ho, -, -, -, hparse⟩ | ⟨k, hfault⟩ := parseGroup_of_not_ends hends
  · have hstage : ((Parse.start c).add i).stage = o + 1 := stageStep_of_order ho
    rw [hparse, continueParse_ok, parseLoop_of_parseGroup 3 hends hparse]
    exact parseLoop_fuel _ _ _ _ (by omega) (by omega)
  · rw [hfault, continueParse_error, parseLoop_of_parseGroup_error 3 hends hfault]

/-- Running the instruction that is decoded at the cursor reports the call's outcome (R104, R116). -/
theorem exec_of_decodeGroup {s : State} {i : Instr} {rest : List Nybble}
    (h : decodeGroup (s.mem.stream.drop s.cursor) = .ok (i, rest)) :
    exec i s = .next (report (decodeOutcome s.mem.stream s.cursor) s) := by
  obtain ⟨hwf, hencode⟩ := encode_of_decodeGroup h
  obtain ⟨t, ht, hclass⟩ := tag_of_prefix hwf ⟨rest, hencode⟩
  cases ho : orderIndex i.tagClass with
  | none =>
    cases i with
    | skip => rw [decodeOutcome_of_skip ht hclass]; rfl
    | rsvd x => rw [decodeOutcome_of_rsvd ht hclass]; rfl
    | _ => cases ho
  | some o =>
    have hgoes : recordEndsAt s.mem.stream s.cursor 0 = false :=
      recordEndsAt_of_order ht (hclass ▸ ho) (Nat.zero_le o)
    have hfirst := parseGroup_of_decodeGroup (p := Parse.start s.cursor) h
    rw [exec_eq_runCall s ho, ← hfirst, runCall_eq, continueParse_parseGroup hgoes, decodeOutcome_of_not_ends hgoes]

/-! ## The consumer's call (R100, R116) -/

theorem consumerCall_of_le {s : State} (h : s.cursor ≤ s.mem.stream.length) :
    consumerCall s = .next (report (decodeOutcome s.mem.stream s.cursor) s) := by
  obtain ⟨hlt, -⟩ | ⟨-, ⟨i, rest, hdecode, hcall⟩ | ⟨hend, hcall⟩ | ⟨hcut, hcall⟩⟩ := consumerCall_cases s
  · omega
  · rw [hcall, exec_of_decodeGroup hdecode]
  · have hnone : s.mem.stream[s.cursor]? = none :=
      List.getElem?_eq_none_iff.2 (List.drop_eq_nil_iff.1 ((decodeGroup_eq_exhausted _).1 hend))
    rw [hcall, decodeOutcome_of_end hnone]
  · rw [hcall, decodeOutcome_of_cutAt ((decodeGroup_drop_eq_truncated _ _).1 hcut)]

theorem consumerCall_of_lt {s : State} (h : s.mem.stream.length < s.cursor) :
    consumerCall s = .refused .cursorPastEnd := if_pos h

/-- A call on a cut group, and a step with no input waiting, reports the truncation alone (R127, R130). -/
theorem consumerCall_of_cutAt {s : State} (h : CutAt s.mem.stream s.cursor) :
    consumerCall s = .next { s with outcomes := s.outcomes ++ [.fault .truncatedStream] } ∧
      (s.inputs = [] → step s = .next { s with outcomes := s.outcomes ++ [.fault .truncatedStream] }) := by
  have hcall : consumerCall s = .next (report (.fault .truncatedStream) s) := by
    rw [consumerCall_of_le (Nat.le_of_lt (lt_length_of_not_ends (not_ends_of_cutAt h))), decodeOutcome_of_cutAt h]
  exact ⟨hcall, fun hq => (step_of_no_input s hq).trans hcall⟩

end Sys2Proof.Machine

namespace Sys2Proof.Proofs
open Machine

/-- Settles O23: both are total within the stream and report the same outcome there. -/
theorem stepRefinesTheDecoder : Obligations.StepRefinesTheDecoder := by
  intro s hq
  rw [step_of_no_input s hq]
  by_cases h : s.cursor ≤ s.mem.stream.length
  · rw [consumerCall_of_le h, decodeCall_of_le h]
  · rw [consumerCall_of_lt (Nat.not_le.1 h), decodeCall, if_neg h]

/-- Settles O22: a group that stands at the cursor is the one decoded there. -/
theorem instructionIsTheDecodeCall : Obligations.InstructionIsTheDecodeCall := by
  intro i s h
  rw [standsAtCursor, groupStandsAt, Bool.and_eq_true, List.isPrefixOf_iff_prefix] at h
  obtain ⟨hwf, hstands⟩ := h
  obtain ⟨rest, hdecode⟩ := decodeGroup_of_prefix hwf hstands
  obtain ⟨t, ht, -⟩ := tag_of_prefix hwf hstands
  exact ⟨_, decodeCall_of_getElem? ht, exec_of_decodeGroup hdecode⟩

/-- Settles O20. -/
theorem stepRunsTheDecodedInstruction : Obligations.StepRunsTheDecodedInstruction := by
  intro s i rest hc hdecode
  have hrun : ∀ q, consumerCall (s.setInputs q) = exec i (s.setInputs q) := fun q => by
    rw [consumerCall_of_le (s := s.setInputs q) hc, ← exec_of_decodeGroup (s := s.setInputs q) hdecode]
  refine ⟨fun hq => ?_, fun q hq => (step_of_input s _ _ hq).trans (hrun q)⟩
  rw [step_of_no_input s hq, consumerCall_of_le hc, ← exec_of_decodeGroup hdecode]

/-- Settles O21: there is no nybble at the end. -/
theorem endOfStreamIsExhausted : Obligations.EndOfStreamIsExhausted := by
  have hend : ∀ stream : NybbleStream, decodeOutcome stream stream.length = .exhausted := fun stream =>
    decodeOutcome_of_end (List.getElem?_eq_none_iff.2 (Nat.le_refl _))
  refine ⟨fun stream => by rw [decodeCall_of_le (Nat.le_refl _), hend], fun s hc => ?_⟩
  have hout : decodeOutcome s.mem.stream s.cursor = .exhausted := by rw [hc, hend]
  rw [consumerCall_of_le (Nat.le_of_eq hc), hout]
  rfl

/-- Settles O24: a fault is reported on the same stream and cursor, so the next call reports it again. -/
theorem faultChangesNothing : Obligations.FaultChangesNothing := by
  intro s k h
  obtain ⟨hc, hfault⟩ := decodeOutcome_eq_of_decodeCall h
  refine ⟨_, consumerCall_of_le hc, by rw [hfault]; rfl, ?_⟩
  have hagain : (report (decodeOutcome s.mem.stream s.cursor) s) = takeFault k s := by rw [hfault]; rfl
  rw [hagain, consumerCall_of_le (s := takeFault k s) hc, takeFault, State.pushOutcome_stream, State.pushOutcome_cursor,
    hfault]
  simp [report, takeFault, State.pushOutcome]

end Sys2Proof.Proofs
end

section
/-!
PROOFS. The instructions: what NSEQ, BKPT and DATA.WB deliver, the record their group is in, the faults of a cut group, and what
every instruction leaves unchanged (R105 to R110, R120, R127, R130).
-/

namespace Sys2Proof.Machine

/-! ## The nybbles of NSEQ and BKPT -/

/-- A nybble `10RR`: its class and its reason (R48). -/
theorem tagClass_nseqNybble : ∀ rr : BitVec 2,
    tagClass (0b10#2 ++ rr) = .nseq ∧ (0b10#2 ++ rr : Nybble).extractLsb' 0 2 = rr := by decide

/-- The NSEQ group of a reason code is parsed with that code (R49, R106). -/
theorem applyGroup_nseqOfReason (len : Nat) (rr : BitVec 2) (p : Parse) :
    applyGroup len (nseqOfReason rr) p = .ok (parseNseq rr p) := by
  have hcases : rr = 0 ∨ rr = 1 ∨ rr = 2 ∨ rr = 3 := by revert rr; decide
  obtain rfl | rfl | rfl | rfl := hcases <;> rfl

/-- A nybble `10RR` at the parse's index is parsed as NSEQ with the code `RR` (R106). -/
theorem parseGroup_nseq {stream : NybbleStream} {p : Parse} {rr : BitVec 2} (ht : stream[p.idx]? = some (0b10#2 ++ rr)) :
    parseGroup stream p = .ok (parseNseq rr p) := by
  obtain ⟨hclass, hrr⟩ := tagClass_nseqNybble rr
  obtain ⟨-, -, hdecode, -⟩ := decodeGroup_by_class (0b10#2 ++ rr) (stream.drop (p.idx + 1))
  rw [parseGroup_of_decodeGroup ((congrArg decodeGroup (drop_of_getElem? ht)).trans (hdecode hclass)), hrr,
    applyGroup_nseqOfReason]

theorem parseGroup_bkpt {stream : NybbleStream} {p : Parse} {reason : Nybble} (ht : stream[p.idx]? = some 0b1101#4)
    (hreason : stream[p.idx + 1]? = some reason) :
    parseGroup stream p =
      .ok ⟨{ p.record with breakpointValid := true, breakpointReason := reason }, p.idx + 2, 3⟩ := by
  have hdrop : stream.drop p.idx = 0b1101#4 :: reason :: stream.drop (p.idx + 1 + 1) := by
    rw [drop_of_getElem? ht, drop_of_getElem? hreason]
  obtain ⟨-, -, -, -, hdecode, -⟩ := decodeGroup_by_class 0b1101#4 (stream.drop (p.idx + 1 + 1))
  rw [parseGroup_of_decodeGroup ((congrArg decodeGroup hdrop).trans (hdecode reason ((tagClass_eq_bkpt _).2 rfl)))]
  exact (parseBkpt_eq_ok _ _ _ _).2 ⟨add_two_le_length_of_getElem? hreason, rfl⟩

/-! ## A call whose first group is applied, whatever stands at the cursor -/

/-- An instruction whose group is applied goes on behind it: the group is the record's first, or a fault is taken at a later
group of that record (R104, R130). -/
theorem exec_of_applied {i : Instr} {o : Nat} {s : State} (ho : orderIndex i.tagClass = some o)
    (happly : ∃ p, applyGroup s.mem.stream.length i (Parse.start s.cursor) = .ok p) :
    ∃ later, StandsInOrder s.mem.stream (s.cursor + groupLength i) (o + 1) later ∧
      ((exec i s = .next (report (.ok (recordOfGroups (i :: later)) ((i :: later).map groupLength).sum) s)) ∨
        ∃ k, recordEndsAt s.mem.stream ((Parse.start s.cursor).addAll (i :: later)).idx
              ((Parse.start s.cursor).addAll (i :: later)).stage = false ∧
            parseGroup s.mem.stream ((Parse.start s.cursor).addAll (i :: later)) = .error k ∧
            exec i s = .next (report (.fault k) s)) := by
  obtain ⟨p, hp⟩ := happly
  have hadd := applyGroup_ok_eq hp ho
  have hstage : ((Parse.start s.cursor).add i).stage = o + 1 := stageStep_of_order ho
  obtain ⟨later, hstands, hend⟩ := parseLoop_cases s.mem.stream 4 ((Parse.start s.cursor).add i) (Nat.le_add_right 4 _)
  rw [hstage] at hstands
  rw [exec_eq_runCall s ho, hp, runCall_eq, continueParse_ok, hadd]
  refine ⟨later, hstands, hend.imp (fun ⟨_, hparse⟩ => ?_) (fun ⟨k, hgoes, hfault, hparse⟩ => ⟨k, hgoes, hfault, ?_⟩)⟩
  · rw [hparse, ← Parse.addAll_cons, outcomeOfParse_addAll]
  · rw [hparse]
    rfl

/-- A fault of a later group is one that a group can raise (R126 to R128). -/
theorem parseGroup_error {stream : NybbleStream} {p : Parse} {k : Fault} (h : parseGroup stream p = .error k) :
    k = .truncatedStream ∨ k = .badDataLength := by
  obtain ⟨i, rest, -, happly⟩ | ⟨e, -, herror⟩ := parseGroup_cases stream p
  · exact applyGroup_error _ _ _ _ (happly.symm.trans h)
  · cases herror.symm.trans h
    exact .inl rfl

/-- The instructions of one nybble that a record can hold, and BKPT where its reason is in the stream, are applied. -/
theorem applied_of_short {i : Instr} {len : Nat} {p : Parse}
    (h : (∃ n, i = .seq n) ∨ i = .nseqTrap ∨ i = .nseqRet ∨ i = .nseqJump ∨ i = .nseqBranch ∨
      (∃ reason, i = .bkpt reason ∧ p.idx + 2 ≤ len)) :
    (∃ o, orderIndex i.tagClass = some o) ∧ ∃ p', applyGroup len i p = .ok p' := by
  obtain ⟨n, rfl⟩ | rfl | rfl | rfl | rfl | ⟨reason, rfl, hl⟩ := h
  · exact ⟨⟨0, rfl⟩, _, rfl⟩
  · exact ⟨⟨1, rfl⟩, _, rfl⟩
  · exact ⟨⟨1, rfl⟩, _, rfl⟩
  · exact ⟨⟨1, rfl⟩, _, rfl⟩
  · exact ⟨⟨1, rfl⟩, _, rfl⟩
  · exact ⟨⟨2, rfl⟩, _, (parseBkpt_eq_ok _ _ _ _).2 ⟨hl, rfl⟩⟩

/-! ## What every instruction does -/

/-- Every instruction reports one outcome, and does nothing else (R104, R116, R130). -/
theorem exec_reports (i : Instr) (s : State) : ∃ o, exec i s = .next (report o s) := by
  cases i <;> exact ⟨_, rfl⟩

/-- An instruction whose first group faults reports that fault (R130). -/
theorem exec_of_fault {i : Instr} {o : Nat} {s : State} {k : Fault} (ho : orderIndex i.tagClass = some o)
    (h : applyGroup s.mem.stream.length i (Parse.start s.cursor) = .error k) :
    exec i s = .next { s with outcomes := s.outcomes ++ [.fault k] } := by
  rw [exec_eq_runCall s ho, h]
  rfl

/-- The checks of a DATA group of a legal length that runs past the end (R127). -/
theorem checkData_short {len : Nat} {pairs : BitVec 3} {p : Parse} (hk : pairs.toNat ≤ 5)
    (hl : len < p.idx + 2 + 2 * pairs.toNat) : checkData len pairs p = .error .truncatedStream :=
  (checkData_eq_truncated _ _ _).2 (.inr ⟨hk, hl⟩)

/-! ## No action stops the machine with a fault (R131, R132) -/

theorem consumerCall_ne_fault (s : State) (k : Fault) : consumerCall s ≠ .fault k := by
  by_cases h : s.cursor ≤ s.mem.stream.length
  · simp [consumerCall_of_le h]
  · simp [consumerCall_of_lt (Nat.not_le.1 h)]

theorem windowCall_ne_fault (s : State) (k : Fault) : windowCall s ≠ .fault k := by
  unfold windowCall
  split <;> simp

theorem asProducer_ne_fault (who : Producer) {write : State → Host.Outcome State Fault Refusal} (s : State) (k : Fault)
    (h : ∀ t, write t ≠ .fault k) : asProducer who write s ≠ .fault k := by
  obtain ⟨-, hwrite⟩ | ⟨-, hrefused⟩ := asProducer_cases who write s
  · exact hwrite ▸ h _
  · simp [hrefused]

theorem appendRecord_ne_fault (c : CompressedRecord) (s : State) (k : Fault) : appendRecord c s ≠ .fault k := by
  unfold appendRecord
  split <;> simp

theorem encodeAndAppend_ne_fault (p : PackedRecord) (s : State) (k : Fault) : encodeAndAppend p s ≠ .fault k := by
  unfold encodeAndAppend
  split
  · simp
  · exact appendRecord_ne_fault _ _ k

theorem presentRaw_ne_fault (raw : RawTraceRecord) (s : State) (k : Fault) : presentRaw raw s ≠ .fault k := by
  unfold presentRaw
  split
  · simp
  · exact encodeAndAppend_ne_fault _ _ k

theorem addFiller_ne_fault (pos : Nat) (s : State) (k : Fault) : addFiller pos s ≠ .fault k := by
  unfold addFiller
  split <;> simp

theorem resynchronise_ne_fault (pos : Nat) (s : State) (k : Fault) : resynchronise pos s ≠ .fault k := by
  unfold resynchronise
  split <;> simp

/-- No input stops the machine with a fault: each answers a next state or a refusal. -/
theorem handleInput_ne_fault (e : Input) (s : State) (k : Fault) : handleInput e s ≠ .fault k := by
  cases e with
  | raw record => exact asProducer_ne_fault _ s k fun t => presentRaw_ne_fault record t k
  | packed record => exact asProducer_ne_fault _ s k fun t => encodeAndAppend_ne_fault record t k
  | compressed record => exact asProducer_ne_fault _ s k fun t => appendRecord_ne_fault record t k
  | filler pos => exact addFiller_ne_fault pos s k
  | decode => exact consumerCall_ne_fault s k
  | decodeWindow => exact windowCall_ne_fault s k
  | moveCursor pos => exact resynchronise_ne_fault pos s k
  | resetPacker | startStream => simp [handleInput]
  | load | loadBytes =>
    rw [handleInput]
    exact asProducer_ne_fault _ s k (by simp)

end Sys2Proof.Machine

namespace Sys2Proof.Proofs
open Machine

/-- Settles O10: each instruction sets the flag of its reason code, and a record that ends after it holds that flag alone. -/
theorem nseqDeliversOneFlag : Obligations.NseqDeliversOneFlag := by
  refine ⟨fun len p => ⟨rfl, rfl, rfl, rfl⟩, fun stream p rr ht => parseGroup_nseq ht, fun s hends => ?_⟩
  exact ⟨runCall_of_ends s (parseNseq 0 (Parse.start s.cursor)) 1 rfl hends,
    runCall_of_ends s (parseNseq 1 (Parse.start s.cursor)) 1 rfl hends,
    runCall_of_ends s (parseNseq 2 (Parse.start s.cursor)) 1 rfl hends,
    runCall_of_ends s (parseNseq 3 (Parse.start s.cursor)) 1 rfl hends⟩

/-- Settles O11: the reason is in the stream and is set, or the stream cuts the group. -/
theorem bkptDeliversItsReason : Obligations.BkptDeliversItsReason := by
  refine ⟨fun len reason p => rfl, fun stream p ht => ?_, fun s reason => ⟨fun hl hends => ?_, fun hl => ?_,
    fun ht hl => ?_⟩⟩
  · cases hreason : stream[p.idx + 1]? with
    | some reason => exact parseGroup_bkpt ht hreason
    | none =>
      have hidx := (List.getElem?_eq_some_iff.1 ht).1
      exact (parseGroup_eq_truncated hidx).2 (.inl ⟨ht, List.getElem?_eq_none_iff.1 hreason⟩)
  · have hparse := (parseBkpt_eq_ok s.mem.stream.length reason (Parse.start s.cursor) _).2 ⟨hl, rfl⟩
    rw [exec_eq_runCall s (i := .bkpt reason) (o := 2) rfl, applyGroup, hparse]
    exact runCall_of_ends s _ 2 rfl hends
  · exact exec_of_fault (i := .bkpt reason) (o := 2) rfl ((parseBkpt_eq_error _ _ _ _).2 ⟨hl, rfl⟩)
  · exact consumerCall_of_cutAt (.inl ⟨ht, Nat.le_of_eq hl⟩)

/-- Settles O13: the checks pass, so the fields are set; and no record goes on after a DATA group. -/
theorem dataWbDeliversRegisterAndValue : Obligations.DataWbDeliversRegisterAndValue := by
  refine ⟨fun len pairs data p hk hl => ?_, fun s pairs data hk hl => ?_⟩
  · exact ⟨_, (parseWb_eq_ok len pairs data p _).2 ⟨⟨hk, hl⟩, rfl⟩, rfl, rfl⟩
  · have hparse := (parseWb_eq_ok _ pairs data (Parse.start s.cursor) _).2 ⟨⟨hk, hl⟩, rfl⟩
    rw [exec_eq_runCall s (i := .dataWb pairs data) (o := 3) rfl, applyGroup, hparse]
    exact runCall_of_ends s _ _ (Nat.add_assoc _ _ _) (recordEndsAt_four _ _)

/-- Settles O14: the stream cuts the group at the cursor, and the checks of a group that is too long for the stream fail alike. -/
theorem shortDataGroupIsTruncated : Obligations.ShortDataGroupIsTruncated := by
  refine ⟨fun s ht hshort => consumerCall_of_cutAt ?_, fun s pairs data hk hl => ?_⟩
  · exact .inr (hshort.imp (fun hl => ⟨ht, Nat.le_of_eq hl⟩) fun hpayload => ⟨ht, hpayload⟩)
  · have hcheck := checkData_short (p := Parse.start s.cursor) hk hl
    exact ⟨exec_of_fault (i := .dataPc pairs data) (o := 3) rfl ((parsePc_eq_error _ _ _ _ _).2 hcheck),
      exec_of_fault (i := .dataWb pairs data) (o := 3) rfl ((parseWb_eq_error _ _ _ _ _).2 hcheck)⟩

/-- Settles O17: the parse goes on behind the group, which stays the first of the record. -/
theorem firstGroupIsInTheRecord : Obligations.FirstGroupIsInTheRecord := by
  intro i s hi
  obtain ⟨⟨o, ho⟩, happly⟩ := applied_of_short (p := Parse.start s.cursor) hi
  obtain ⟨later, hlater, hend⟩ := exec_of_applied ho happly
  have horder : inEmissionOrder 0 (i :: later) = true :=
    (inEmissionOrder_cons _ _ _).2 ⟨o, ho, Nat.zero_le o, hlater.order⟩
  obtain hexec | ⟨k, hgoes, hfault, hexec⟩ := hend
  · exact ⟨_, hexec, .inl ⟨_, _, later.flatMap groupOfInstr, rfl, groupsOfRecord_recordOfGroups horder,
      Nat.le_add_right _ _⟩⟩
  · exact ⟨_, hexec, .inr ⟨k, later, _, rfl, parseGroup_error hfault, horder, hlater.stands,
      Parse.addAll_idx ((Parse.start s.cursor).add i) later, Parse.start_addAll_stage s.cursor (i :: later), hgoes,
      hfault⟩⟩

/-- Settles O18: a reported outcome changes the cursor and the list of outcomes alone. -/
theorem instructionsChangeOnlyCursorAndOutcomes : Obligations.InstructionsChangeOnlyCursorAndOutcomes := by
  intro i s t h
  obtain ⟨o, hexec⟩ := exec_reports i s
  cases hexec.symm.trans h
  simp [readStream, readContainer]

/-- Settles O19: an instruction reports an outcome, and an input answers a next state or a refusal. -/
theorem everyInstructionAnswersNext : Obligations.EveryInstructionAnswersNext := by
  refine ⟨fun i s => ?_, fun s k => ?_⟩
  · obtain ⟨o, hexec⟩ := exec_reports i s
    exact ⟨_, hexec⟩
  · cases hq : s.inputs with
    | nil =>
      rw [step_of_no_input s hq]
      exact consumerCall_ne_fault s k
    | cons e q =>
      rw [step_of_input s e q hq]
      exact handleInput_ne_fault e _ k

end Sys2Proof.Proofs
end

section
/-!
PROOFS. The faults of a call, its window form, and the consumer's loop (R111, R113, R116, R119, R126, R127).
-/

namespace Sys2Proof.Machine

/-! ## The faults of a call -/

/-- Every group of a list in emission order has an order index: none is a skip or a reserved tag (R54). -/
theorem order_of_mem {stage : Nat} {groups : List Instr} (h : inEmissionOrder stage groups = true) {i : Instr}
    (hi : i ∈ groups) : ∃ o, orderIndex i.tagClass = some o := by
  induction groups generalizing stage with
  | nil => cases hi
  | cons j groups ih =>
    obtain ⟨o, ho, -, hrest⟩ := (inEmissionOrder_cons _ _ _).1 h
    obtain rfl | hi := List.mem_cons.1 hi
    · exact ⟨o, ho⟩
    · exact ih hrest hi

/-- A call reports the reserved tag exactly where it is the first nybble (R126). -/
theorem decodeOutcome_eq_reserved (stream : NybbleStream) (c : Nat) :
    decodeOutcome stream c = .fault .reservedTagEncountered ↔ ∃ t, stream[c]? = some t ∧ tagClass t = .rsvd := by
  refine ⟨fun h => ?_, fun ⟨t, ht, hrsvd⟩ => decodeOutcome_of_rsvd ht hrsvd⟩
  obtain ⟨-, hout⟩ | ⟨-, hout⟩ | ⟨t, ht, hrsvd, -⟩ | ⟨-, hcall⟩ := decodeOutcome_cases stream c
  · cases h.symm.trans hout
  · cases h.symm.trans hout
  · exact ⟨t, ht, hrsvd⟩
  · cases hcall with
    | delivered groups stands nonempty ends outcome => cases h.symm.trans outcome
    | faulted groups k stands goes fault outcome =>
      cases h.symm.trans outcome
      obtain hk | hk := parseGroup_error fault <;> cases hk

/-- Where another group of a record can follow, its groups so far took at most 4 nybbles: no DATA group is among them. -/
theorem StandsInOrder.sum_le_four {stream : NybbleStream} {c : Nat} {groups : List Instr}
    (h : StandsInOrder stream c 0 groups) (hstage : stageAfter groups < 4) : (groups.map groupLength).sum ≤ 4 := by
  have hsum := h.sum_add_roomFrom
  have hroom := twelve_le_roomFrom hstage
  omega

/-- A call that is truncated reads a cut group among its first nybbles (R127). -/
theorem cutAt_of_decodeOutcome {stream : NybbleStream} {c : Nat}
    (h : decodeOutcome stream c = .fault .truncatedStream) : ∃ i, c ≤ i ∧ i ≤ c + 4 ∧ CutAt stream i := by
  obtain ⟨-, hout⟩ | ⟨-, hout⟩ | ⟨t, -, -, hout⟩ | ⟨-, hcall⟩ := decodeOutcome_cases stream c
  · cases h.symm.trans hout
  · cases h.symm.trans hout
  · cases h.symm.trans hout
  · cases hcall with
    | delivered groups stands nonempty ends outcome => cases h.symm.trans outcome
    | faulted groups k stands goes fault outcome =>
      cases h.symm.trans outcome
      have hidx : ((Parse.start c).addAll groups).idx = c + (groups.map groupLength).sum := Parse.addAll_idx _ _
      have hsum := stands.sum_le_four (stage_lt_four goes)
      refine ⟨c + (groups.map groupLength).sum, by omega, by omega, ?_⟩
      rw [← hidx]
      exact (parseGroup_eq_truncated (hidx ▸ lt_length_of_not_ends goes)).1 fault

/-! ## The first 16 nybbles decide a call (R113) -/

/-- A group that is whole in the stream is applied alike, however long the stream is. -/
theorem applyGroup_congr_of_fits {len len' : Nat} {i : Instr} {p : Parse} (hwf : i.wf = true)
    (hl : p.idx + groupLength i ≤ len) (hl' : p.idx + groupLength i ≤ len') :
    applyGroup len i p = applyGroup len' i p := by
  cases ho : orderIndex i.tagClass with
  | none =>
    cases i with
    | skip | rsvd => rfl
    | _ => cases ho
  | some o =>
    by_cases hbad : i.opcode = .dataBadlen
    · cases i <;> simp [Instr.opcode] at hbad
      rw [applyGroup, applyGroup, parseBadlen_of_header _ _ p hl, parseBadlen_of_header _ _ p hl']
    · rw [applyGroup_of_fits ho ⟨hwf, hbad⟩ hl, applyGroup_of_fits ho ⟨hwf, hbad⟩ hl']

theorem groupLength_le_twelve {i : Instr} (hwf : i.wf = true) : groupLength i ≤ 12 := by
  cases i with
  | dataPc pairs data =>
    obtain ⟨hk, -⟩ := (dataOfReason_wf 0 pairs data).1 hwf
    simp only [groupLength]
    omega
  | dataWb pairs data =>
    obtain ⟨hk, -⟩ := (dataOfReason_wf 1 pairs data).1 hwf
    simp only [groupLength]
    omega
  | _ => simp [groupLength]

/-- No group is read only where fewer than 12 nybbles are left (R45). -/
theorem length_lt_twelve_of_error {l : List Nybble} {e : DecodeReject} (h : decodeGroup l = .error e) : l.length < 12 := by
  cases l with
  | nil => decide
  | cons t tail =>
    cases e with
    | exhausted => cases (decodeGroup_eq_exhausted _).1 h
    | truncated =>
      obtain ⟨-, rfl⟩ | ⟨-, rfl⟩ | ⟨-, header, payload, rfl, hk, hl⟩ := (decodeGroup_eq_truncated t tail).1 h
      · simp
      · simp
      · simp only [List.length_cons]
        omega

/-- Twelve nybbles decide a group. -/
theorem parseGroup_take {stream : NybbleStream} {m : Nat} {p : Parse} (hm : p.idx + 12 ≤ m) :
    parseGroup (stream.take m) p = parseGroup stream p := by
  obtain ⟨i, rest, hdecode, happly⟩ | ⟨e, hdecode, -⟩ := parseGroup_cases stream p
  · obtain ⟨hwf, hl⟩ := groupLength_le_of_decodeGroup hdecode
    have h12 := groupLength_le_twelve hwf
    obtain ⟨-, hencode⟩ := encode_of_decodeGroup hdecode
    have hstands : encode i <+: (stream.take m).drop p.idx := by
      rw [List.drop_take, ← hencode]
      exact List.prefix_take_iff.2 ⟨List.prefix_append _ _, by rw [encode_length i hwf]; omega⟩
    obtain ⟨rest', hdecode'⟩ := decodeGroup_of_prefix hwf hstands
    rw [happly, parseGroup_of_decodeGroup hdecode']
    exact applyGroup_congr_of_fits hwf (by rw [List.length_take]; omega) hl
  · have hshort := length_lt_twelve_of_error hdecode
    rw [List.length_drop] at hshort
    rw [List.take_of_length_le (by omega)]

/-- Where a group of a stage can stand, 12 nybbles of room are left. -/
theorem recordEndsAt_take {stream : NybbleStream} {m idx stage : Nat} (hm : idx + roomFrom stage ≤ m) :
    recordEndsAt (stream.take m) idx stage = recordEndsAt stream idx stage := by
  by_cases hstage : stage < 4
  · have hroom := twelve_le_roomFrom hstage
    have hread : (stream.take m)[idx]? = stream[idx]? := List.getElem?_take_of_lt (by omega)
    simp only [recordEndsAt, hread]
  · rw [recordEndsAt_of_four_le _ _ (Nat.not_lt.1 hstage), recordEndsAt_of_four_le _ _ (Nat.not_lt.1 hstage)]

/-- The nybbles that a record's groups have room for decide the parse. -/
theorem parseLoop_take {stream : NybbleStream} {m : Nat} (fuel : Nat) (p : Parse) (hm : p.idx + roomFrom p.stage ≤ m) :
    parseLoop (stream.take m) fuel p = parseLoop stream fuel p := by
  induction fuel generalizing p with
  | zero => rfl
  | succ fuel ih =>
    have hsame := recordEndsAt_take (stream := stream) hm
    cases hends : recordEndsAt stream p.idx p.stage with
    | true => rw [parseLoop_of_ends _ _ _ hends, parseLoop_of_ends _ _ _ (hsame.trans hends)]
    | false =>
      have hroom := twelve_le_roomFrom (stage_lt_four hends)
      have hgroup : parseGroup (stream.take m) p = parseGroup stream p := parseGroup_take (by omega)
      obtain ⟨i, o, ho, hle, hlegal, -, hparse⟩ | ⟨k, hfault⟩ := parseGroup_of_not_ends hends
      · have hstage : (p.add i).stage = o + 1 := stageStep_of_order ho
        obtain ⟨-, hlength⟩ := groupLength_add_roomFrom ho hlegal.1
        have hanti := roomFrom_anti hle
        have hidx : (p.add i).idx = p.idx + groupLength i := rfl
        rw [parseLoop_of_parseGroup fuel hends hparse,
          parseLoop_of_parseGroup fuel (hsame.trans hends) (hgroup.trans hparse)]
        exact ih (p.add i) (by rw [hstage, hidx]; omega)
      · rw [parseLoop_of_parseGroup_error fuel hends hfault,
          parseLoop_of_parseGroup_error fuel (hsame.trans hends) (hgroup.trans hfault)]

/-- Sixteen nybbles decide a call (R113). -/
theorem decodeOutcome_take (stream : NybbleStream) : decodeOutcome (stream.take 16) 0 = decodeOutcome stream 0 := by
  have hread : (stream.take 16)[0]? = stream[0]? := List.getElem?_take_of_lt (by decide)
  cases ht : stream[0]? with
  | none => rw [decodeOutcome_of_end ht, decodeOutcome_of_end (hread.trans ht)]
  | some t =>
    cases ho : orderIndex (tagClass t) with
    | none =>
      obtain hskip | hrsvd := (orderIndex_eq_none _).1 ho
      · rw [decodeOutcome_of_skip ht hskip, decodeOutcome_of_skip (hread.trans ht) hskip]
      · rw [decodeOutcome_of_rsvd ht hrsvd, decodeOutcome_of_rsvd (hread.trans ht) hrsvd]
    | some o =>
      rw [decodeOutcome_of_group ht ho, decodeOutcome_of_group (hread.trans ht) ho,
        parseLoop_take _ _ (Nat.le_refl 16)]

/-- A call looks at 16 nybbles from the cursor on (R113, R120). -/
theorem decodeOutcome_eq_take {stream : NybbleStream} {c : Nat} (hc : c ≤ stream.length) :
    decodeOutcome stream c = decodeOutcome ((stream.drop c).take 16) 0 := by
  have hbefore : (stream.take c).length + 0 = c := by simpa using hc
  have hmoved := decodeOutcome_append (stream.take c) (stream.drop c) 0
  rw [List.take_append_drop, hbefore] at hmoved
  rw [decodeOutcome_take, hmoved]

/-- A window that agrees with the stream from the cursor on holds the nybbles that a call looks at. -/
theorem firstNybbles_eq_take {stream : NybbleStream} {c : Nat} {window : Container} {avail : Nat}
    (havail : avail = min 16 (stream.length - c)) (h : ∀ j, j < avail → stream[c + j]? = some (nyb window j)) :
    firstNybbles window avail = (stream.drop c).take 16 := by
  apply List.ext_getElem
  · rw [firstNybbles_length, List.length_take, List.length_drop, havail]
  · intro j hj hj'
    rw [firstNybbles_length] at hj
    have hread := (List.getElem?_eq_some_iff.1 (h j hj)).2
    simp [firstNybbles, hread]

/-- The window form on a window that agrees with the stream gives the stream's outcome (R113). -/
theorem decodeWindow_eq {stream : NybbleStream} {c : Nat} {window : Container} {avail : Fin 17} (hc : c ≤ stream.length)
    (havail : avail.val = min 16 (stream.length - c)) (h : ∀ j, j < avail.val → stream[c + j]? = some (nyb window j)) :
    decodeWindow window avail = decodeOutcome stream c := by
  rw [decodeWindow, firstNybbles_eq_take havail h, ← decodeOutcome_eq_take hc]

/-! ## The window at the cursor -/

/-- The window's nybble `j` is the number's digit `j` (R35, R113). -/
theorem nyb_ofNat_nybblesToNat (l : List Nybble) (hl : l.length ≤ 16) (j : Nat) (hj : j < l.length) :
    nyb (BitVec.ofNat 64 (nybblesToNat l)) j = l[j] := by
  have hfit : nybblesToNat l < 2 ^ 64 :=
    calc nybblesToNat l < 16 ^ l.length := nybblesToNat_lt l
      _ ≤ 16 ^ 16 := Nat.pow_le_pow_right (by decide) hl
      _ = 2 ^ 64 := by decide
  apply BitVec.eq_of_toNat_eq
  rw [← nybblesToNat_digit l j hj, nyb, BitVec.extractLsb'_toNat, BitVec.toNat_ofNat, Nat.mod_eq_of_lt hfit,
    Nat.shiftRight_eq_div_pow, Nat.pow_mul]

theorem windowAvail_val (stream : NybbleStream) (c : Nat) :
    (windowAvail stream c).val = min 16 (stream.length - c) := by
  simp only [windowAvail, Fin.ofNat]
  omega

theorem nyb_windowAt {stream : NybbleStream} {c j : Nat} (hj : j < (windowAvail stream c).val) :
    stream[c + j]? = some (nyb (windowAt stream c) j) := by
  rw [windowAvail_val] at hj
  have hlength : ((stream.drop c).take 16).length = min 16 (stream.length - c) := by
    rw [List.length_take, List.length_drop]
  rw [windowAt, nyb_ofNat_nybblesToNat _ (by omega) j (by omega)]
  simp [show c + j < stream.length by omega]

/-- The window call is the consumer's call (R113, R116). -/
theorem windowCall_eq_consumerCall (s : State) : windowCall s = consumerCall s := by
  by_cases h : s.cursor ≤ s.mem.stream.length
  · rw [consumerCall_of_le h, windowCall, if_neg (Nat.not_lt.2 h),
      decodeWindow_eq h (windowAvail_val _ _) fun j hj => nyb_windowAt hj]
  · rw [consumerCall_of_lt (Nat.not_le.1 h), windowCall, if_pos (Nat.not_le.1 h)]

/-! ## The consumer's loop (R116) -/

/-- A call before the end is a record of 1 to 16 nybbles within the stream, or a fault. -/
theorem decodeOutcome_of_lt {stream : NybbleStream} {c : Nat} (hc : c < stream.length) :
    (∃ r n, decodeOutcome stream c = .ok r n ∧ 1 ≤ n ∧ c + n ≤ stream.length) ∨
      ∃ k, decodeOutcome stream c = .fault k := by
  cases hout : decodeOutcome stream c with
  | ok r n =>
    obtain ⟨-, hpos, -, hl⟩ := wf_of_decodeOutcome hout
    exact .inl ⟨r, n, rfl, hpos, hl⟩
  | fault k => exact .inr ⟨k, rfl⟩
  | exhausted =>
    obtain ⟨hend, -⟩ | ⟨-, hout'⟩ | ⟨t, -, -, hout'⟩ | ⟨-, hcall⟩ := decodeOutcome_cases stream c
    · exact absurd (List.getElem?_eq_none_iff.1 hend) (Nat.not_le.2 hc)
    · cases hout.symm.trans hout'
    · cases hout.symm.trans hout'
    · cases hcall with
      | delivered groups stands nonempty ends outcome => cases hout.symm.trans outcome
      | faulted groups k stands goes fault outcome => cases hout.symm.trans outcome

theorem consumerLoop_of_end {stream : NybbleStream} {c : Nat} (fuel : Nat) (hc : stream.length ≤ c) :
    consumerLoop stream fuel c = ([], c) := by
  cases fuel with
  | zero => rfl
  | succ fuel => rw [consumerLoop, if_neg (Nat.not_lt.2 hc)]

theorem consumerLoop_of_ok {stream : NybbleStream} {c n : Nat} {r : DecompressedRecord} (fuel : Nat)
    (hc : c < stream.length) (h : decodeOutcome stream c = .ok r n) :
    consumerLoop stream (fuel + 1) c =
      (.ok r n :: (consumerLoop stream fuel (c + n)).1, (consumerLoop stream fuel (c + n)).2) := by
  rw [consumerLoop, if_pos hc, h]

theorem consumerLoop_of_fault {stream : NybbleStream} {c : Nat} {k : Fault} (fuel : Nat) (hc : c < stream.length)
    (h : decodeOutcome stream c = .fault k) : consumerLoop stream (fuel + 1) c = ([.fault k], c) := by
  rw [consumerLoop, if_pos hc, h]

theorem allDelivered_cons_ok (r : DecompressedRecord) (n : Nat) (os : List DecodeOutcome) :
    allDelivered (.ok r n :: os) = allDelivered os := by
  simp [allDelivered]

/-- How the loop can end: at the end of the stream with every call a record, or at a fault, with the cursor there. -/
def LoopEnds (stream : NybbleStream) (run : List DecodeOutcome × Nat) : Prop :=
  (run.2 = stream.length ∧ allDelivered run.1 = true) ∨
    ∃ os k, run.1 = os ++ [.fault k] ∧ allDelivered os = true ∧ decodeCall stream run.2 = some (.fault k)

/-- A record delivered before changes nothing about how the loop ends. -/
theorem LoopEnds.cons {stream : NybbleStream} {run : List DecodeOutcome × Nat} (r : DecompressedRecord) (n : Nat)
    (h : LoopEnds stream run) : LoopEnds stream (.ok r n :: run.1, run.2) := by
  obtain ⟨hlast, hall⟩ | ⟨os, k, hrun, hall, hcall⟩ := h
  · exact .inl ⟨hlast, by rwa [allDelivered_cons_ok]⟩
  · exact .inr ⟨.ok r n :: os, k, by simp [hrun], by rwa [allDelivered_cons_ok], hcall⟩

/-- Every call consumes a nybble at least, so as many rounds as nybbles are left are enough. -/
theorem consumerLoop_ends (stream : NybbleStream) (fuel c : Nat) (hc : c ≤ stream.length) (hfuel : stream.length - c ≤ fuel) :
    (consumerLoop stream fuel c).1.length ≤ stream.length - c ∧ c ≤ (consumerLoop stream fuel c).2 ∧
      (consumerLoop stream fuel c).2 ≤ stream.length ∧ LoopEnds stream (consumerLoop stream fuel c) := by
  induction fuel generalizing c with
  | zero =>
    obtain rfl : c = stream.length := by omega
    exact ⟨Nat.zero_le _, Nat.le_refl _, Nat.le_refl _, .inl ⟨rfl, rfl⟩⟩
  | succ fuel ih =>
    obtain rfl | hlt := Nat.eq_or_lt_of_le hc
    · rw [consumerLoop_of_end _ (Nat.le_refl _)]
      exact ⟨Nat.zero_le _, Nat.le_refl _, Nat.le_refl _, .inl ⟨rfl, rfl⟩⟩
    · obtain ⟨r, n, hout, hpos, hl⟩ | ⟨k, hout⟩ := decodeOutcome_of_lt hlt
      · obtain ⟨hcount, hfrom, hto, hends⟩ := ih (c + n) hl (by omega)
        rw [consumerLoop_of_ok fuel hlt hout]
        exact ⟨by simp only [List.length_cons]; omega, (Nat.le_add_right c n).trans hfrom, hto, hends.cons r n⟩
      · rw [consumerLoop_of_fault fuel hlt hout]
        exact ⟨by simp only [List.length_singleton]; omega, Nat.le_refl _, hc,
          .inr ⟨[], k, rfl, rfl, by rw [decodeCall_of_le hc, hout]⟩⟩

/-- The loop on fillers, from any of them on (R102, R119). -/
theorem consumerLoop_replicate (m fuel c : Nat) (h : c + fuel = m) :
    consumerLoop (List.replicate m 0b0000#4) fuel c = (List.replicate fuel (.ok DecompressedRecord.empty 1), m) := by
  induction fuel generalizing c with
  | zero => rw [consumerLoop_of_end 0 (by rw [List.length_replicate]; omega), ← h]; rfl
  | succ fuel ih =>
    have hc : c < (List.replicate m 0b0000#4).length := by rw [List.length_replicate]; omega
    have ht : (List.replicate m 0b0000#4)[c]? = some 0b0000#4 := List.getElem?_replicate_of_lt (by omega)
    have hskip := decodeOutcome_of_skip ht ((tagClass_eq_skip _).2 rfl)
    rw [consumerLoop_of_ok fuel hc hskip, ih (c + 1) (by omega), List.replicate_succ]

end Sys2Proof.Machine

namespace Sys2Proof.Proofs
open Machine

/-- Settles O25: a later group raises other faults, and groups in emission order are of other classes. -/
theorem reservedTagOnlyAtFirstNybble : Obligations.ReservedTagOnlyAtFirstNybble := by
  refine ⟨fun stream c => ?_, fun stream fuel p t ht htag => ?_, fun p x _ hx => ?_⟩
  · simp only [← tagClass_eq_rsvd, ← decodeOutcome_eq_reserved]
    constructor
    · exact fun h => (decodeOutcome_eq_of_decodeCall h).2
    · intro h
      obtain ⟨t, ht, -⟩ := (decodeOutcome_eq_reserved _ _).1 h
      rw [decodeCall_of_getElem? ht, h]
  · apply parseLoop_of_ends
    simp only [recordEndsAt, ht, (tagClass_eq_rsvd t).2 htag, orderIndex]
  · obtain ⟨o, ho⟩ := order_of_mem (instrsOfPacked_inEmissionOrder p) hx
    cases ho

/-- Settles O26: the parse reads the groups up to the cut one, and reports its cut. -/
theorem truncationHasThreePlaces : Obligations.TruncationHasThreePlaces := by
  intro stream c
  refine ⟨fun p hp => parseGroup_eq_truncated hp,
    fun h => cutAt_of_decodeOutcome (decodeOutcome_eq_of_decodeCall h).2,
    fun groups horder hlegal hstands hgoes hcut => ?_, fun hcut => ?_⟩
  · have hgroups : StandsInOrder stream c 0 groups := ⟨horder, hlegal, hstands⟩
    have hc := lt_length_of_not_ends hgoes
    rw [decodeCall_of_le (by omega)]
    have hfirst : recordEndsAt stream c 0 = false := by
      by_cases hne : groups = []
      · subst hne
        exact not_ends_of_cutAt hcut
      · exact not_ends_of_standsInOrder hne hgroups
    rw [decodeOutcome_of_groups_cut hfirst hgroups hgoes hcut]
  · have hc := lt_length_of_not_ends (not_ends_of_cutAt hcut)
    rw [decodeCall_of_le (Nat.le_of_lt hc), decodeOutcome_of_cutAt hcut]

/-- Settles O30: a call looks at 16 nybbles from the cursor on. -/
theorem windowFormAgrees : Obligations.WindowFormAgrees := by
  intro stream c window avail hc havail h
  rw [decodeCall_of_le hc, decodeWindow_eq hc havail h]

/-- Settles O54: the window at the cursor agrees with the stream. -/
theorem windowCallIsTheDecodeCall : Obligations.WindowCallIsTheDecodeCall := by
  intro s q
  rw [step_of_input _ _ _ rfl, step_of_input _ _ _ rfl]
  exact windowCall_eq_consumerCall _

/-- Settles O31. -/
theorem consumerLoopEnds : Obligations.ConsumerLoopEnds := consumerLoop_ends

/-- Settles O32: the loop takes one filler a call. -/
theorem skipsDecodeOneByOne : Obligations.SkipsDecodeOneByOne := fun m => by
  rw [decodeStream, List.length_replicate, consumerLoop_replicate m m 0 (Nat.zero_add m)]

end Sys2Proof.Proofs
end

section
/-!
PROOFS. The round trip: a stream that groups and fillers make, however they follow one another, decodes to its end and to its
groups; the encoder's streams are of this kind, and a filler put between two groups leaves them so (R39, R117, R118).
-/

namespace Sys2Proof.Machine

/-! ## Streams of groups -/

/-- A group that a stream without a fault can hold: a legal one that is no reserved tag. A filler is one too. -/
def StreamGroup (i : Instr) : Prop := LegalGroup i ∧ i.tagClass ≠ .rsvd

theorem StreamGroup.wf {i : Instr} (h : StreamGroup i) : i.wf = true := h.1.1

theorem streamGroup_skip : StreamGroup .skip := ⟨⟨rfl, by decide⟩, by decide⟩

theorem streamGroup_of_order {i : Instr} {o : Nat} (hlegal : LegalGroup i) (ho : orderIndex i.tagClass = some o) :
    StreamGroup i := ⟨hlegal, fun h => by simp [h, orderIndex] at ho⟩

/-- Groups whose nybbles begin the nybbles of some groups are the first of these. -/
theorem prefix_of_flatMap_encode_prefix {is js : List Instr} (hi : ∀ i ∈ is, i.wf = true) (hj : ∀ j ∈ js, j.wf = true)
    (h : is.flatMap encode <+: js.flatMap encode) : is <+: js := by
  induction is generalizing js with
  | nil => exact List.nil_prefix
  | cons i is ih =>
    cases js with
    | nil => simp [encode_ne_nil] at h
    | cons j js =>
      obtain ⟨hi, his⟩ := List.forall_mem_cons.1 hi
      obtain ⟨hj, hjs⟩ := List.forall_mem_cons.1 hj
      obtain ⟨after, h⟩ := h
      rw [List.flatMap_cons, List.flatMap_cons, List.append_assoc] at h
      have hread := congrArg decodeGroup h
      rw [decodeGroup_encode i _ hi, decodeGroup_encode j _ hj] at hread
      obtain ⟨rfl, hrest⟩ : i = j ∧ is.flatMap encode ++ after = js.flatMap encode := by simpa using hread
      exact (List.prefix_cons_inj i).2 (ih his hjs ⟨after, hrest⟩)

theorem items_eq_nil {stream : NybbleStream} {c : Nat} {items : List Instr} (hc : stream.length ≤ c)
    (hstream : stream.drop c = items.flatMap encode) : items = [] := by
  rw [List.drop_eq_nil_of_le hc] at hstream
  cases items with
  | nil => rfl
  | cons i items => simp [encode_ne_nil] at hstream

/-- What stands behind some groups of a stream of groups are the groups that follow them. -/
theorem split_of_standsInOrder {stream : NybbleStream} {c stage : Nat} {groups items : List Instr}
    (hitems : ∀ i ∈ items, StreamGroup i) (hstream : stream.drop c = items.flatMap encode)
    (h : StandsInOrder stream c stage groups) :
    ∃ later, items = groups ++ later ∧ stream.drop (c + (groups.map groupLength).sum) = later.flatMap encode := by
  have hprefix := h.stands
  rw [hstream] at hprefix
  obtain ⟨later, rfl⟩ := prefix_of_flatMap_encode_prefix (fun i hi => (h.legal i hi).1)
    (fun j hj => (hitems j hj).wf) hprefix
  refine ⟨later, rfl, ?_⟩
  rw [← List.drop_drop, hstream, List.flatMap_append, ← h.length_flatMap, List.drop_left]

/-- No fault is taken at a group of such a stream. -/
theorem parseGroup_of_streamGroups {stream : NybbleStream} {p : Parse} {items : List Instr}
    (hitems : ∀ i ∈ items, StreamGroup i) (hstream : stream.drop p.idx = items.flatMap encode)
    (hgoes : recordEndsAt stream p.idx p.stage = false) : ∃ p', parseGroup stream p = .ok p' := by
  cases items with
  | nil =>
    have hend := List.drop_eq_nil_iff.1 hstream
    exact absurd (lt_length_of_not_ends hgoes) (Nat.not_lt.2 hend)
  | cons i items =>
    obtain ⟨⟨hlegal, -⟩, -⟩ := List.forall_mem_cons.1 hitems
    have hstands : encode i <+: stream.drop p.idx := ⟨items.flatMap encode, hstream.symm⟩
    obtain ⟨t, o, ht, ho, -⟩ := (recordEndsAt_eq_false _ _ _).1 hgoes
    obtain ⟨t', ht', hclass⟩ := tag_of_prefix hlegal.1 hstands
    obtain rfl : t = t' := Option.some.inj (ht.symm.trans ht')
    exact ⟨_, parseGroup_of_prefix hlegal (hclass ▸ ho) hstands⟩

theorem groupsOfOutcomes_cons_ok (r : DecompressedRecord) (n : Nat) (os : List DecodeOutcome) :
    groupsOfOutcomes (.ok r n :: os) = groupsOfRecord r ++ groupsOfOutcomes os := by
  simp [groupsOfOutcomes]

/-- A call before the end of a stream of groups delivers the first of them, as a filler or as a record. -/
theorem decodeOutcome_of_items {stream : NybbleStream} {c : Nat} {items : List Instr} (hc : c < stream.length)
    (hitems : ∀ i ∈ items, StreamGroup i) (hstream : stream.drop c = items.flatMap encode) :
    ∃ r n first later, decodeOutcome stream c = .ok r n ∧ groupsOfRecord r = first.flatMap groupOfInstr ∧
      items = first ++ later ∧ stream.drop (c + n) = later.flatMap encode := by
  obtain ⟨hend, -⟩ | ⟨ht, hout⟩ | ⟨t, ht, hrsvd, -⟩ | ⟨-, hcall⟩ := decodeOutcome_cases stream c
  · exact absurd (List.getElem?_eq_none_iff.1 hend) (Nat.not_le.2 hc)
  · have hstands : [Instr.skip].flatMap encode <+: items.flatMap encode := by
      rw [← hstream, drop_of_getElem? ht]
      exact ⟨stream.drop (c + 1), rfl⟩
    obtain ⟨later, rfl⟩ := prefix_of_flatMap_encode_prefix (by simp [Instr.wf]) (fun j hj => (hitems j hj).wf) hstands
    refine ⟨_, 1, [.skip], later, hout, rfl, rfl, ?_⟩
    rw [← List.drop_drop, hstream]
    rfl
  · cases items with
    | nil => exact absurd (List.drop_eq_nil_iff.1 hstream) (Nat.not_le.2 hc)
    | cons i items =>
      obtain ⟨⟨hlegal, hclass⟩, -⟩ := List.forall_mem_cons.1 hitems
      obtain ⟨t', ht', htag⟩ := tag_of_prefix hlegal.1 (stream := stream) ⟨items.flatMap encode, hstream.symm⟩
      obtain rfl : t = t' := Option.some.inj (ht.symm.trans ht')
      exact absurd (htag.symm.trans hrsvd) hclass
  · cases hcall with
    | delivered groups stands nonempty ends outcome =>
      obtain ⟨later, hsplit, hlater⟩ := split_of_standsInOrder hitems hstream stands
      exact ⟨_, _, groups, later, outcome, groupsOfRecord_recordOfGroups stands.order, hsplit, hlater⟩
    | faulted groups k stands goes fault outcome =>
      obtain ⟨later, hsplit, hlater⟩ := split_of_standsInOrder hitems hstream stands
      have hidx : ((Parse.start c).addAll groups).idx = c + (groups.map groupLength).sum := Parse.addAll_idx _ _
      rw [← hidx] at hlater goes
      rw [← Parse.start_addAll_stage c] at goes
      obtain ⟨p', hparse⟩ :=
        parseGroup_of_streamGroups (fun i hi => hitems i (hsplit ▸ List.mem_append_right _ hi)) hlater goes
      cases hparse.symm.trans fault

/-- The consumer's loop on a stream of groups ends at its end, and delivers exactly its groups. -/
theorem consumerLoop_of_items {stream : NybbleStream} (fuel c : Nat) {items : List Instr} (hc : c ≤ stream.length)
    (hfuel : stream.length - c ≤ fuel) (hitems : ∀ i ∈ items, StreamGroup i)
    (hstream : stream.drop c = items.flatMap encode) :
    allDelivered (consumerLoop stream fuel c).1 = true ∧ (consumerLoop stream fuel c).2 = stream.length ∧
      groupsOfOutcomes (consumerLoop stream fuel c).1 = items.flatMap groupOfInstr := by
  induction fuel generalizing c items with
  | zero =>
    obtain rfl : c = stream.length := by omega
    obtain rfl := items_eq_nil (Nat.le_refl _) hstream
    exact ⟨rfl, rfl, rfl⟩
  | succ fuel ih =>
    obtain rfl | hlt := Nat.eq_or_lt_of_le hc
    · obtain rfl := items_eq_nil (Nat.le_refl _) hstream
      rw [consumerLoop_of_end _ (Nat.le_refl _)]
      exact ⟨rfl, rfl, rfl⟩
    · obtain ⟨r, n, first, later, hout, hgroups, rfl, hlater⟩ := decodeOutcome_of_items hlt hitems hstream
      obtain ⟨-, hpos, -, hl⟩ := wf_of_decodeOutcome hout
      obtain ⟨hall, hlast, hrest⟩ :=
        ih (c + n) hl (by omega) (fun i hi => hitems i (List.mem_append_right _ hi)) hlater
      rw [consumerLoop_of_ok fuel hlt hout, allDelivered_cons_ok, groupsOfOutcomes_cons_ok, hrest, hgroups,
        List.flatMap_append]
      exact ⟨hall, hlast, rfl⟩

/-- A stream of groups decodes whole and to its groups, whatever records its calls cut it into. -/
theorem decodesWhole_of_items {items : List Instr} (hitems : ∀ i ∈ items, StreamGroup i) :
    decodesWhole (items.flatMap encode) = true ∧
      groupsOfOutcomes (decodeStream (items.flatMap encode)).1 = items.flatMap groupOfInstr := by
  obtain ⟨hall, hlast, hgroups⟩ :=
    consumerLoop_of_items (stream := items.flatMap encode) _ 0 (Nat.zero_le _) (Nat.le_refl _) hitems rfl
  refine ⟨?_, hgroups⟩
  rw [decodesWhole, Bool.and_eq_true, beq_iff_eq]
  exact ⟨hall, hlast⟩

/-! ## Every stream that decodes whole is one -/

/-- What a call that delivers consumed are groups. -/
theorem items_of_decodeOutcome {stream : NybbleStream} {c n : Nat} {r : DecompressedRecord}
    (h : decodeOutcome stream c = .ok r n) :
    ∃ first : List Instr, (∀ i ∈ first, StreamGroup i) ∧ stream.drop c = first.flatMap encode ++ stream.drop (c + n) := by
  rw [← List.drop_drop]
  obtain ⟨ht, -, rfl⟩ | ⟨groups, -, hstands, -, rfl, -⟩ := delivered_of_decodeOutcome h
  · refine ⟨[.skip], by simp [streamGroup_skip], ?_⟩
    rw [drop_of_getElem? ht]
    rfl
  · refine ⟨groups, fun i hi => ?_, ?_⟩
    · obtain ⟨o, ho⟩ := order_of_mem hstands.order hi
      exact streamGroup_of_order (hstands.legal i hi) ho
    · rw [← hstands.take_sum, List.take_append_drop]

theorem items_of_consumerLoop {stream : NybbleStream} (fuel c : Nat) (hc : c ≤ stream.length)
    (hall : allDelivered (consumerLoop stream fuel c).1 = true) (hlast : (consumerLoop stream fuel c).2 = stream.length) :
    ∃ items : List Instr, (∀ i ∈ items, StreamGroup i) ∧ stream.drop c = items.flatMap encode := by
  induction fuel generalizing c with
  | zero =>
    obtain rfl : c = stream.length := hlast
    exact ⟨[], by simp, by simp⟩
  | succ fuel ih =>
    obtain rfl | hlt := Nat.eq_or_lt_of_le hc
    · exact ⟨[], by simp, by simp⟩
    · obtain ⟨r, n, hout, -, hl⟩ | ⟨k, hout⟩ := decodeOutcome_of_lt hlt
      · rw [consumerLoop_of_ok fuel hlt hout, allDelivered_cons_ok] at hall
        rw [consumerLoop_of_ok fuel hlt hout] at hlast
        obtain ⟨first, hfirst, hdrop⟩ := items_of_decodeOutcome hout
        obtain ⟨later, hlater, hrest⟩ := ih (c + n) hl hall hlast
        refine ⟨first ++ later, fun i hi => (List.mem_append.1 hi).elim (hfirst i) (hlater i), ?_⟩
        rw [hdrop, hrest, List.flatMap_append]
      · simp [consumerLoop_of_fault fuel hlt hout, allDelivered] at hall

theorem items_of_decodesWhole {stream : NybbleStream} (h : decodesWhole stream = true) :
    ∃ items : List Instr, (∀ i ∈ items, StreamGroup i) ∧ stream = items.flatMap encode := by
  rw [decodesWhole, Bool.and_eq_true, beq_iff_eq] at h
  obtain ⟨hall, hlast⟩ := h
  exact items_of_consumerLoop _ 0 (Nat.zero_le _) hall hlast

/-! ## A filler between two groups (R39) -/

/-- A tag-start position of a stream of groups lies behind some of them. -/
theorem split_of_mem_groupStartsFrom {stream : NybbleStream} {pos : Nat} (fuel idx : Nat) {items : List Instr}
    (hwf : ∀ i ∈ items, i.wf = true) (hstream : stream.drop idx = items.flatMap encode)
    (hpos : pos ∈ groupStartsFrom stream fuel idx) :
    ∃ before after, items = before ++ after ∧ pos = idx + (before.map groupLength).sum := by
  induction fuel generalizing idx items with
  | zero => exact ⟨[], items, rfl, List.mem_singleton.1 hpos⟩
  | succ fuel ih =>
    cases items with
    | nil =>
      rw [groupStartsFrom, hstream] at hpos
      exact ⟨[], [], rfl, List.mem_singleton.1 hpos⟩
    | cons i items =>
      obtain ⟨hi, hwf⟩ := List.forall_mem_cons.1 hwf
      rw [groupStartsFrom, hstream, List.flatMap_cons, decodeGroup_encode i _ hi] at hpos
      obtain rfl | hpos := List.mem_cons.1 hpos
      · exact ⟨[], i :: items, rfl, rfl⟩
      · have hlater : stream.drop (idx + groupLength i) = items.flatMap encode := by
          rw [← List.drop_drop]
          exact drop_groupLength hi (hstream.trans List.flatMap_cons).symm
        obtain ⟨before, after, rfl, rfl⟩ := ih (idx + groupLength i) hwf hlater hpos
        exact ⟨i :: before, after, rfl, by simp [Nat.add_assoc]⟩

/-- A filler behind some groups of a stream is one more group there. -/
theorem insertFiller_flatMap_encode {before after : List Instr} (hwf : ∀ i ∈ before, i.wf = true) :
    insertFiller ((before ++ after).flatMap encode) (before.map groupLength).sum =
      (before ++ .skip :: after).flatMap encode := by
  rw [insertFiller, List.flatMap_append, ← length_flatMap_encode hwf, List.take_left, List.drop_left, List.flatMap_append]
  rfl

/-! ## The streams that the encoder and the transport make -/

theorem writebackData_toNat (value : BitVec 32) (register : BitVec 5) :
    (writebackData value register).toNat = value.toNat * 32 + register.toNat := by
  have hvalue := value.isLt
  have hregister := register.isLt
  rw [writebackData, BitVec.toNat_setWidth, BitVec.toNat_append, ← Nat.shiftLeft_add_eq_or_of_lt hregister,
    Nat.shiftLeft_eq]
  omega

/-- An address loses nothing as a data value of its width (R53, R72). -/
theorem pcData_pcOfData {data : DataValue} (h : data.toNat < 2 ^ 32) : pcData (pcOfData data) = data := by
  apply BitVec.eq_of_toNat_eq
  rw [pcData, pcOfData, BitVec.toNat_setWidth, BitVec.extractLsb'_toNat, Nat.shiftRight_zero]
  omega

/-- A value and a register lose nothing as a data value of their width (R53, R73). -/
theorem writebackData_of_fields {data : DataValue} (h : data.toNat < 2 ^ 37) :
    writebackData (valueOfData data) (registerOfData data) = data := by
  apply BitVec.eq_of_toNat_eq
  rw [writebackData_toNat, valueOfData, registerOfData, BitVec.extractLsb'_toNat, BitVec.extractLsb'_toNat,
    Nat.shiftRight_zero, Nat.shiftRight_eq_div_pow]
  omega

theorem flatMap_groupOfInstr_guarded (valid : Bool) (i : Instr) :
    (guarded valid i).flatMap groupOfInstr = if valid then groupOfInstr i else [] := by
  cases valid <;> simp [guarded]

theorem groupOfInstr_nseqOfReason : ∀ rr : BitVec 2, groupOfInstr (nseqOfReason rr) = [.nseq rr] := by decide

/-- A data group within the width of its reason is decoded with its value (R15 clause 6, R118). -/
theorem groupOfInstr_dataOfReason {r : BitVec 1} (pairs : BitVec 3) {data : DataValue}
    (h : data.toNat < 2 ^ (if r = 0 then 32 else 37)) : groupOfInstr (dataOfReason r pairs data) = [.data r data] := by
  obtain rfl | rfl := r.eq_zero_or_eq_one
  · have hpc : groupOfInstr (dataOfReason 0#1 pairs data) = [.data 0#1 (pcData (pcOfData data))] := rfl
    rw [hpc, pcData_pcOfData h]
  · have hwb : groupOfInstr (dataOfReason 1#1 pairs data) =
        [.data 1#1 (writebackData (valueOfData data) (registerOfData data))] := rfl
    rw [hwb, writebackData_of_fields h]

/-- The groups of a well-formed record are decoded with every field exact (R118). -/
theorem flatMap_groupOfInstr_instrsOfPacked {p : PackedRecord} (h : packedWF p = true) :
    (instrsOfPacked p).flatMap groupOfInstr = groupsOfPacked p := by
  have hdata : (guarded p.dataValid (dataOfReason p.dataReason p.compressedDataNumBytes p.data)).flatMap groupOfInstr =
      if p.dataValid then [.data p.dataReason p.data] else [] := by
    rw [flatMap_groupOfInstr_guarded]
    cases hv : p.dataValid with
    | false => rfl
    | true => simp [groupOfInstr_dataOfReason _ (((packedWF_iff p).1 h).width hv)]
  rw [instrsOfPacked_eq, List.flatMap_append, List.flatMap_append, List.flatMap_append, hdata,
    flatMap_groupOfInstr_guarded, flatMap_groupOfInstr_guarded, flatMap_groupOfInstr_guarded, groupOfInstr_nseqOfReason]
  rfl

theorem legal_of_mem_instrsOfPacked {p : PackedRecord} (h : packedWF p = true) :
    ∀ i ∈ instrsOfPacked p, LegalGroup i := fun i hi =>
  ⟨instrsOfPacked_wf p h i hi, instrsOfPacked_opcode_ne_dataBadlen p i hi⟩

/-- The groups of some records, each after a number of fillers, with fillers at the end. -/
def itemsOfRecords (records : List (Nat × PackedRecord)) (trailing : Nat) : List Instr :=
  records.flatMap (fun r => List.replicate r.1 .skip ++ instrsOfPacked r.2) ++ List.replicate trailing .skip

theorem flatMap_encode_replicate_skip (n : Nat) :
    (List.replicate n Instr.skip).flatMap encode = List.replicate n 0b0000#4 := by
  induction n with
  | zero => rfl
  | succ n ih => rw [List.replicate_succ, List.flatMap_cons, ih, List.replicate_succ]; rfl

theorem flatMap_groupOfInstr_replicate_skip (n : Nat) : (List.replicate n Instr.skip).flatMap groupOfInstr = [] := by
  simp [groupOfInstr]

theorem streamOfRecords_eq {records : List (Nat × PackedRecord)} (trailing : Nat)
    (h : ∀ r ∈ records, packedWF r.2 = true) :
    streamOfRecords records trailing = (itemsOfRecords records trailing).flatMap encode := by
  rw [streamOfRecords, itemsOfRecords, List.flatMap_append, flatMap_encode_replicate_skip, List.flatMap_assoc]
  congr 1
  refine List.flatMap_congr fun r hr => ?_
  rw [List.flatMap_append, flatMap_encode_replicate_skip, validNybbles_encodeRecord _ (h r hr)]
  rfl

theorem flatMap_groupOfInstr_itemsOfRecords {records : List (Nat × PackedRecord)} (trailing : Nat)
    (h : ∀ r ∈ records, packedWF r.2 = true) :
    (itemsOfRecords records trailing).flatMap groupOfInstr = records.flatMap fun r => groupsOfPacked r.2 := by
  rw [itemsOfRecords, List.flatMap_append, flatMap_groupOfInstr_replicate_skip, List.append_nil, List.flatMap_assoc]
  refine List.flatMap_congr fun r hr => ?_
  rw [List.flatMap_append, flatMap_groupOfInstr_replicate_skip, flatMap_groupOfInstr_instrsOfPacked (h r hr),
    List.nil_append]

theorem streamGroup_of_mem_itemsOfRecords {records : List (Nat × PackedRecord)} {trailing : Nat}
    (h : ∀ r ∈ records, packedWF r.2 = true) : ∀ i ∈ itemsOfRecords records trailing, StreamGroup i := by
  intro i hi
  simp only [itemsOfRecords, List.mem_append, List.mem_flatMap, List.mem_replicate] at hi
  obtain ⟨r, hr, ⟨-, rfl⟩ | hi⟩ | ⟨-, rfl⟩ := hi
  · exact streamGroup_skip
  · obtain ⟨o, ho⟩ := order_of_mem (instrsOfPacked_inEmissionOrder r.2) hi
    exact streamGroup_of_order (legal_of_mem_instrsOfPacked (h r hr) i hi) ho
  · exact streamGroup_skip

/-! ## Groups of one record alone in a stream (R117, R118) -/

/-- Groups in emission order, alone in a stream, are one record. -/
theorem decodeCall_of_groups {groups : List Instr} (hne : groups ≠ []) (horder : inEmissionOrder 0 groups = true)
    (hlegal : ∀ i ∈ groups, LegalGroup i) :
    decodeCall (groups.flatMap encode) 0 = some (.ok (recordOfGroups groups) (groups.map groupLength).sum) := by
  have hstands : StandsInOrder (groups.flatMap encode) 0 0 groups := ⟨horder, hlegal, List.prefix_rfl⟩
  have hends : recordEndsAt (groups.flatMap encode) (0 + (groups.map groupLength).sum) (stageAfter groups) = true := by
    rw [Nat.zero_add, ← hstands.length_flatMap, recordEndsAt, List.getElem?_eq_none (Nat.le_refl _)]
  rw [decodeCall_of_le (Nat.zero_le _), decodeOutcome_of_groups hne hstands hends]

theorem instrsOfPacked_ne_nil {p : PackedRecord} (h : packedWF p = true) (hne : p ≠ PackedRecord.skip) :
    instrsOfPacked p ≠ [] := fun hnil => hne (instrsOfPacked_injective p _ h (by decide) hnil)

/-- The count of an encoded record is the length of its groups. -/
theorem validNybbleCount_encodeRecord {p : PackedRecord} (h : packedWF p = true) :
    (encodeRecord p).validNybbleCount.toNat = ((instrsOfPacked p).map groupLength).sum := by
  rw [← validNybbles_length, validNybbles_encodeRecord p h]
  exact length_flatMap_encode (instrsOfPacked_wf p h)

theorem inEmissionOrder_of_append {stage : Nat} {is js : List Instr} (h : inEmissionOrder stage (is ++ js) = true) :
    inEmissionOrder (is.foldl stageStep stage) js = true := by
  induction is generalizing stage with
  | nil => exact h
  | cons i is ih =>
    obtain ⟨o, ho, -, hrest⟩ := (inEmissionOrder_cons _ _ _).1 h
    rw [List.foldl_cons, stageStep_of_order ho]
    exact ih hrest

/-- Nothing follows a DATA group, so a record that others follow has none (R54, R117). -/
theorem dataValid_eq_false_of_append {p : PackedRecord} {later : List Instr} (hne : later ≠ [])
    (h : inEmissionOrder 0 (instrsOfPacked p ++ later) = true) : p.dataValid = false := by
  by_contra hv
  rw [Bool.not_eq_false] at hv
  obtain ⟨i, later, rfl⟩ := List.exists_cons_of_ne_nil hne
  have hstage : (instrsOfPacked p).foldl stageStep 0 = 4 := by
    rw [instrsOfPacked_eq, hv, List.foldl_append]
    exact stageStep_of_order (o := 3) (by rw [tagClass_dataOfReason]; rfl)
  obtain ⟨o, ho, hle, -⟩ := (inEmissionOrder_cons _ _ _).1 (inEmissionOrder_of_append h)
  rw [hstage] at hle
  exact absurd (orderIndex_lt_four _ _ ho) (Nat.not_lt.2 hle)

end Sys2Proof.Machine

namespace Sys2Proof.Proofs
open Machine

/-- Settles O33: the records' groups and the fillers are a stream of groups; the groups of one record, in emission order and alone,
are one record again. -/
theorem roundTripRecoversEveryGroup : Obligations.RoundTripRecoversEveryGroup := by
  refine ⟨fun records trailing h => ?_, fun p hp hne => ?_⟩
  · rw [streamOfRecords_eq trailing h, ← flatMap_groupOfInstr_itemsOfRecords trailing h]
    exact decodesWhole_of_items (streamGroup_of_mem_itemsOfRecords h)
  · refine ⟨recordOfGroups (instrsOfPacked p), ?_, ?_⟩
    · rw [validNybbles_encodeRecord p hp, validNybbleCount_encodeRecord hp]
      exact decodeCall_of_groups (instrsOfPacked_ne_nil hp hne) (instrsOfPacked_inEmissionOrder p)
        (legal_of_mem_instrsOfPacked hp)
    · rw [groupsOfRecord_recordOfGroups (instrsOfPacked_inEmissionOrder p), flatMap_groupOfInstr_instrsOfPacked hp]

/-- Settles O34: both records' groups in a row are groups in emission order. -/
theorem adjacentRecordsMerge : Obligations.AdjacentRecordsMerge := by
  intro p q hp hq hpne hqne hmerges
  have horder : inEmissionOrder 0 (instrsOfPacked p ++ instrsOfPacked q) = true := hmerges
  have hcall := decodeCall_of_groups (List.append_ne_nil_of_left_ne_nil (instrsOfPacked_ne_nil hp hpne) _) horder
    fun i hi => (List.mem_append.1 hi).elim (legal_of_mem_instrsOfPacked hp i) (legal_of_mem_instrsOfPacked hq i)
  rw [List.flatMap_append, List.map_append, List.sum_append_nat, ← validNybbleCount_encodeRecord hp,
    ← validNybbleCount_encodeRecord hq] at hcall
  refine ⟨dataValid_eq_false_of_append (instrsOfPacked_ne_nil hq hqne) horder,
    recordOfGroups (instrsOfPacked p ++ instrsOfPacked q), ?_, ?_⟩
  · rw [validNybbles_encodeRecord p hp, validNybbles_encodeRecord q hq]
    exact hcall
  · rw [groupsOfRecord_recordOfGroups horder, List.flatMap_append, flatMap_groupOfInstr_instrsOfPacked hp,
      flatMap_groupOfInstr_instrsOfPacked hq]

/-- Settles O35: a filler is a group that carries nothing. -/
theorem fillerChangesNoGroup : Obligations.FillerChangesNoGroup := by
  intro stream pos hwhole hpos
  obtain ⟨items, hitems, rfl⟩ := items_of_decodesWhole hwhole
  obtain ⟨before, after, rfl, rfl⟩ :=
    split_of_mem_groupStartsFrom _ 0 (fun i hi => (hitems i hi).wf) rfl hpos
  have hfilled : ∀ i ∈ before ++ Instr.skip :: after, StreamGroup i := by
    intro i hi
    obtain hi | rfl | hi : i ∈ before ∨ i = .skip ∨ i ∈ after := by simpa using hi
    · exact hitems i (List.mem_append_left _ hi)
    · exact streamGroup_skip
    · exact hitems i (List.mem_append_right _ hi)
  obtain ⟨-, hgroups⟩ := decodesWhole_of_items hitems
  obtain ⟨hwhole', hgroups'⟩ := decodesWhole_of_items hfilled
  rw [Nat.zero_add, insertFiller_flatMap_encode fun i hi => (hitems i (List.mem_append_left _ hi)).wf]
  refine ⟨hwhole', ?_⟩
  rw [hgroups, hgroups', List.flatMap_append, List.flatMap_append, List.flatMap_cons]
  rfl

end Sys2Proof.Proofs
end

section
/-!
PROOFS. The packer: the kinds of cycle, each field of a packed record, the count over a run, and what the packer does not read
(R5, R65 to R83).
-/

namespace Sys2Proof.Machine

/-! ## The kinds of cycle (R66, R67) -/

theorem isNonsequential_iff (raw : RawTraceRecord) :
    isNonsequential raw = true ↔ raw.instructionValid = true ∧
      (raw.trap = true ∨ raw.isReturn = true ∨ raw.isIndirectJump = true ∨ raw.branchTaken = true) := by
  simp [isNonsequential, or_assoc]

theorem isInteresting_iff (P : Params) (raw : RawTraceRecord) :
    isInteresting P raw = true ↔
      isNonsequential raw = true ∨ raw.breakpointValid = true ∨ P.wbLogged raw = true := by
  simp [isInteresting, or_assoc]

theorem isInteresting_eq_false (P : Params) (raw : RawTraceRecord) :
    isInteresting P raw = false ↔
      isNonsequential raw = false ∧ raw.breakpointValid = false ∧ P.wbLogged raw = false := by
  simp [isInteresting, and_assoc]

theorem isPlain_iff (P : Params) (raw : RawTraceRecord) :
    isPlain P raw = true ↔ raw.instructionValid = true ∧ isInteresting P raw = false := by
  simp [isPlain]

theorem isIdle_iff (P : Params) (raw : RawTraceRecord) :
    isIdle P raw = true ↔ raw.instructionValid = false ∧ isInteresting P raw = false := by
  simp [isIdle]

/-- Every cycle is of one kind, and of no other. -/
theorem cycle_cases (P : Params) (raw : RawTraceRecord) :
    (isInteresting P raw = true ∧ isPlain P raw = false ∧ isIdle P raw = false) ∨
      (isInteresting P raw = false ∧ isPlain P raw = true ∧ isIdle P raw = false) ∨
      (isInteresting P raw = false ∧ isPlain P raw = false ∧ isIdle P raw = true) := by
  cases hi : isInteresting P raw with
  | true => simp [isPlain, isIdle, hi]
  | false => cases hv : raw.instructionValid <;> simp [isPlain, isIdle, hi, hv]

/-! ## The fields of a packed record -/

theorem packRecord_seqValid (P : Params) (raw : RawTraceRecord) (pending : BitVec 3) :
    (packRecord P raw pending).seqValid = packFlush P raw pending := by
  unfold packRecord
  cases packData P raw <;> rfl

theorem packRecord_seq (P : Params) (raw : RawTraceRecord) (pending : BitVec 3) :
    (packRecord P raw pending).seq = if packFlush P raw pending then pending else 0 := by
  unfold packRecord
  cases packData P raw <;> rfl

theorem packRecord_nonseqValid (P : Params) (raw : RawTraceRecord) (pending : BitVec 3) :
    (packRecord P raw pending).nonseqValid = isNonsequential raw := by
  unfold packRecord
  cases packData P raw <;> rfl

theorem packRecord_nonseq (P : Params) (raw : RawTraceRecord) (pending : BitVec 3) :
    (packRecord P raw pending).nonseq = if isNonsequential raw then reasonCode raw else 0 := by
  unfold packRecord
  cases packData P raw <;> rfl

theorem packRecord_bkptValid (P : Params) (raw : RawTraceRecord) (pending : BitVec 3) :
    (packRecord P raw pending).bkptValid = raw.breakpointValid := by
  unfold packRecord
  cases packData P raw <;> rfl

theorem packRecord_bkpt (P : Params) (raw : RawTraceRecord) (pending : BitVec 3) :
    (packRecord P raw pending).bkpt = if raw.breakpointValid then raw.breakpointReason else 0 := by
  unfold packRecord
  cases packData P raw <;> rfl

/-- Where there is nothing to log, the data group is all zero (R74). -/
theorem packRecord_data_none {P : Params} {raw : RawTraceRecord} (pending : BitVec 3) (h : packData P raw = none) :
    (packRecord P raw pending).dataValid = false ∧ (packRecord P raw pending).dataReason = 0 ∧
      (packRecord P raw pending).data = 0 ∧ (packRecord P raw pending).compressedDataNybble = 0 ∧
      (packRecord P raw pending).compressedDataNumBytes = 0 := by
  simp [packRecord, h, PackedRecord.skip]

/-- Where there is, the hints are of its value and of the groups before it (R72, R73, R75, R76). -/
theorem packRecord_data_some {P : Params} {raw : RawTraceRecord} (pending : BitVec 3) {reason : BitVec 1}
    {data : DataValue} (h : packData P raw = some (reason, data)) :
    (packRecord P raw pending).dataValid = true ∧ (packRecord P raw pending).dataReason = reason ∧
      (packRecord P raw pending).data = data ∧
      (packRecord P raw pending).compressedDataNybble =
        offsetHint (packFlush P raw pending) (isNonsequential raw) raw.breakpointValid ∧
      (packRecord P raw pending).compressedDataNumBytes = minPairs data := by
  simp [packRecord, h]

/-! ## The data of a cycle (R72 to R74) -/

theorem packData_of_pcLogged {P : Params} {raw : RawTraceRecord} (h : isPcLogged P raw = true) :
    packData P raw = some (0, pcData (P.pcPayload raw)) := if_pos h

theorem packData_of_wbLogged {P : Params} {raw : RawTraceRecord} (hpc : isPcLogged P raw = false)
    (hwb : P.wbLogged raw = true) :
    packData P raw = some (1, writebackData raw.writebackValue raw.writebackRegister) := by
  simp [packData, hpc, hwb]

theorem packData_of_none {P : Params} {raw : RawTraceRecord} (hpc : isPcLogged P raw = false)
    (hwb : P.wbLogged raw = false) : packData P raw = none := by
  simp [packData, hpc, hwb]

/-- The data of a cycle is a destination, a writeback, or none. -/
theorem packData_cases (P : Params) (raw : RawTraceRecord) :
    packData P raw = some (0, pcData (P.pcPayload raw)) ∨
      (P.wbLogged raw = true ∧ packData P raw = some (1, writebackData raw.writebackValue raw.writebackRegister)) ∨
      (P.wbLogged raw = false ∧ packData P raw = none) := by
  cases hpc : isPcLogged P raw with
  | true => exact .inl (packData_of_pcLogged hpc)
  | false =>
    cases hwb : P.wbLogged raw with
    | true => exact .inr (.inl ⟨rfl, packData_of_wbLogged hpc hwb⟩)
    | false => exact .inr (.inr ⟨rfl, packData_of_none hpc hwb⟩)

theorem pcData_toNat (address : BitVec 32) : (pcData address).toNat = address.toNat := by
  have h := address.isLt
  rw [pcData, BitVec.toNat_setWidth]
  omega

theorem pcData_lt (address : BitVec 32) : (pcData address).toNat < 2 ^ 32 := by
  rw [pcData_toNat]
  exact address.isLt

theorem writebackData_lt (value : BitVec 32) (register : BitVec 5) : (writebackData value register).toNat < 2 ^ 37 := by
  have hvalue := value.isLt
  have hregister := register.isLt
  rw [writebackData_toNat]
  omega

/-- A record that has a data group was packed from a destination or from a writeback. -/
theorem packData_of_dataValid {P : Params} {raw : RawTraceRecord} {pending : BitVec 3}
    (h : (packRecord P raw pending).dataValid = true) :
    ∃ reason data, packData P raw = some (reason, data) ∧
      ((reason = 0 ∧ data.toNat < 2 ^ 32) ∨
        (reason = 1 ∧ data = writebackData raw.writebackValue raw.writebackRegister)) := by
  obtain hdata | ⟨-, hdata⟩ | ⟨-, hdata⟩ := packData_cases P raw
  · exact ⟨_, _, hdata, .inl ⟨rfl, pcData_lt _⟩⟩
  · exact ⟨_, _, hdata, .inr ⟨rfl, rfl⟩⟩
  · obtain ⟨hv, -⟩ := packRecord_data_none pending hdata
    exact absurd (h.symm.trans hv) (by decide)

/-- A writeback needs five pairs exactly from a value of `2^27` on (R75). -/
theorem minPairs_writebackData_eq_five (value : BitVec 32) (register : BitVec 5) :
    (minPairs (writebackData value register)).toNat = 5 ↔ 2 ^ 27 ≤ value.toNat := by
  obtain ⟨hfive, -, hleast⟩ := minPairs_spec (writebackData value register)
  have hdata := writebackData_toNat value register
  have hregister := register.isLt
  constructor
  · intro h
    have := hleast 4 (by omega)
    omega
  · intro h
    by_contra hne
    have hfour : (writebackData value register).toNat < 2 ^ (8 * 4) := by
      obtain ⟨-, hfits, -⟩ := minPairs_spec (writebackData value register)
      exact hfits.trans_le (Nat.pow_le_pow_right (by decide) (by omega))
    omega

theorem offsetHint_toNat : ∀ seqValid nonseqValid bkptValid : Bool,
    (offsetHint seqValid nonseqValid bkptValid).toNat =
      seqValid.toNat + nonseqValid.toNat + 2 * bkptValid.toNat + 2 := by decide

/-! ## The count (R68, R69) -/

/-- When the count is emitted, for each kind of cycle (R68). -/
theorem packFlush_cases (P : Params) (raw : RawTraceRecord) (pending : BitVec 3) :
    (isInteresting P raw = true → packFlush P raw pending = (pending != 0#3)) ∧
      (isPlain P raw = true → packFlush P raw pending = (pending == 7#3)) ∧
      (isIdle P raw = true → packFlush P raw pending = false) := by
  have hseven : (pending != 0#3 && pending == 7#3) = (pending == 7#3) := by revert pending; decide
  obtain ⟨hi, hp, hd⟩ | ⟨hi, hp, hd⟩ | ⟨hi, hp, hd⟩ := cycle_cases P raw
  · simp [packFlush, hi, hp, hd]
  · simpa [packFlush, hi, hp, hd] using hseven
  · simp [packFlush, hi, hp, hd]

theorem packFlush_ne_zero {P : Params} {raw : RawTraceRecord} {pending : BitVec 3} (h : packFlush P raw pending = true) :
    pending ≠ 0 := by
  rintro rfl
  simp [packFlush] at h

/-- The count after a step, for each kind of cycle (R69). -/
theorem packNextPending_cases (P : Params) (raw : RawTraceRecord) (pending : BitVec 3) :
    (isInteresting P raw = true → packNextPending P raw pending = 0) ∧
      (isPlain P raw = true → packNextPending P raw pending = if pending = 7#3 then 1 else pending + 1) ∧
      (isIdle P raw = true → packNextPending P raw pending = pending) := by
  obtain ⟨hi, hp, hd⟩ | ⟨hi, hp, hd⟩ | ⟨hi, hp, hd⟩ := cycle_cases P raw <;> simp [packNextPending, hi, hp, hd]

theorem eq_zero_iff_toNat : ∀ pending : BitVec 3, pending = 0#3 ↔ pending.toNat = 0 := by decide

theorem eq_seven_iff_toNat : ∀ pending : BitVec 3, pending = 7#3 ↔ pending.toNat = 7 := by decide

theorem toNat_add_one : ∀ pending : BitVec 3, pending ≠ 7#3 → (pending + 1).toNat = pending.toNat + 1 := by decide

/-- The count that a packed record carries. -/
def emittedCount (p : PackedRecord) : Nat := if p.seqValid then p.seq.toNat else 0

theorem emittedCounts_cons (p : PackedRecord) (ps : List PackedRecord) :
    emittedCounts (p :: ps) = emittedCount p + emittedCounts ps := by
  simp [emittedCounts, emittedCount]

theorem emittedCount_packRecord (P : Params) (raw : RawTraceRecord) (pending : BitVec 3) :
    emittedCount (packRecord P raw pending) = if packFlush P raw pending then pending.toNat else 0 := by
  rw [emittedCount, packRecord_seqValid, packRecord_seq]
  split <;> rfl

/-- A step emits or keeps the count it had, and a plain cycle adds one. -/
theorem emittedCount_add_packNextPending (P : Params) (raw : RawTraceRecord) (pending : BitVec 3) :
    emittedCount (packRecord P raw pending) + (packNextPending P raw pending).toNat =
      pending.toNat + (isPlain P raw).toNat := by
  obtain ⟨hnextI, hnextP, hnextD⟩ := packNextPending_cases P raw pending
  obtain ⟨hflushI, hflushP, hflushD⟩ := packFlush_cases P raw pending
  rw [emittedCount_packRecord]
  obtain ⟨hi, hp, -⟩ | ⟨-, hp, -⟩ | ⟨-, hp, hd⟩ := cycle_cases P raw
  · rw [hnextI hi, hflushI hi, hp]
    by_cases hzero : pending = 0#3 <;> simp [hzero]
  · rw [hnextP hp, hflushP hp, hp]
    by_cases hseven : pending = 7#3
    · simp [hseven]
    · rw [if_neg hseven, toNat_add_one pending hseven]
      simp [hseven]
  · rw [hnextD hd, hflushD hd, hp]
    simp

/-- Over a run the counts emitted and the count left are the count at the start and the plain cycles (R82). -/
theorem packRun_count (P : Params) (raws : List RawTraceRecord) (pending : BitVec 3)
    (h : ∀ raw ∈ raws, rawWF P raw = true) :
    ∃ ps last, packRun P pending raws = some (ps, last) ∧ ps.length = raws.length ∧
      emittedCounts ps + last.toNat = pending.toNat + (raws.filter fun raw => isPlain P raw).length := by
  induction raws generalizing pending with
  | nil => exact ⟨[], pending, rfl, rfl, Nat.zero_add _⟩
  | cons raw raws ih =>
    obtain ⟨hraw, hraws⟩ := List.forall_mem_cons.1 h
    obtain ⟨ps, last, hrun, hlength, hcount⟩ := ih (packNextPending P raw pending) hraws
    have hstep := emittedCount_add_packNextPending P raw pending
    have hplain : ((raw :: raws).filter fun raw => isPlain P raw).length =
        (isPlain P raw).toNat + (raws.filter fun raw => isPlain P raw).length := by
      cases hp : isPlain P raw <;> simp [hp, Nat.add_comm 1]
    refine ⟨packRecord P raw pending :: ps, last, by simp [packRun, packCall, packStep, hraw, hrun], by simp [hlength], ?_⟩
    rw [emittedCounts_cons, hplain]
    omega

/-- A run with a malformed record has no result (R80). -/
theorem packRun_of_malformed (P : Params) (raws : List RawTraceRecord) (pending : BitVec 3) {raw : RawTraceRecord}
    (hmem : raw ∈ raws) (hraw : rawWF P raw = false) : packRun P pending raws = none := by
  induction raws generalizing pending with
  | nil => cases hmem
  | cons first raws ih =>
    obtain rfl | hmem := List.mem_cons.1 hmem
    · simp [packRun, packCall, hraw]
    · cases hfirst : rawWF P first with
      | false => simp [packRun, packCall, hfirst]
      | true => simp [packRun, packCall, packStep, hfirst, ih _ hmem]

/-! ## The packed record is well-formed (R81) -/

/-- A well-formed raw record logs a destination or a writeback, not both (R13). -/
theorem isPcLogged_eq_false {P : Params} {raw : RawTraceRecord} (h : rawWF P raw = true) (hwb : P.wbLogged raw = true) :
    isPcLogged P raw = false := by
  rw [rawWF, Bool.and_eq_true, hwb, Bool.and_true] at h
  obtain ⟨-, hpc⟩ := h
  exact Bool.eq_false_of_not_eq_true' hpc

/-- The hints of a data group describe it: its length is the least, its offset counts the groups before it (R75, R76). -/
theorem packRecord_hints {P : Params} {raw : RawTraceRecord} {pending : BitVec 3}
    (h : (packRecord P raw pending).dataValid = true) :
    (packRecord P raw pending).compressedDataNumBytes = minPairs (packRecord P raw pending).data ∧
      (packRecord P raw pending).compressedDataNybble.toNat =
        (packRecord P raw pending).seqValid.toNat + (packRecord P raw pending).nonseqValid.toNat +
          2 * (packRecord P raw pending).bkptValid.toNat + 2 := by
  obtain ⟨reason, data, hdata, -⟩ := packData_of_dataValid h
  obtain ⟨-, -, hvalue, hoffset, hpairs⟩ := packRecord_data_some pending hdata
  rw [hpairs, hvalue, hoffset, offsetHint_toNat, packRecord_seqValid, packRecord_nonseqValid, packRecord_bkptValid]
  exact ⟨rfl, rfl⟩

/-- The value of a data group is as wide as its reason allows (R15 clause 6). -/
theorem packRecord_width {P : Params} {raw : RawTraceRecord} {pending : BitVec 3}
    (h : (packRecord P raw pending).dataValid = true) :
    (packRecord P raw pending).data.toNat < 2 ^ (if (packRecord P raw pending).dataReason = 0 then 32 else 37) := by
  obtain ⟨reason, data, hdata, hvalue⟩ := packData_of_dataValid h
  obtain ⟨-, hreason, heq, -⟩ := packRecord_data_some pending hdata
  rw [hreason, heq]
  obtain ⟨rfl, hlt⟩ | ⟨rfl, rfl⟩ := hvalue
  · exact hlt
  · exact writebackData_lt _ _

/-- A record without a data group has nothing to log, so the data fields are all zero. -/
theorem packData_of_dataInvalid {P : Params} {raw : RawTraceRecord} {pending : BitVec 3}
    (h : (packRecord P raw pending).dataValid = false) : P.wbLogged raw = false ∧ packData P raw = none := by
  obtain hdata | ⟨-, hdata⟩ | hnone := packData_cases P raw
  · exact absurd (h.symm.trans (packRecord_data_some pending hdata).1) (by decide)
  · exact absurd (h.symm.trans (packRecord_data_some pending hdata).1) (by decide)
  · exact hnone

theorem packedWF_packRecord (P : Params) (raw : RawTraceRecord) (pending : BitVec 3) :
    packedWF (packRecord P raw pending) = true := by
  have hzero := fun h : (packRecord P raw pending).dataValid = false =>
    packRecord_data_none pending (packData_of_dataInvalid h).2
  obtain ⟨hfive, hfits, -⟩ := minPairs_spec (packRecord P raw pending).data
  refine (packedWF_iff _).2
    { seq_ne_zero := fun hv => ?_
      seq_zero := fun hv => ?_
      nonseq_zero := fun hv => ?_
      bkpt_zero := fun hv => ?_
      reason_zero := fun hv => let ⟨_, hreason, _⟩ := hzero hv; hreason
      data_zero := fun hv => let ⟨_, _, hdata, _⟩ := hzero hv; hdata
      hint_zero := fun hv => let ⟨_, _, _, hhint, _⟩ := hzero hv; hhint
      pairs_zero := fun hv => let ⟨_, _, _, _, hpairs⟩ := hzero hv; hpairs
      pairs_le := fun hv => (packRecord_hints hv).1 ▸ hfive
      data_fits := fun hv => (packRecord_hints hv).1 ▸ hfits
      hint := fun hv => (packRecord_hints hv).2
      width := packRecord_width }
  · rw [packRecord_seqValid] at hv
    rw [packRecord_seq, if_pos hv]
    exact packFlush_ne_zero hv
  · rw [packRecord_seqValid] at hv
    rw [packRecord_seq, hv]
    rfl
  · rw [packRecord_nonseqValid] at hv
    rw [packRecord_nonseq, hv]
    rfl
  · rw [packRecord_bkptValid] at hv
    rw [packRecord_bkpt, hv]
    rfl

/-- The skip record is packed exactly where nothing is emitted: no count, and no event. -/
theorem packRecord_eq_skip (P : Params) (raw : RawTraceRecord) (pending : BitVec 3) :
    packRecord P raw pending = PackedRecord.skip ↔
      packFlush P raw pending = false ∧ isInteresting P raw = false := by
  rw [isInteresting_eq_false]
  constructor
  · intro h
    have hseq := packRecord_seqValid P raw pending
    have hnonseq := packRecord_nonseqValid P raw pending
    have hbkpt := packRecord_bkptValid P raw pending
    have hdata : (packRecord P raw pending).dataValid = false := by rw [h]; rfl
    rw [h] at hseq hnonseq hbkpt
    exact ⟨hseq.symm, hnonseq.symm, hbkpt.symm, (packData_of_dataInvalid hdata).1⟩
  · rintro ⟨hflush, hnsq, hbkpt, hwb⟩
    have hpc : isPcLogged P raw = false := by simp [isPcLogged, hnsq]
    simp [packRecord, packData_of_none hpc hwb, hflush, hnsq, hbkpt, PackedRecord.skip]

/-- Where nothing is emitted the cycle is idle, or plain before the count is full (R81). -/
theorem nothing_emitted_iff (P : Params) (raw : RawTraceRecord) (pending : BitVec 3) :
    packFlush P raw pending = false ∧ isInteresting P raw = false ↔
      isIdle P raw = true ∨ (isPlain P raw = true ∧ pending.toNat < 7) := by
  have hfull : pending ≠ 7#3 ↔ pending.toNat < 7 := by revert pending; decide
  obtain ⟨hflushI, hflushP, hflushD⟩ := packFlush_cases P raw pending
  obtain ⟨hi, hp, hd⟩ | ⟨hi, hp, hd⟩ | ⟨hi, hp, hd⟩ := cycle_cases P raw
  · simp [hi, hp, hd]
  · simp [hflushP hp, hi, hp, hd, ← hfull]
  · simp [hflushD hd, hi, hd]

/-! ## What the packer does not read (R83) -/

/-- What records that differ only in inputs the packer does not read agree in. -/
theorem loggable_congr {a b : RawTraceRecord} (h : sameButIgnored a b) : loggable a = loggable b := by
  have heq : a = { b with privilegeMode := a.privilegeMode, instructionWord := a.instructionWord,
                          programCounter := a.programCounter } := h
  exact (congrArg loggable heq :)

/-- Records that differ only in inputs the packer does not read are packed alike, where the parameters do not tell them apart. -/
theorem packCall_congr {P : Params} {a b : RawTraceRecord} (pending : BitVec 3) (h : sameButIgnored a b)
    (hwb : P.wbLogged a = P.wbLogged b) (hpc : P.pcLogged a = P.pcLogged b) (hpay : P.pcPayload a = P.pcPayload b) :
    packCall P a pending = packCall P b pending := by
  have hlog := loggable_congr h
  have hvalid : a.instructionValid = b.instructionValid := (congrArg RawTraceRecord.instructionValid hlog :)
  have hbkpt : a.breakpointValid = b.breakpointValid := (congrArg RawTraceRecord.breakpointValid hlog :)
  have hreason : a.breakpointReason = b.breakpointReason := (congrArg RawTraceRecord.breakpointReason hlog :)
  have hwriteback : writebackData a.writebackValue a.writebackRegister =
      writebackData b.writebackValue b.writebackRegister :=
    (congrArg (fun raw : RawTraceRecord => writebackData raw.writebackValue raw.writebackRegister) hlog :)
  have hnsq : isNonsequential a = isNonsequential b := (congrArg isNonsequential hlog :)
  have hcode : reasonCode a = reasonCode b := (congrArg reasonCode hlog :)
  have hflags : (a.instructionValid || (!a.trap && !a.isReturn && !a.isIndirectJump && !a.branchTaken)) =
      (b.instructionValid || (!b.trap && !b.isReturn && !b.isIndirectJump && !b.branchTaken)) :=
    (congrArg (fun raw : RawTraceRecord =>
      raw.instructionValid || (!raw.trap && !raw.isReturn && !raw.isIndirectJump && !raw.branchTaken)) hlog :)
  have hraw : rawWF P a = rawWF P b := by rw [rawWF, rawWF, hflags, hnsq, hpc, hwb]
  have hinteresting : isInteresting P a = isInteresting P b := by rw [isInteresting, isInteresting, hnsq, hbkpt, hwb]
  have hplain : isPlain P a = isPlain P b := by rw [isPlain, isPlain, hvalid, hinteresting]
  have hdata : packData P a = packData P b := by
    rw [packData, packData, isPcLogged, isPcLogged, hnsq, hpc, hpay, hwb, hwriteback]
  have hflush : packFlush P a pending = packFlush P b pending := by rw [packFlush, packFlush, hinteresting, hplain]
  have hnext : packNextPending P a pending = packNextPending P b pending := by
    rw [packNextPending, packNextPending, hinteresting, hplain]
  have hrecord : packRecord P a pending = packRecord P b pending := by
    rw [packRecord, packRecord, hdata, hflush, hnsq, hcode, hbkpt, hreason]
  rw [packCall, packCall, packStep, packStep, hraw, hrecord, hnext]

/-- The environment's choices of what is logged see nothing that the packer ignores. -/
theorem paramsOf_logged_congr (choice : PolicyChoice) {a b : RawTraceRecord} (h : sameButIgnored a b) :
    (paramsOf choice).wbLogged a = (paramsOf choice).wbLogged b ∧
      (paramsOf choice).pcLogged a = (paramsOf choice).pcLogged b := by
  have hlog := loggable_congr h
  have hretire : a.retireValid = b.retireValid := (congrArg RawTraceRecord.retireValid hlog :)
  have hvalid : a.writebackValid = b.writebackValid := (congrArg RawTraceRecord.writebackValid hlog :)
  simp only [paramsOf, hretire, hvalid, hlog, and_self]

theorem sameButIgnored_of_sameButUnread {a b : RawTraceRecord} (h : sameButUnread a b) :
    sameButIgnored a b ∧ a.programCounter = b.programCounter := by
  have heq : a = { b with privilegeMode := a.privilegeMode, instructionWord := a.instructionWord } := h
  have hpc : a.programCounter = b.programCounter := (congrArg RawTraceRecord.programCounter heq :)
  refine ⟨?_, hpc⟩
  rw [sameButIgnored, hpc]
  exact h

/-- A choice of the logged address sees the program counter beside what is loggable, and the default choice not even that. -/
theorem paramsOf_pcPayload_congr (choice : PolicyChoice) {a b : RawTraceRecord} (h : sameButIgnored a b)
    (hpc : choice.payload = .branchTarget ∨ a.programCounter = b.programCounter) :
    (paramsOf choice).pcPayload a = (paramsOf choice).pcPayload b := by
  have hlog := loggable_congr h
  have htarget : a.branchTarget = b.branchTarget := (congrArg RawTraceRecord.branchTarget hlog :)
  obtain hpayload | hpc := hpc
  · simp only [paramsOf, hpayload, htarget]
  · simp only [paramsOf, htarget, hpc, hlog]

end Sys2Proof.Machine

namespace Sys2Proof.Proofs
open Machine

/-- Settles O36. -/
theorem everyCycleIsOfOneKind : Obligations.EveryCycleIsOfOneKind := by
  intro P raw _
  refine ⟨by rw [isInteresting_iff, isNonsequential_iff], isPlain_iff P raw, isIdle_iff P raw, ?_⟩
  obtain ⟨hi, hp, hd⟩ | ⟨hi, hp, hd⟩ | ⟨hi, hp, hd⟩ := cycle_cases P raw <;> simp [hi, hp, hd]

/-- Settles O37: when the count is flushed, and what it is next, for each kind of cycle. -/
theorem countIsKeptFlushedOrStarted : Obligations.CountIsKeptFlushedOrStarted := by
  intro P raw pending _
  obtain ⟨hnextI, hnextP, hnextD⟩ := packNextPending_cases P raw pending
  obtain ⟨hflushI, hflushP, hflushD⟩ := packFlush_cases P raw pending
  simp only [packStep, packRecord_seqValid, packRecord_seq]
  refine ⟨fun hd => ?_, fun hp hlt => ?_, fun hp hfull => ?_, fun hi hnone => ?_, fun hi hsome => ?_⟩
  · simp [hflushD hd, hnextD hd]
  · have hne : pending ≠ 7#3 := fun h => absurd ((eq_seven_iff_toNat _).1 h) (Nat.ne_of_lt hlt)
    rw [hflushP hp, hnextP hp, if_neg hne, toNat_add_one pending hne]
    simp [hne]
  · obtain rfl := (eq_seven_iff_toNat _).2 hfull
    simp [hflushP hp, hnextP hp]
  · obtain rfl := (eq_zero_iff_toNat _).2 hnone
    simp [hflushI hi, hnextI hi]
  · have hne : pending ≠ 0#3 := fun h => absurd ((eq_zero_iff_toNat _).1 h) (Nat.ne_of_gt hsome)
    simp [hflushI hi, hnextI hi, hne]

/-- Settles O38: the reason is the first flag of a valid instruction that is set. -/
theorem reasonAndBreakpointFollowTheRecord : Obligations.ReasonAndBreakpointFollowTheRecord := by
  intro P raw pending _
  simp only [packStep, packRecord_nonseqValid, packRecord_nonseq, packRecord_bkptValid, packRecord_bkpt]
  refine ⟨fun hv ht => ?_, fun hv ht hr => ?_, fun hv ht hr hj => ?_, fun hv ht hr hj hb => ?_, fun hnone => ?_,
    fun hv => ?_, fun hv => ?_⟩
  · simp [isNonsequential, reasonCode, hv, ht]
  · simp [isNonsequential, reasonCode, hv, ht, hr]
  · simp [isNonsequential, reasonCode, hv, ht, hr, hj]
  · simp [isNonsequential, reasonCode, hv, ht, hr, hj, hb]
  · have hnsq : isNonsequential raw = false := by
      obtain hv | ⟨ht, hr, hj, hb⟩ := hnone
      · simp [isNonsequential, hv]
      · simp [isNonsequential, ht, hr, hj, hb]
    simp [hnsq]
  · simp [hv]
  · simp [hv]

/-- Settles O39: what is logged is the destination first, and a well-formed record does not log both. -/
theorem dataGroupFollowsTheRecord : Obligations.DataGroupFollowsTheRecord := by
  intro P raw pending hraw
  refine ⟨fun hnsq hpcl => ?_, fun hwb => ?_, fun hnone hwb => ?_⟩
  · have hpc : isPcLogged P raw = true := by simp [isPcLogged, hnsq, hpcl]
    obtain ⟨hv, hreason, hvalue, -⟩ := packRecord_data_some pending (packData_of_pcLogged hpc)
    exact ⟨hv, hreason, (congrArg BitVec.toNat hvalue).trans (pcData_toNat _)⟩
  · obtain ⟨hv, hreason, hvalue, -⟩ :=
      packRecord_data_some pending (packData_of_wbLogged (isPcLogged_eq_false hraw hwb) hwb)
    exact ⟨hv, hreason, (congrArg BitVec.toNat hvalue).trans (writebackData_toNat _ _)⟩
  · have hpc : isPcLogged P raw = false := by
      obtain hnsq | hpcl := hnone
      · simp [isPcLogged, hnsq]
      · simp [isPcLogged, hpcl]
    exact packRecord_data_none pending (packData_of_none hpc hwb)

/-- Settles O40: an address fits four pairs, and a writeback fits them exactly below `2^27`. -/
theorem lengthHintIsLeast : Obligations.LengthHintIsLeast := by
  intro P raw pending _ p hv
  obtain ⟨reason, data, hdata, hkind⟩ := packData_of_dataValid hv
  obtain ⟨-, hreason, hvalue, -, hpairs⟩ := packRecord_data_some pending hdata
  obtain ⟨hfive, hfits, hleast⟩ := minPairs_spec data
  have hp : p = packRecord P raw pending := rfl
  rw [hp, hpairs, hvalue, hreason]
  refine ⟨hfive, hfits, hleast, fun hzero => ?_, fun hone => ?_⟩
  · obtain ⟨-, hlt⟩ | ⟨rfl, -⟩ := hkind
    · exact minPairs_le data 4 hlt
    · exact absurd hzero (by decide)
  · obtain ⟨rfl, -⟩ | ⟨-, rfl⟩ := hkind
    · exact absurd hone (by decide)
    · exact minPairs_writebackData_eq_five _ _

/-- Settles O41: the hint and the encoder's offset count the same groups. -/
theorem offsetHintIsTheEncodersOffset : Obligations.OffsetHintIsTheEncodersOffset := by
  intro P raw pending _ p hv
  have hoffset : p.compressedDataNybble.toNat =
      p.seqValid.toNat + p.nonseqValid.toNat + 2 * p.bkptValid.toNat + 2 := (packRecord_hints hv).2
  have hseq := p.seqValid.toNat_le
  have hnonseq := p.nonseqValid.toNat_le
  have hbkpt := p.bkptValid.toNat_le
  exact ⟨hoffset, by omega, by omega, hoffset⟩

/-- Settles O42: each clause of PackedWF from the fields, the least length, and what is emitted. -/
theorem packerOutputIsWellFormed : Obligations.PackerOutputIsWellFormed := by
  intro P raw pending _
  refine ⟨packedWF_packRecord P raw pending, ?_, Nat.le_of_lt_succ (packNextPending P raw pending).isLt,
    (packRecord_eq_skip P raw pending).trans (nothing_emitted_iff P raw pending)⟩
  cases hv : (packRecord P raw pending).dataValid with
  | false =>
    obtain ⟨-, -, -, -, hpairs⟩ := packRecord_data_none pending (packData_of_dataInvalid hv).2
    exact .inl hpairs
  | true =>
    obtain ⟨hpairs, -⟩ := packRecord_hints hv
    obtain ⟨-, -, hleast⟩ := minPairs_spec (packRecord P raw pending).data
    simp only [packStep, hpairs]
    by_cases hzero : minPairs (packRecord P raw pending).data = 0
    · exact .inl hzero
    · have hpos : (minPairs (packRecord P raw pending).data).toNat ≠ 0 := fun h =>
        hzero (BitVec.eq_of_toNat_eq h)
      exact .inr (hleast _ (by omega))

/-- Settles O43: every step conserves the count, so a run does. -/
theorem retirementsAreConserved : Obligations.RetirementsAreConserved := by
  refine fun P raws => ⟨fun h => ?_, fun pending raw => packRun_of_malformed P raws pending⟩
  obtain ⟨ps, last, hrun, hlength, hcount⟩ := packRun_count P raws 0 h
  exact ⟨ps, last, hrun, hlength, hcount.trans (Nat.zero_add _)⟩

/-- Settles O44: no rule of the packer, and no choice of the parameters, reads what the records differ in. -/
theorem ignoredInputsChangeNothing : Obligations.IgnoredInputsChangeNothing := by
  refine fun a b pending => ⟨fun h choice => ?_, fun h choice hpayload => ?_, fun h P => packCall_congr pending h⟩
  · obtain ⟨hsame, hpc⟩ := sameButIgnored_of_sameButUnread h
    obtain ⟨hwb, hlogged⟩ := paramsOf_logged_congr choice hsame
    exact packCall_congr pending hsame hwb hlogged (paramsOf_pcPayload_congr choice hsame (.inr hpc))
  · obtain ⟨hwb, hlogged⟩ := paramsOf_logged_congr choice h
    exact packCall_congr pending h hwb hlogged (paramsOf_pcPayload_congr choice h (.inl hpayload))

/-- Settles O45: every choice of `WB_LOGGED` is guarded by both valid bits. -/
theorem parametersMeetTheirConstraint : Obligations.ParametersMeetTheirConstraint := by
  refine ⟨fun choice raw h => ?_, fun raw => ⟨Bool.and_true _, rfl, rfl⟩⟩
  simp only [paramsOf, Bool.and_eq_true] at h
  obtain ⟨⟨hretire, hvalid⟩, -⟩ := h
  exact ⟨hretire, hvalid⟩

end Sys2Proof.Proofs
end

section
/-!
PROOFS. The encoder's container is in canonical form, and what each agent's action does to the state (R33, R36, R39, R85, R91,
R92, R138, R147).
-/

namespace Sys2Proof.Machine

/-! ## The puts tile the container (R86, R91) -/

theorem putsFrom_map_fst (k : Nat) (l : List Nybble) : (putsFrom k l).map Prod.fst = List.range' k l.length := by
  induction l generalizing k with
  | nil => rfl
  | cons v l ih => rw [putsFrom, List.map_cons, ih, List.length_cons, List.range'_succ]

theorem emissions_map_fst (p : PackedRecord) : (emissions p).map Prod.fst = List.range (totalNybbles p) := by
  rw [emissions_eq, putsFrom_map_fst, groupNybbles_length, List.range_eq_range']

theorem validNybbleCount_eq_totalNybbles {p : PackedRecord} (h : packedWF p = true) :
    (encodeRecord p).validNybbleCount.toNat = totalNybbles p := by
  rw [← validNybbles_length, validNybbles_encodeRecord p h, groupNybbles_length]

/-- Behind the puts every nybble of the container is 0. -/
theorem nyb_encodeRecord_of_total_le {p : PackedRecord} {i : Nat} (hi : totalNybbles p ≤ i) (h16 : i < 16) :
    nyb (encodeRecord p).nybbleData i = 0 := by
  rw [← groupNybbles_length] at hi
  rw [encodeRecord, emissions_eq, nyb_putAll_putsFrom_zero _ i h16, List.getElem?_eq_none hi]
  rfl

theorem compressedWF_encodeRecord {p : PackedRecord} (h : packedWF p = true) : compressedWF (encodeRecord p) = true := by
  rw [compressedWF_iff, validNybbleCount_eq_totalNybbles h]
  exact ⟨totalNybbles_le p h, fun i h16 hi => nyb_encodeRecord_of_total_le hi h16⟩

/-! ## The producers -/

theorem asProducer_of_allowed {who : Producer} {s : State} (write : State → Host.Outcome State Fault Refusal)
    (h : s.producer = none ∨ s.producer = some who) : asProducer who write s = write (s.setProducer (some who)) := if_pos h

theorem asProducer_of_other {who : Producer} {s : State} (write : State → Host.Outcome State Fault Refusal)
    (hnone : s.producer ≠ none) (hother : s.producer ≠ some who) : asProducer who write s = .refused .secondProducer :=
  if_neg fun h => h.elim hnone hother

theorem handleInput_load (nybbles : List Nybble) (s : State) :
    handleInput (.load nybbles) s = asProducer .elsewhere (fun t => .next (loadStream nybbles t)) s := rfl

/-- A stream handed over as bytes is handed over as their nybbles (R36). -/
theorem handleInput_loadBytes (bytes : List (BitVec 8)) (s : State) :
    handleInput (.loadBytes bytes) s = handleInput (.load (fromBytes bytes)) s := rfl

/-- An encode call on a well-formed record (R85, R33). -/
theorem encodeAndAppend_of_wf {p : PackedRecord} (s : State) (h : packedWF p = true) :
    encodeAndAppend p s =
      .next (((s.setPacked p).setContainer (encodeRecord p)).setStream
        (s.mem.stream ++ validNybbles (encodeRecord p))) :=
  (encodeAndAppend_next p s _).2 ⟨h, compressedWF_encodeRecord h, rfl⟩

theorem encodeAndAppend_of_malformed {p : PackedRecord} (s : State) (h : packedWF p = false) :
    encodeAndAppend p s = .refused .packedNotWellFormed := by
  simp [encodeAndAppend, encodeCall, h]

theorem appendRecord_of_malformed {c : CompressedRecord} (s : State) (h : compressedWF c = false) :
    appendRecord c s = .refused .compressedNotWellFormed := by
  simp [appendRecord, (streamAppend_eq_none _ _).2 h]

/-- A raw record is packed into a well-formed record, which is encoded (R65, R81, R85). -/
theorem presentRaw_of_wf {raw : RawTraceRecord} (s : State) (h : rawWF (paramsOf s.policy) raw = true) :
    presentRaw raw s =
      encodeAndAppend (packRecord (paramsOf s.policy) raw s.pendingSeq)
        (s.setPending (packNextPending (paramsOf s.policy) raw s.pendingSeq)) := by
  simp [presentRaw, packCall, packStep, h]

theorem presentRaw_of_malformed {raw : RawTraceRecord} (s : State) (h : rawWF (paramsOf s.policy) raw = false) :
    presentRaw raw s = .refused .rawNotWellFormed := by
  simp [presentRaw, packCall, h]

theorem addFiller_of_outside {pos : Nat} {s : State} (h : pos < s.cursor ∨ s.mem.stream.length < pos) :
    addFiller pos s = .refused .fillerOutsideUnread := if_neg (by omega)

theorem resynchronise_of_lt {pos : Nat} {s : State} (h : s.mem.stream.length < pos) :
    resynchronise pos s = .refused .cursorPastEnd := if_neg (Nat.not_le.2 h)

/-! ## Reading back an append (R33) -/

theorem getElem?_validNybbles {c : CompressedRecord} {i : Nat} (hi : i < c.validNybbleCount.toNat) :
    (validNybbles c)[i]? = some (nyb c.nybbleData i) := by
  simp [validNybbles, firstNybbles, hi]

/-! ## The byte view (R36) -/

theorem extract_byte : ∀ hi lo : Nybble,
    (hi ++ lo : BitVec 8).extractLsb' 0 4 = lo ∧ (hi ++ lo : BitVec 8).extractLsb' 4 4 = hi := by decide

theorem toBytes_length (stream : NybbleStream) : (toBytes stream).length = (stream.length + 1) / 2 := by
  induction stream using toBytes.induct with
  | case1 => rfl
  | case2 lo => simp [toBytes]
  | case3 lo hi rest ih =>
    simp only [toBytes, List.length_cons, ih]
    omega

/-- Byte `k` holds nybble `2k` in its low half and nybble `2k + 1`, or a filler behind the end, in its high half. -/
theorem toBytes_getElem? (stream : NybbleStream) (k : Nat) (b : BitVec 8) (h : (toBytes stream)[k]? = some b) :
    stream[2 * k]? = some (b.extractLsb' 0 4) ∧ stream.getD (2 * k + 1) 0b0000#4 = b.extractLsb' 4 4 := by
  induction stream using toBytes.induct generalizing k with
  | case1 => cases h
  | case2 lo =>
    cases k with
    | succ k => cases h
    | zero =>
      obtain ⟨hlo, hhi⟩ := extract_byte 0b0000#4 lo
      cases h
      exact ⟨congrArg some hlo.symm, hhi.symm⟩
  | case3 lo hi rest ih =>
    cases k with
    | zero =>
      obtain ⟨hlo, hhi⟩ := extract_byte hi lo
      cases h
      exact ⟨congrArg some hlo.symm, hhi.symm⟩
    | succ k => exact ih k h

theorem fromBytes_toBytes (stream : NybbleStream) :
    fromBytes (toBytes stream) = stream ++ (if stream.length % 2 = 1 then [0b0000#4] else []) := by
  induction stream using toBytes.induct with
  | case1 => rfl
  | case2 lo =>
    obtain ⟨hlo, hhi⟩ := extract_byte 0b0000#4 lo
    rw [toBytes, fromBytes, hlo, hhi]
    rfl
  | case3 lo hi rest ih =>
    obtain ⟨hlo, hhi⟩ := extract_byte hi lo
    rw [toBytes, fromBytes, hlo, hhi, ih, List.length_cons, List.length_cons, Nat.add_assoc, Nat.add_mod_right]
    rfl

end Sys2Proof.Machine

namespace Sys2Proof.Proofs
open Machine

/-- Settles O46: the puts are those of the groups' nybbles in a row, from index 0 on. -/
theorem emissionsTileTheContainer : Obligations.EmissionsTileTheContainer := fun p h =>
  ⟨emissions_map_fst p, validNybbleCount_eq_totalNybbles h, fun _ he => nyb_encodeRecord_of_mem p h he,
    fun _ hi h16 => nyb_encodeRecord_of_total_le hi h16, compressedWF_encodeRecord h⟩

/-- Settles O49: the groups of a record are in emission order, where a skip has no place. -/
theorem skipRecordEncodesToNothing : Obligations.SkipRecordEncodesToNothing := by
  refine ⟨by decide, fun p _ hskip => ?_⟩
  obtain ⟨o, ho⟩ := order_of_mem (instrsOfPacked_inEmissionOrder p) hskip
  cases ho

/-- Settles O51: the packer's output is well-formed, so it is encoded and appended. -/
theorem rawRecordIsPackedEncodedAndAppended : Obligations.RawRecordIsPackedEncodedAndAppended := by
  intro s raw q hq
  have hstep : step s = asProducer .packer (presentRaw raw) (s.setInputs q) := step_of_input s _ q hq
  refine ⟨fun hallowed hraw => ?_, fun hallowed hraw => ?_, fun hnone hother => ?_⟩
  · rw [hstep, asProducer_of_allowed (s := s.setInputs q) _ hallowed,
      presentRaw_of_wf ((s.setInputs q).setProducer (some .packer)) hraw, encodeAndAppend_of_wf _ (packedWF_packRecord _ _ _)]
    rfl
  · rw [hstep, asProducer_of_allowed (s := s.setInputs q) _ hallowed]
    exact presentRaw_of_malformed _ hraw
  · rw [hstep]
    exact asProducer_of_other _ hnone hother

/-- Settles O52. -/
theorem packedRecordIsEncodedAndAppended : Obligations.PackedRecordIsEncodedAndAppended := by
  intro s p q hq
  have hstep : step s = asProducer .encodeCaller (encodeAndAppend p) (s.setInputs q) := step_of_input s _ q hq
  refine ⟨fun hallowed hp => ?_, fun hallowed hp => ?_, fun hnone hother => ?_⟩
  · rw [hstep, asProducer_of_allowed (s := s.setInputs q) _ hallowed, encodeAndAppend_of_wf _ hp]
    rfl
  · rw [hstep, asProducer_of_allowed (s := s.setInputs q) _ hallowed]
    exact encodeAndAppend_of_malformed _ hp
  · rw [hstep]
    exact asProducer_of_other _ hnone hother

/-- Settles O53: the appended nybbles stand behind those that stood there. -/
theorem appendAddsTheValidNybbles : Obligations.AppendAddsTheValidNybbles := by
  intro s c q hq
  have hstep : step s = asProducer .appendCaller (appendRecord c) (s.setInputs q) := step_of_input s _ q hq
  refine ⟨fun hallowed hc => ?_, fun hallowed hc => ?_, fun hnone hother => ?_⟩
  · refine ⟨_, ?_, rfl, fun j hj => ?_, ?_, fun i hi => ?_⟩
    · rw [hstep, asProducer_of_allowed (s := s.setInputs q) _ hallowed]
      exact (appendRecord_next c _ _).2 ⟨hc, rfl⟩
    · exact List.getElem?_append_left hj
    · refine (streamRead_eq_some _ _ _ _).2 ⟨by simp, ?_⟩
      rw [List.drop_left, ← validNybbles_length, List.take_length]
    · rw [← getElem?_validNybbles hi]
      exact getElem?_append_length_add _ _ i
  · rw [hstep, asProducer_of_allowed (s := s.setInputs q) _ hallowed]
    exact appendRecord_of_malformed _ hc
  · rw [hstep]
    exact asProducer_of_other _ hnone hother

/-- Settles O55: each input's own action, on the state whose queue has lost it. -/
theorem environmentActionsDoWhatTheySay : Obligations.EnvironmentActionsDoWhatTheySay := by
  intro s q
  have hstep : ∀ e, step { s with inputs := e :: q } = handleInput e (s.setInputs q) := fun e => step_of_input _ e q rfl
  have hload : s.producer = none ∨ s.producer = some .elsewhere → ∀ stream, step { s with inputs := .load stream :: q } =
      .next (loadStream stream ((s.setInputs q).setProducer (some .elsewhere))) := fun hallowed stream => by
    rw [hstep, handleInput_load, asProducer_of_allowed (s := s.setInputs q) _ hallowed]
  have hrefused : s.producer ≠ none → s.producer ≠ some .elsewhere → ∀ stream,
      step { s with inputs := .load stream :: q } = .refused .secondProducer := fun hnone hother stream => by
    rw [hstep, handleInput_load, asProducer_of_other (s := s.setInputs q) _ hnone hother]
  refine ⟨fun pos hlo hhi => ?_, fun pos hout => ?_, fun pos hpos => ?_, fun pos hpos => ?_, hstep _, fun choice => hstep _,
    fun hallowed => ⟨fun stream => ?_, fun bytes => ?_⟩, fun hnone hother => ⟨fun stream => ?_, fun bytes => ?_⟩⟩
  · exact (hstep _).trans ((addFiller_next pos (s.setInputs q) _).2 ⟨⟨hlo, hhi⟩, rfl⟩)
  · exact (hstep _).trans (addFiller_of_outside (s := s.setInputs q) hout)
  · exact (hstep _).trans ((resynchronise_next pos (s.setInputs q) _).2 ⟨hpos, rfl⟩)
  · exact (hstep _).trans (resynchronise_of_lt (s := s.setInputs q) hpos)
  · exact hload hallowed stream
  · rw [hstep, handleInput_loadBytes, ← hstep]
    exact hload hallowed (fromBytes bytes)
  · exact hrefused hnone hother stream
  · rw [hstep, handleInput_loadBytes, ← hstep]
    exact hrefused hnone hother (fromBytes bytes)

/-- Settles O56. -/
theorem byteViewHoldsTwoNybblesAByte : Obligations.ByteViewHoldsTwoNybblesAByte := fun stream =>
  ⟨toBytes_length stream, toBytes_getElem? stream, fromBytes_toBytes stream⟩

/-- Settles O60: the step writes one place of the list. -/
theorem channelsShareNothing : Obligations.ChannelsShareNothing := by
  intro channels after k h
  unfold stepChannel at h
  cases hk : channels[k]? with
  | none =>
    rw [hk] at h
    cases h
    exact ⟨fun j _ => rfl, fun s hs => by cases hs⟩
  | some s =>
    have hlt := (List.getElem?_eq_some_iff.1 hk).1
    rw [hk] at h
    cases hs : step s with
    | next t =>
      simp only [hs] at h
      cases h
      refine ⟨fun j hj => List.getElem?_set_ne hj.symm, fun s' hs' => ?_⟩
      obtain rfl : s = s' := Option.some.inj hs'
      exact ⟨t, hs, List.getElem?_set_self hlt⟩
    | fault r => simp [hs] at h
    | refused r => simp [hs] at h

end Sys2Proof.Proofs
end

section
/-!
PROOFS. The invariant of the state holds at reset and every step keeps it (R11, R18, R20, R21, R39, R138, R143).
-/

namespace Sys2Proof.Machine

/-! ## The clauses of the invariant -/

/-- The clauses of `State.inv`, each under its own name. -/
structure InvClauses (s : State) : Prop where
  cursor_le : s.cursor ≤ s.mem.stream.length
  container : compressedWF s.mem.container = true
  packed : packedWF s.packed = true
  outcomes : ∀ o ∈ s.outcomes, outcomeWF o = true
  unwritten : s.producer = none → ∀ t ∈ s.mem.stream, t = 0b0000#4
  pending : s.pendingSeq ≠ 0 → s.producer = some .packer

theorem producerInv_iff (s : State) :
    s.producerInv = true ↔
      (s.producer = none → ∀ t ∈ s.mem.stream, t = 0b0000#4) ∧ (s.pendingSeq ≠ 0 → s.producer = some .packer) := by
  simp only [State.producerInv, Bool.and_eq_true, Bool.or_eq_true, List.all_eq_true, beq_iff_eq, ne_eq,
    ← or_iff_not_imp_left, ← Option.not_isSome_iff_eq_none]

theorem inv_iff (s : State) : s.inv = true ↔ InvClauses s := by
  simp only [State.inv, Bool.and_eq_true, decide_eq_true_eq, List.all_eq_true, producerInv_iff]
  constructor
  · rintro ⟨⟨⟨⟨hcursor, hcontainer⟩, hpacked⟩, houtcomes⟩, hunwritten, hpending⟩
    exact ⟨hcursor, hcontainer, hpacked, houtcomes, hunwritten, hpending⟩
  · intro c
    exact ⟨⟨⟨⟨c.cursor_le, c.container⟩, c.packed⟩, c.outcomes⟩, c.unwritten, c.pending⟩

/-! ## Each action keeps them -/

theorem InvClauses.setInputs {s : State} (h : InvClauses s) (q : List Input) : InvClauses (s.setInputs q) :=
  ⟨h.cursor_le, h.container, h.packed, h.outcomes, h.unwritten, h.pending⟩

/-- A call's outcome keeps its promises, and what it consumed is in the stream (R20, R112). -/
theorem decodeOutcome_promised {stream : NybbleStream} {c : Nat} (hc : c ≤ stream.length) :
    outcomeWF (decodeOutcome stream c) = true ∧ c + (decodeOutcome stream c).consumed ≤ stream.length := by
  cases hout : decodeOutcome stream c with
  | ok r n =>
    obtain ⟨hwf, hpos, h16, hl⟩ := wf_of_decodeOutcome hout
    exact ⟨by simp [outcomeWF, hwf, hpos, h16], hl⟩
  | fault k => exact ⟨rfl, hc⟩
  | exhausted => exact ⟨rfl, hc⟩

theorem InvClauses.report {s : State} (h : InvClauses s) {o : DecodeOutcome} (hwf : outcomeWF o = true)
    (hl : s.cursor + o.consumed ≤ s.mem.stream.length) : InvClauses (report o s) where
  cursor_le := by rwa [report_cursor, report_stream]
  container := by rw [report_container]; exact h.container
  packed := by rw [report_packed]; exact h.packed
  outcomes := by
    intro o' ho'
    rw [report_outcomes, List.mem_append, List.mem_singleton] at ho'
    obtain ho' | rfl := ho'
    · exact h.outcomes o' ho'
    · exact hwf
  unwritten := by rw [report_producer, report_stream]; exact h.unwritten
  pending := by rw [report_pendingSeq, report_producer]; exact h.pending

theorem InvClauses.consumerCall {s t : State} (h : InvClauses s) (hcall : consumerCall s = .next t) : InvClauses t := by
  cases (consumerCall_of_le h.cursor_le).symm.trans hcall
  obtain ⟨hwf, hl⟩ := decodeOutcome_promised h.cursor_le
  exact h.report hwf hl

/-- A producer that may write becomes the stream's: a count that is pending is its own. -/
theorem InvClauses.setProducer {s : State} (h : InvClauses s) {who : Producer}
    (hallowed : s.producer = none ∨ s.producer = some who) : InvClauses (s.setProducer (some who)) where
  cursor_le := h.cursor_le
  container := h.container
  packed := h.packed
  outcomes := h.outcomes
  unwritten := fun hnone => absurd hnone (by simp)
  pending := fun hpending => by
    have hpacker := h.pending hpending
    obtain hnone | hwho := hallowed
    · exact absurd (hnone.symm.trans hpacker) (by simp)
    · exact hwho.symm.trans hpacker

/-- A stream that has a producer may become any that holds the cursor. -/
theorem InvClauses.setStream {s : State} (h : InvClauses s) {stream : NybbleStream} (hproducer : s.producer ≠ none)
    (hl : s.cursor ≤ stream.length) : InvClauses (s.setStream stream) :=
  ⟨hl, h.container, h.packed, h.outcomes, fun hnone => absurd hnone hproducer, h.pending⟩

theorem InvClauses.setCursor {s : State} (h : InvClauses s) {pos : Nat} (hpos : pos ≤ s.mem.stream.length) :
    InvClauses (s.setCursor pos) :=
  ⟨hpos, h.container, h.packed, h.outcomes, h.unwritten, h.pending⟩

theorem InvClauses.setPending {s : State} (h : InvClauses s) {v : BitVec 3} (hv : v ≠ 0 → s.producer = some .packer) :
    InvClauses (s.setPending v) :=
  ⟨h.cursor_le, h.container, h.packed, h.outcomes, h.unwritten, hv⟩

theorem InvClauses.setEncoded {s : State} (h : InvClauses s) {p : PackedRecord} (hp : packedWF p = true) :
    InvClauses ((s.setPacked p).setContainer (encodeRecord p)) :=
  ⟨h.cursor_le, compressedWF_encodeRecord hp, hp, h.outcomes, h.unwritten, h.pending⟩

/-- A filler among fillers leaves fillers (R39). -/
theorem eq_filler_of_mem_insertFiller {stream : NybbleStream} (pos : Nat) (h : ∀ t ∈ stream, t = 0b0000#4) :
    ∀ t ∈ insertFiller stream pos, t = 0b0000#4 := by
  intro t ht
  simp only [insertFiller, List.mem_append, List.mem_cons] at ht
  obtain ht | rfl | ht := ht
  · exact h t (List.mem_of_mem_take ht)
  · rfl
  · exact h t (List.mem_of_mem_drop ht)

theorem InvClauses.insertFiller {s : State} (h : InvClauses s) (pos : Nat) :
    InvClauses (s.setStream (insertFiller s.mem.stream pos)) where
  cursor_le := by
    rw [State.setStream_stream, insertFiller_length]
    exact Nat.le_succ_of_le h.cursor_le
  container := h.container
  packed := h.packed
  outcomes := h.outcomes
  unwritten := fun hnone => eq_filler_of_mem_insertFiller pos (h.unwritten hnone)
  pending := h.pending

theorem InvClauses.startStream {s : State} (h : InvClauses s) (choice : PolicyChoice) :
    InvClauses (startStream choice s) where
  cursor_le := Nat.zero_le _
  container := h.container
  packed := h.packed
  outcomes := h.outcomes
  unwritten := fun _ t ht => by cases ht
  pending := fun hzero => absurd rfl hzero

theorem InvClauses.loadStream {s : State} (h : InvClauses s) (stream : NybbleStream) (hproducer : s.producer ≠ none) :
    InvClauses (loadStream stream s) :=
  ⟨Nat.zero_le _, h.container, h.packed, h.outcomes, fun hnone => absurd hnone hproducer, h.pending⟩

theorem InvClauses.append {s : State} (h : InvClauses s) (nybbles : List Nybble) (hproducer : s.producer ≠ none) :
    InvClauses (s.setStream (s.mem.stream ++ nybbles)) :=
  h.setStream hproducer (h.cursor_le.trans (by simp))

theorem InvClauses.encodeAndAppend {s t : State} (h : InvClauses s) {p : PackedRecord} (hproducer : s.producer ≠ none)
    (hcall : encodeAndAppend p s = .next t) : InvClauses t := by
  obtain ⟨hp, -, rfl⟩ := (encodeAndAppend_next p s t).1 hcall
  exact (h.setEncoded hp).append _ hproducer

theorem InvClauses.presentRaw {s t : State} (h : InvClauses s) {raw : RawTraceRecord} (hproducer : s.producer = some .packer)
    (hcall : presentRaw raw s = .next t) : InvClauses t := by
  obtain ⟨-, hencode⟩ := (presentRaw_next raw s t).1 hcall
  have hpending := h.setPending (v := packNextPending (paramsOf s.policy) raw s.pendingSeq) fun _ => hproducer
  exact hpending.encodeAndAppend (by simp [hproducer]) hencode

/-- A producer's write keeps the invariant where the write itself does, once the stream is its own. -/
theorem InvClauses.asProducer {s t : State} (h : InvClauses s) {who : Producer}
    {write : State → Host.Outcome State Fault Refusal} (hcall : asProducer who write s = .next t)
    (hwrite : ∀ s', InvClauses s' → s'.producer = some who → write s' = .next t → InvClauses t) : InvClauses t := by
  obtain ⟨hallowed, heq⟩ | ⟨-, heq⟩ := asProducer_cases who write s
  · exact hwrite _ (h.setProducer hallowed) rfl (heq.symm.trans hcall)
  · cases heq.symm.trans hcall

theorem InvClauses.handleLoad {s t : State} (h : InvClauses s) (nybbles : List Nybble)
    (hcall : handleInput (.load nybbles) s = .next t) : InvClauses t := by
  rw [handleInput_load] at hcall
  refine h.asProducer hcall fun s' hs' hwho hwrite => ?_
  cases hwrite
  exact hs'.loadStream _ (by simp [hwho])

/-- Every input keeps the invariant. -/
theorem InvClauses.handleInput {s t : State} (h : InvClauses s) {e : Input} (hcall : handleInput e s = .next t) :
    InvClauses t := by
  cases e with
  | raw record => exact h.asProducer hcall fun s' hs' hwho hwrite => hs'.presentRaw hwho hwrite
  | packed record => exact h.asProducer hcall fun s' hs' hwho hwrite => hs'.encodeAndAppend (by simp [hwho]) hwrite
  | compressed record =>
    refine h.asProducer hcall fun s' hs' hwho hwrite => ?_
    obtain ⟨-, rfl⟩ := (appendRecord_next record s' t).1 hwrite
    exact hs'.append _ (by simp [hwho])
  | filler pos =>
    obtain ⟨-, rfl⟩ := (addFiller_next pos s t).1 hcall
    exact h.insertFiller pos
  | decode => exact h.consumerCall hcall
  | decodeWindow => exact h.consumerCall ((windowCall_eq_consumerCall s).symm.trans hcall)
  | moveCursor pos =>
    obtain ⟨hpos, rfl⟩ := (resynchronise_next pos s t).1 hcall
    exact h.setCursor hpos
  | resetPacker =>
    cases hcall
    exact h.setPending fun hzero => absurd rfl hzero
  | startStream choice =>
    cases hcall
    exact h.startStream choice
  | load nybbles => exact h.handleLoad nybbles hcall
  | loadBytes bytes => exact h.handleLoad (fromBytes bytes) ((handleInput_loadBytes bytes s).symm.trans hcall)

theorem InvClauses.step {s t : State} (h : InvClauses s) (hstep : step s = .next t) : InvClauses t := by
  cases hq : s.inputs with
  | nil => exact h.consumerCall ((step_of_no_input s hq).symm.trans hstep)
  | cons e q => exact (h.setInputs q).handleInput ((step_of_input s e q hq).symm.trans hstep)

end Sys2Proof.Machine

namespace Sys2Proof.Proofs
open Machine

/-- Settles O57. -/
theorem resetClearsCountStreamAndCursor : Obligations.ResetClearsCountStreamAndCursor := ⟨rfl, rfl, rfl⟩

/-- Settles O58: at reset every clause is about an empty stream, an empty container or the skip record. -/
theorem stateInvHoldsAtReset : Obligations.StateInvHoldsAtReset :=
  (inv_iff _).2
    { cursor_le := Nat.le_refl 0
      container := wf_reset
      packed := by decide
      outcomes := by simp [State.reset]
      unwritten := by simp [State.reset]
      pending := fun hzero => absurd rfl hzero }

/-- Settles O59: each clause under each action. -/
theorem stepKeepsStateInv : Obligations.StepKeepsStateInv := fun s t hinv hstep =>
  (inv_iff t).2 (((inv_iff s).1 hinv).step hstep)

end Sys2Proof.Proofs
end
